-- ==== Sys2Proof/Word.lean ====
section
/-! DEFINITION. The word types of the block (00_scope.md R13, R15, R16): bytes, 16-bit words, 24-bit
bus addresses, 32-bit port words and 64-bit counters. -/

namespace Sys2Proof

/-- A byte, 8 bits (R16). -/
abbrev Byte := BitVec 8

/-- A word of the bus, 16 bits (R16, R50). -/
abbrev Half := BitVec 16

/-- A bus address after masking, 24 bits (R16, R40). -/
abbrev Addr := BitVec 24

/-- A word of the command, data and result ports, 32 bits (R70). -/
abbrev Word := BitVec 32

/-- A 64-bit counter or divider output (R15). -/
abbrev Quad := BitVec 64

end Sys2Proof
end

