-- ==== Sys2Proof/Syntax.lean ====
section
/-! DEFINITION. The commands of the block (30_encoding.md R70 to R79): one constructor of `Instr` per row
of opcode_table.json, the command and data words that carry them, the pseudo-instructions and the
assembler spelling. -/

namespace Sys2Proof

/-- What the host presents at once: the command word CW and the data operand D (R70, R76). -/
structure Command where
  cw : Word
  d : Word
  deriving DecidableEq, Repr

/-- The twenty commands of R73 with the operands of R72. -/
inductive Instr where
  /-- RD8, 40_bus.md R92 -/
  | rd8 (a : Addr)
  /-- RD16, 40_bus.md R93 -/
  | rd16 (a : Addr)
  /-- WR8, 40_bus.md R94 -/
  | wr8 (a : Addr) (v : Byte)
  /-- WR16, 40_bus.md R95 -/
  | wr16 (a : Addr) (v : Half)
  /-- LDROM, 40_bus.md R96 -/
  | ldrom
  /-- INSBIN, 40_bus.md R97; the operand is the opaque host file reference -/
  | insbin (fileref : Word)
  /-- IRQREG, 41_irq_encoder.md R111; level 0..7 -/
  | irqreg (level : Nat)
  /-- IRQASR, 41_irq_encoder.md R112; handle 0..255 -/
  | irqasr (handle : Nat)
  /-- IRQDEA, 41_irq_encoder.md R113; handle 0..255 -/
  | irqdea (handle : Nat)
  /-- IRQRCP, 41_irq_encoder.md R114 -/
  | irqrcp
  /-- IRQGET, 41_irq_encoder.md R115 -/
  | irqget
  /-- FDCLK, 42_freq_divider.md R131; percentage 0..255 and source cycles below 2^32 -/
  | fdclk (pct : Nat) (n : Nat)
  /-- RUN, 43_scheduler.md R144; requested cycles below 2^32 -/
  | run (n : Nat)
  /-- PRUN, 43_scheduler.md R145; cycles below 2^32 -/
  | prun (n : Nat)
  /-- RESET, 70_reset_and_hazards.md R200 -/
  | reset
  /-- TOGMODE, 43_scheduler.md R146 -/
  | togmode
  /-- TOGREC, 43_scheduler.md R147 -/
  | togrec
  /-- HEALTH, 43_scheduler.md R148 -/
  | health
  /-- TAKEFRAME, 43_scheduler.md R149 -/
  | takeframe
  /-- STATS, 43_scheduler.md R150 -/
  | stats
  deriving DecidableEq, Repr

/-- The pseudo-instructions of R78. -/
inductive Pseudo where
  | rd32 (a : Addr)
  | wr32 (a : Addr) (v : Word)
  | step
  | fdclkUnscaled (n : Nat)
  deriving DecidableEq, Repr

/-- The expansions of R78, in order: the word at the lower address (the high half) first. -/
def Pseudo.expand : Pseudo → List Instr
  | .rd32 a => [.rd16 a, .rd16 (a + 2#24)]
  | .wr32 a v => [.wr16 a (v.extractLsb' 16 16), .wr16 (a + 2#24) (v.extractLsb' 0 16)]
  | .step => [.run 0]
  | .fdclkUnscaled n => [.fdclk 100 n]

/-- The assembler spelling of a command (R77), its numbers in decimal. -/
def Instr.assembly : Instr → String
  | .rd8 a => "RD8 " ++ toString a.toNat
  | .rd16 a => "RD16 " ++ toString a.toNat
  | .wr8 a v => "WR8 " ++ toString a.toNat ++ ", " ++ toString v.toNat
  | .wr16 a v => "WR16 " ++ toString a.toNat ++ ", " ++ toString v.toNat
  | .ldrom => "LDROM"
  | .insbin f => "INSBIN " ++ toString f.toNat
  | .irqreg l => "IRQREG " ++ toString l
  | .irqasr h => "IRQASR " ++ toString h
  | .irqdea h => "IRQDEA " ++ toString h
  | .irqrcp => "IRQRCP"
  | .irqget => "IRQGET"
  | .fdclk p n => "FDCLK " ++ toString n ++ ", " ++ toString p
  | .run n => "RUN " ++ toString n
  | .prun n => "PRUN " ++ toString n
  | .reset => "RESET"
  | .togmode => "TOGMODE"
  | .togrec => "TOGREC"
  | .health => "HEALTH"
  | .takeframe => "TAKEFRAME"
  | .stats => "STATS"

end Sys2Proof
end

