-- ==== Sys2Proof/WellFormed.lean ====
section
/-! DEFINITION. Which commands are well formed: every operand within the field that carries it
(30_encoding.md R72). -/

namespace Sys2Proof

/-- R72: a level has 3 bits, a handle 8, a percentage 8, a cycle count 32. Addresses, data bytes, data
words and file references have their width by their type. -/
def Instr.wf : Instr → Bool
  | .irqreg level => decide (level < 8)
  | .irqasr handle => decide (handle < 256)
  | .irqdea handle => decide (handle < 256)
  | .fdclk pct n => decide (pct < 256) && decide (n < 2 ^ 32)
  | .run n => decide (n < 2 ^ 32)
  | .prun n => decide (n < 2 ^ 32)
  | .rd8 _ => true
  | .rd16 _ => true
  | .wr8 _ _ => true
  | .wr16 _ _ => true
  | .ldrom => true
  | .insbin _ => true
  | .irqrcp => true
  | .irqget => true
  | .reset => true
  | .togmode => true
  | .togrec => true
  | .health => true
  | .takeframe => true
  | .stats => true

end Sys2Proof
end

