-- ==== Sys2Proof/Decode.lean ====
section
/-! DEFINITION. Decoding and encoding of commands (30_encoding.md R71 to R76, R79). `decode` is total and
rejects by name; `encode` writes the words of a well-formed command. -/

namespace Sys2Proof

/-- Why a command is reserved (R74); each is answered with E_ENC. -/
inductive Reject where
  /-- UNIT 0x0 or 0x5 to 0xF -/
  | reservedUnit
  /-- an OP value not listed for its unit -/
  | reservedOp
  /-- a must-be-zero bit of A is set -/
  | mustBeZero
  /-- WR8 with D[31:8] not 0, or WR16 with D[31:16] not 0 -/
  | dataTooWide
  deriving DecidableEq, Repr

/-- CW[31:28], the UNIT field (R71). -/
def Command.unitField (c : Command) : BitVec 4 := c.cw.extractLsb' 28 4

/-- CW[27:24], the OP field (R71). -/
def Command.opField (c : Command) : BitVec 4 := c.cw.extractLsb' 24 4

/-- CW[23:0], the operand field A (R71). -/
def Command.aField (c : Command) : BitVec 24 := c.cw.extractLsb' 0 24

/-- A command with no operand in A: A must be 0 (R72). -/
def decodePlain (a : BitVec 24) (i : Instr) : Except Reject Instr :=
  if a = 0#24 then .ok i else .error .mustBeZero

/-- A command whose operand is the low `k` bits of A: the bits above must be 0 (R72). -/
def decodeLow (k : Nat) (a : BitVec 24) (make : Nat → Instr) : Except Reject Instr :=
  if a.toNat < 2 ^ k then .ok (make a.toNat) else .error .mustBeZero

/-- WR8: v = D[7:0], D[31:8] must be 0 (R72). -/
def decodeWr8 (a : BitVec 24) (d : Word) : Except Reject Instr :=
  if d.toNat < 2 ^ 8 then .ok (.wr8 a (d.extractLsb' 0 8)) else .error .dataTooWide

/-- WR16: v = D[15:0], D[31:16] must be 0 (R72). -/
def decodeWr16 (a : BitVec 24) (d : Word) : Except Reject Instr :=
  if d.toNat < 2 ^ 16 then .ok (.wr16 a (d.extractLsb' 0 16)) else .error .dataTooWide

/-- UNIT 1, BUS (R73). -/
def decodeBus (op : Nat) (a : BitVec 24) (d : Word) : Except Reject Instr :=
  match op with
  | 0 => .ok (.rd8 a)
  | 1 => .ok (.rd16 a)
  | 2 => decodeWr8 a d
  | 3 => decodeWr16 a d
  | 4 => decodePlain a .ldrom
  | 5 => decodePlain a (.insbin d)
  | _ => .error .reservedOp

/-- UNIT 2, IRQ (R73). -/
def decodeIrq (op : Nat) (a : BitVec 24) : Except Reject Instr :=
  match op with
  | 0 => decodeLow 3 a .irqreg
  | 1 => decodeLow 8 a .irqasr
  | 2 => decodeLow 8 a .irqdea
  | 3 => decodePlain a .irqrcp
  | 4 => decodePlain a .irqget
  | _ => .error .reservedOp

/-- UNIT 3, FDIV (R73). -/
def decodeFdiv (op : Nat) (a : BitVec 24) (d : Word) : Except Reject Instr :=
  match op with
  | 0 => decodeLow 8 a (fun pct => .fdclk pct d.toNat)
  | _ => .error .reservedOp

/-- UNIT 4, SCHED (R73). -/
def decodeSched (op : Nat) (a : BitVec 24) (d : Word) : Except Reject Instr :=
  match op with
  | 0 => decodePlain a (.run d.toNat)
  | 1 => decodePlain a (.prun d.toNat)
  | 2 => decodePlain a .reset
  | 3 => decodePlain a .togmode
  | 4 => decodePlain a .togrec
  | 5 => decodePlain a .health
  | 6 => decodePlain a .takeframe
  | 7 => decodePlain a .stats
  | _ => .error .reservedOp

/-- The decoder (R73, R74). -/
def decode (c : Command) : Except Reject Instr :=
  match c.unitField.toNat with
  | 1 => decodeBus c.opField.toNat c.aField c.d
  | 2 => decodeIrq c.opField.toNat c.aField
  | 3 => decodeFdiv c.opField.toNat c.aField c.d
  | 4 => decodeSched c.opField.toNat c.aField c.d
  | _ => .error .reservedUnit

/-- CW = (UNIT << 28) | (OP << 24) | A (R79). -/
def commandWord (unitNo op : BitVec 4) (a : BitVec 24) : Word :=
  (unitNo ++ op) ++ a

/-- The words of a well-formed command (R72, R73, R79). Where a command does not read D, D is 0
(log 15). -/
def encode : Instr → Command
  | .rd8 a => ⟨commandWord 1 0 a, 0⟩
  | .rd16 a => ⟨commandWord 1 1 a, 0⟩
  | .wr8 a v => ⟨commandWord 1 2 a, v.setWidth 32⟩
  | .wr16 a v => ⟨commandWord 1 3 a, v.setWidth 32⟩
  | .ldrom => ⟨commandWord 1 4 0, 0⟩
  | .insbin fileref => ⟨commandWord 1 5 0, fileref⟩
  | .irqreg level => ⟨commandWord 2 0 (BitVec.ofNat 24 level), 0⟩
  | .irqasr handle => ⟨commandWord 2 1 (BitVec.ofNat 24 handle), 0⟩
  | .irqdea handle => ⟨commandWord 2 2 (BitVec.ofNat 24 handle), 0⟩
  | .irqrcp => ⟨commandWord 2 3 0, 0⟩
  | .irqget => ⟨commandWord 2 4 0, 0⟩
  | .fdclk pct n => ⟨commandWord 3 0 (BitVec.ofNat 24 pct), BitVec.ofNat 32 n⟩
  | .run n => ⟨commandWord 4 0 0, BitVec.ofNat 32 n⟩
  | .prun n => ⟨commandWord 4 1 0, BitVec.ofNat 32 n⟩
  | .reset => ⟨commandWord 4 2 0, 0⟩
  | .togmode => ⟨commandWord 4 3 0, 0⟩
  | .togrec => ⟨commandWord 4 4 0, 0⟩
  | .health => ⟨commandWord 4 5 0, 0⟩
  | .takeframe => ⟨commandWord 4 6 0, 0⟩
  | .stats => ⟨commandWord 4 7 0, 0⟩

/-- Whether a command reads its data operand D (R72). -/
def Instr.readsData : Instr → Bool
  | .wr8 _ _ => true
  | .wr16 _ _ => true
  | .insbin _ => true
  | .fdclk _ _ => true
  | .run _ => true
  | .prun _ => true
  | .rd8 _ => false
  | .rd16 _ => false
  | .ldrom => false
  | .irqreg _ => false
  | .irqasr _ => false
  | .irqdea _ => false
  | .irqrcp => false
  | .irqget => false
  | .reset => false
  | .togmode => false
  | .togrec => false
  | .health => false
  | .takeframe => false
  | .stats => false

/-- A row of the opcode map (R73): a command word is of this row when `cw &&& mask = pattern`. -/
structure OpcodeRow where
  mnemonic : String
  pattern : Word
  mask : Word
  deriving DecidableEq, Repr

/-- The row of R73 a command belongs to. -/
def Instr.row : Instr → OpcodeRow
  | .rd8 _ => ⟨"RD8", 0x10000000#32, 0xFF000000#32⟩
  | .rd16 _ => ⟨"RD16", 0x11000000#32, 0xFF000000#32⟩
  | .wr8 _ _ => ⟨"WR8", 0x12000000#32, 0xFF000000#32⟩
  | .wr16 _ _ => ⟨"WR16", 0x13000000#32, 0xFF000000#32⟩
  | .ldrom => ⟨"LDROM", 0x14000000#32, 0xFFFFFFFF#32⟩
  | .insbin _ => ⟨"INSBIN", 0x15000000#32, 0xFFFFFFFF#32⟩
  | .irqreg _ => ⟨"IRQREG", 0x20000000#32, 0xFFFFFFF8#32⟩
  | .irqasr _ => ⟨"IRQASR", 0x21000000#32, 0xFFFFFF00#32⟩
  | .irqdea _ => ⟨"IRQDEA", 0x22000000#32, 0xFFFFFF00#32⟩
  | .irqrcp => ⟨"IRQRCP", 0x23000000#32, 0xFFFFFFFF#32⟩
  | .irqget => ⟨"IRQGET", 0x24000000#32, 0xFFFFFFFF#32⟩
  | .fdclk _ _ => ⟨"FDCLK", 0x30000000#32, 0xFFFFFF00#32⟩
  | .run _ => ⟨"RUN", 0x40000000#32, 0xFFFFFFFF#32⟩
  | .prun _ => ⟨"PRUN", 0x41000000#32, 0xFFFFFFFF#32⟩
  | .reset => ⟨"RESET", 0x42000000#32, 0xFFFFFFFF#32⟩
  | .togmode => ⟨"TOGMODE", 0x43000000#32, 0xFFFFFFFF#32⟩
  | .togrec => ⟨"TOGREC", 0x44000000#32, 0xFFFFFFFF#32⟩
  | .health => ⟨"HEALTH", 0x45000000#32, 0xFFFFFFFF#32⟩
  | .takeframe => ⟨"TAKEFRAME", 0x46000000#32, 0xFFFFFFFF#32⟩
  | .stats => ⟨"STATS", 0x47000000#32, 0xFFFFFFFF#32⟩

/-- The opcode map of R73, in the table's order: one command of each row, by its row. -/
def opcodeTable : List OpcodeRow :=
  [Instr.row (.rd8 0), Instr.row (.rd16 0), Instr.row (.wr8 0 0), Instr.row (.wr16 0 0),
    Instr.row .ldrom, Instr.row (.insbin 0), Instr.row (.irqreg 0), Instr.row (.irqasr 0),
    Instr.row (.irqdea 0), Instr.row .irqrcp] ++
  [Instr.row .irqget, Instr.row (.fdclk 0 0), Instr.row (.run 0), Instr.row (.prun 0),
    Instr.row .reset, Instr.row .togmode, Instr.row .togrec, Instr.row .health,
    Instr.row .takeframe, Instr.row .stats]

/-- The command whose bits are `w`, bit 0 the least significant bit of CW: CW is bits 31..0, D is bits
63..32, every bit from `nbits` on is 0. -/
def commandOfBits (nbits w : Nat) : Command :=
  let bits := w % 2 ^ nbits
  ⟨BitVec.ofNat 32 bits, BitVec.ofNat 32 (bits / 2 ^ 32)⟩

/-- The command the decoder reads from a word numbered as opcode_table.json numbers it. -/
def decodeTableWord (nbits w : Nat) : Option Instr :=
  match decode (commandOfBits nbits w) with
  | .ok i => some i
  | .error _ => none

end Sys2Proof
end

