-- ==== Sys2Proof/Config.lean ====
section
/-! DEFINITION. The parameters of the block (00_scope.md R13, R14), the answers its external agents can
give (R9 to R12), and the free values: constants with no body, of which nothing can be proved. -/

namespace Sys2Proof

/-! ## Fixed parameters (R13) -/

/-- ROM_SIZE, the bytes of the ROM image. -/
def romSize : Nat := 65536

/-- VEC_SIZE, the bytes of the reset-vector mirror. -/
def vecSize : Nat := 8

/-- ASIZE, the bytes of the physical address space. -/
def addressSize : Nat := 16777216

/-- IRQ_CAP, the capacity of the interrupt device table. -/
def irqCapacity : Nat := 256

/-! ## Open parameters (R14) -/

/-- The two states of the mode machine (10_state.md R29, 43_scheduler.md R140). -/
inductive Mode where
  | running
  | paused
  deriving DecidableEq, Repr, Inhabited

/-- What a 256-byte sub-page of the I/O range selects (R14); `soundIo k` is the sound device's sub-page
0 "sound", 1 "analog" or 2 "mixer"; `unmapped` is the spec's NONE. -/
inductive SubPage where
  | blitIo
  | timerIo
  | ciaIo
  | soundIo (k : Fin 3)
  | unmapped
  deriving DecidableEq, Repr, Inhabited

/-- The six sub-pages that each stand exactly once in a sub-page map (R14). -/
def SubPage.mapped : List SubPage :=
  [.blitIo, .timerIo, .ciaIo, .soundIo 0, .soundIo 1, .soundIo 2]

/-- The open parameters of R14. "A model takes each as an argument": the machine holds them in its
field `cfg`, which no command writes (log 1). -/
structure Config where
  /-- IO_BASE -/
  ioBase : Addr
  /-- SUBPAGE_MAP, by sub-page number -/
  subpageMap : List SubPage
  /-- BLITCTX_BASE -/
  blitCtxBase : Addr
  /-- ROMMIRROR_BASE -/
  romMirrorBase : Addr
  /-- FONT0_BASE -/
  font0Base : Addr
  /-- FONT1_BASE -/
  font1Base : Addr
  /-- FONT_INDEX_MASK -/
  fontIndexMask : BitVec 15
  /-- FONT0, by entry index -/
  font0 : List Half
  /-- FONT1, by entry index -/
  font1 : List Half
  /-- DEFAULT_ROM -/
  defaultRom : List Byte
  /-- LOAD_START_SLOT -/
  loadStartSlot : Addr
  /-- LOAD_END_SLOT -/
  loadEndSlot : Addr
  /-- CPU_HZ, the divider's source frequency S -/
  cpuHz : Nat
  /-- SOUND_HZ, the divider's target frequency T -/
  soundHz : Nat
  /-- FRAME_BUDGET -/
  frameBudget : Nat
  /-- AUDIO_TARGET -/
  audioTarget : Nat
  /-- INITIAL_MODE -/
  initialMode : Mode
  /-- CPU_ATTACHED -/
  cpuAttached : Bool
  deriving DecidableEq, Repr

/-- The constraints R14 puts on the open parameters. -/
abbrev Config.wf (c : Config) : Prop :=
  c.ioBase.toNat % 4096 = 0 ∧
  c.subpageMap.length = 16 ∧
  (∀ p ∈ SubPage.mapped, c.subpageMap.count p = 1) ∧
  c.blitCtxBase.toNat % 65536 = 0 ∧
  c.romMirrorBase.toNat % 65536 = 0 ∧
  c.font0Base.toNat % 65536 = 0 ∧
  c.font1Base.toNat % 65536 = 0 ∧
  c.font0Base ≠ c.font1Base ∧
  (∃ k ∈ List.range 16, c.fontIndexMask.toNat + 1 = 2 ^ k) ∧
  c.font0.length = c.fontIndexMask.toNat + 1 ∧
  c.font1.length = c.fontIndexMask.toNat + 1 ∧
  c.defaultRom.length = romSize ∧
  0 < c.cpuHz ∧ 0 < c.soundHz ∧ 0 < c.frameBudget ∧ 0 < c.audioTarget

/-! ## The answers of the external agents (R9 to R12) -/

/-- The four devices (R10). -/
inductive Dev where
  | timer
  | cia
  | blitter
  | sound
  deriving DecidableEq, Repr, Inhabited

/-- An operation a device issues while the block calls it (R8): assert or deassert a line; for the
blitter, a read or write of video memory. -/
inductive DevOp where
  | irqAssert (handle : Nat)
  | irqDeassert (handle : Nat)
  | vramRead (a : Addr)
  | vramWrite (a : Addr) (v : Byte)
  deriving DecidableEq, Repr, Inhabited

/-- An operation the CPU core issues while it executes (R8): a bus operation at the 32-bit address it
presents (20_memory.md R40), or a read of the encoder's level (41_irq_encoder.md R115). -/
inductive CpuOp where
  | rd8 (a : Word)
  | rd16 (a : Word)
  | wr8 (a : Word) (v : Byte)
  | wr16 (a : Word) (v : Half)
  | irqGet
  deriving DecidableEq, Repr, Inhabited

/-- A device's answer to one call: the byte of a register read, the samples of a record drain, and the
operations it issues during the call, in order. A call uses the parts its contract has (R10). -/
structure DevReply where
  value : Byte
  samples : List Nat
  ops : List DevOp
  deriving DecidableEq, Repr, Inhabited

/-- The blitter's answer to one `run_next_operation` (R10): the operations issued and whether more
queued work remains. `endless`: from this call on it never answers false (U8). -/
inductive BlitReply where
  | ran (ops : List DevOp) (more : Bool)
  | endless
  deriving DecidableEq, Repr, Inhabited

/-- The CPU core's answer to one loop body of RUN (R9): the operations issued by `execute()`, how far
`getClock()` advanced, and `breakpointReached` afterwards (log 3). `stalled`: in this RUN, from this
call on, `execute()` returns with the clock unchanged, no operation and no breakpoint (U7, R210). -/
inductive ExecReply where
  | ran (ops : List CpuOp) (delta : Quad) (breakpoint : Bool)
  | stalled
  deriving DecidableEq, Repr, Inhabited

/-- `HOST.rom_file()` (R11). -/
inductive RomFile where
  | notConfigured
  | missing
  | file (bytes : List Byte)
  deriving DecidableEq, Repr, Inhabited

/-- `HOST.open_binary(ref)` (R11). -/
inductive BinFile where
  | cannotOpen
  | file (bytes : List Byte)
  deriving DecidableEq, Repr, Inhabited

namespace Config

/-! ## Free values

Each is a constant with no body. The first argument of the `free…` draws is the counter `env.drawn`. -/

/-- U1: what byte `i` of `rom` holds before the first LDROM (log 9). -/
opaque freeRomByte : Nat → Byte
/-- U2: what byte `a` of `vram` holds before anything has written it (log 8). -/
opaque freeVramByte : Nat → Byte
/-- R15, R131: the divider's 64-bit output where the exact quotient does not fit 64 bits (log 13). -/
opaque freeDividerOutput : Nat → Quad
/-- A device's answer where no answer is listed (R12, log 2). -/
opaque freeDevReply : Nat → DevReply
/-- The blitter's answers in one drain from where none is listed on; past its end `run_next_operation`
never answers false (R12, log 4). -/
opaque freeBlits : Nat → List BlitReply
/-- The CPU's answers in one RUN from where none is listed on; past its end the clock stands still
(R12, log 4). -/
opaque freeExecs : Nat → List ExecReply
/-- The CPU's operations in its reset where no answer is listed (R12, log 2). -/
opaque freeResetOps : Nat → List CpuOp
/-- The host's audio-queue occupancy where no answer is listed (U15, log 2). -/
opaque freeOccupancy : Nat → Nat
/-- The configured ROM file where no answer is listed (R12, log 2). -/
opaque freeRomFile : Nat → RomFile
/-- The binary file where no answer is listed (R12, log 2). -/
opaque freeBinFile : Nat → BinFile

/-! ## The parameters of the machine at power-on (U18)

Each open parameter of R14 is made from constants with no body, so that its constraint holds by the
way it is made and nothing else is known of it (log 1). -/

/-- IO_BASE[23:12]. -/
opaque ioPage : BitVec 12
/-- Where the sub-pages stand: sub-page p is the `subpagePlace p`-th of the six mapped ones, or
unmapped from 6 on. A permutation, so each mapped one stands exactly once. -/
opaque subpagePlace : Equiv.Perm (Fin 16)
/-- BLITCTX_BASE[23:16]. -/
opaque blitCtxRegion : BitVec 8
/-- ROMMIRROR_BASE[23:16]. -/
opaque romMirrorRegion : BitVec 8
/-- FONT0_BASE[23:16]. -/
opaque font0Region : BitVec 8
/-- How far FONT1_BASE[23:16] stands above FONT0_BASE[23:16], less one, modulo 256. -/
opaque fontGap : Fin 255
/-- The k of FONT_INDEX_MASK = 2^k - 1. -/
opaque fontIndexBits : Fin 16
/-- FONT0's entries. -/
opaque font0Entry : Nat → Half
/-- FONT1's entries. -/
opaque font1Entry : Nat → Half
/-- DEFAULT_ROM's bytes. -/
opaque defaultRomByte : Nat → Byte
/-- LOAD_START_SLOT. -/
opaque startSlot : Addr
/-- LOAD_END_SLOT. -/
opaque endSlot : Addr
/-- CPU_HZ - 1. -/
opaque cpuHzPred : Nat
/-- SOUND_HZ - 1. -/
opaque soundHzPred : Nat
/-- FRAME_BUDGET - 1. -/
opaque frameBudgetPred : Nat
/-- AUDIO_TARGET - 1. -/
opaque audioTargetPred : Nat
/-- INITIAL_MODE. -/
opaque powerOnMode : Mode
/-- CPU_ATTACHED. -/
opaque attached : Bool

/-- The parameters of the machine at power-on: every one a free value within R14's constraint. -/
def machine : Config where
  ioBase := ioPage ++ 0#12
  subpageMap := (List.finRange 16).map fun p => SubPage.mapped.getD (subpagePlace p).val .unmapped
  blitCtxBase := blitCtxRegion ++ 0#16
  romMirrorBase := romMirrorRegion ++ 0#16
  font0Base := font0Region ++ 0#16
  font1Base := (font0Region + BitVec.ofNat 8 (fontGap.val + 1)) ++ 0#16
  fontIndexMask := BitVec.ofNat 15 (2 ^ fontIndexBits.val - 1)
  font0 := (List.range (2 ^ fontIndexBits.val)).map font0Entry
  font1 := (List.range (2 ^ fontIndexBits.val)).map font1Entry
  defaultRom := (List.range romSize).map defaultRomByte
  loadStartSlot := startSlot
  loadEndSlot := endSlot
  cpuHz := cpuHzPred + 1
  soundHz := soundHzPred + 1
  frameBudget := frameBudgetPred + 1
  audioTarget := audioTargetPred + 1
  initialMode := powerOnMode
  cpuAttached := attached

end Config

end Sys2Proof
end

