-- ==== Sys2Proof/Machine/State.lean ====
section
/-! DEFINITION. The state of the block (10_state.md R20), its configuration and ports, the inputs of its
external agents, the outcomes a command can have beside a next state, and the state at power-on. -/

namespace Sys2Proof.Machine

/-- A memory: the bytes something has written, by address. Canonical form: `Memory.wf`. A byte not listed
has no known value (log 8, log 9). -/
structure Memory where
  cells : List Host.Cell
  deriving DecidableEq, Repr

/-- The canonical form: addresses strictly rising. An unlisted byte reads as no known value, so no
entry can equal it. -/
abbrev Memory.wf (m : Memory) : Prop := m.cells.Pairwise fun c d => c.1 < d.1

/-- Every listed address lies below `n`. -/
abbrev Memory.below (m : Memory) (n : Nat) : Prop := ∀ c ∈ m.cells, c.1 < n

/-- A registered entry of the interrupt device table (10_state.md R25): its hardware-tied level 0..7 and
whether its line is pulled. -/
structure IrqLine where
  level : Nat
  asserted : Bool
  deriving DecidableEq, Repr

/-- The status of a command with its recorded value (60_exceptions.md R181). -/
inductive Status where
  /-- 0 -/
  | ok
  /-- 1: reserved command, with CW and D -/
  | eEnc (cw d : Word)
  /-- 2: the interrupt table is full, with the level -/
  | eIrqFull (level : Nat)
  /-- 3: no such line, with the handle -/
  | eBadHandle (handle : Nat)
  /-- 4: the default ROM was loaded in place of the configured file -/
  | wRomFallback
  /-- 5: the binary cannot be opened, with the file reference -/
  | eBinOpen (fileref : Word)
  /-- 6: the binary is shorter than 2 bytes, with its length -/
  | eBinShort (length : Nat)
  deriving DecidableEq, Repr

/-- What RUN reports (10_state.md R28, 43_scheduler.md R144). -/
inductive RunResult where
  | stepped
  | breakpointHit
  deriving DecidableEq, Repr

/-- The result R of a command (30_encoding.md R70). -/
inductive Result where
  | none
  /-- a byte, word, handle or level zero-extended to 32 bits -/
  | word (v : Word)
  /-- a divider output -/
  | cycles (v : Quad)
  | bool (v : Bool)
  | run (v : RunResult)
  /-- the record of 43_scheduler.md R150 -/
  | stats (mode : Mode) (recording : Bool) (underrun equalrun overrun : Quad)
  deriving DecidableEq, Repr

/-- A call of a device (00_scope.md R10). -/
inductive DevCall where
  | reset (d : Dev)
  | run (d : Dev) (cycles : Nat)
  | ioRead (d : Dev) (offset : BitVec 10)
  | ioWrite (d : Dev) (offset : BitVec 10) (v : Byte)
  | ctxRead (offset : BitVec 16)
  | ctxWrite (offset : BitVec 16) (v : Byte)
  | notifyScreenRefresh
  | runNextOperation
  | clearRecordBuffer
  | drainRecordBuffer
  deriving DecidableEq, Repr

/-- What crosses the block's boundary outwards while it performs a command (D2), in order: its calls of
the external agents, and its answers to the operations they nest in those calls (R8). -/
inductive Event where
  | device (call : DevCall)
  | cpuExecute
  | cpuReset
  /-- `CPU.setIPL(l)` and the output event IPL(l) (41_irq_encoder.md R114) -/
  | setIpl (level : Nat)
  /-- `CPU.breakpointReached <- false` (43_scheduler.md R144) -/
  | clearBreakpoint
  | audioQueueBytes
  /-- `HOST.start_audio()` and the output event AUDIO_START (43_scheduler.md R142) -/
  | startAudio
  | romFile
  | openBinary (fileref : Word)
  | recordOpen
  | recordWrite (samples : List Nat)
  | recordClose
  /-- the status and result a nested operation got -/
  | reply (status : Status) (result : Result)
  deriving DecidableEq, Repr

/-- The inputs (00_scope.md R12): what each kind of external call will be answered, in call order. Where
a list has run out the answer is a free value of Config taken at `drawn`, which then counts on
(log 2). `clock` is what `CPU.getClock()` last answered (R9): the CPU's own counter, held because the
answers of a 64-bit counter that never goes back are bounded by it (log 7). -/
structure Env where
  execs : List ExecReply
  devs : List DevReply
  blits : List BlitReply
  cpuResets : List (List CpuOp)
  occupancies : List Nat
  romFiles : List RomFile
  binaries : List BinFile
  clock : Nat
  drawn : Nat
  deriving DecidableEq, Repr

/-- The machine. -/
structure State where
  /-- the configuration (R14), which no command writes -/
  cfg : Config
  /-- the ROM image (R23) -/
  rom : Memory
  /-- video memory (R24) -/
  vram : Memory
  /-- the interrupt device table (R25): entry h is handle h; `irq_count` is its length -/
  irqLines : List IrqLine
  /-- the interrupt level, 0..7 (R26) -/
  ipl : Nat
  /-- signed 64-bit (R27) -/
  cpuBalance : Int
  /-- signed 64-bit (R27) -/
  frameBalance : Int
  /-- the one-shot frame mark (R28) -/
  frameDone : Bool
  /-- RUNNING or PAUSED (R29) -/
  mode : Mode
  /-- recording to a file is active (R30) -/
  recording : Bool
  /-- tallies (R31) -/
  underrun : Quad
  equalrun : Quad
  overrun : Quad
  /-- lap snapshots (R31) -/
  lapUnder : Quad
  lapEqual : Quad
  lapOver : Quad
  /-- the divider's carried remainder (R32) -/
  divRem : Nat
  /-- command and data port: what the host presents, next first (R70) -/
  commands : List Command
  /-- status port (R70, R181) -/
  status : Status
  /-- result port (R70) -/
  result : Result
  /-- what crossed the boundary during the last command, oldest first -/
  trace : List Event
  /-- the inputs (R12) -/
  env : Env
  deriving DecidableEq, Repr

/-- How a command can stop the machine. -/
inductive Fault where
  /-- RUN does not end: `CPU.execute()` returns with its clock unchanged for ever while the consumed cycles
  are below the balance (U7, 70_reset_and_hazards.md R210). Raised by RUN. Safe: the block hangs there. -/
  | runStuck
  /-- RUN does not end: `BLITTER.run_next_operation()` never answers false (U8, R210). Raised by RUN. Safe:
  the block hangs there. -/
  | drainStuck
  /-- A cycle balance would leave the signed 64-bit range (U14, 00_scope.md R15: outside the admitted runs).
  Raised by RUN and PRUN. Safe: nothing is claimed of the block past that point. -/
  | balanceOverflow
  /-- The CPU's 64-bit cycle counter would pass its last value (U14, 00_scope.md R9, R15: outside the admitted
  runs). Raised by RUN. Safe: nothing is claimed of the block past that point. -/
  | clockOverflow
  /-- A tally at 2^64 - 1 would be raised (U14, 00_scope.md R15, 10_state.md R38: outside the admitted runs).
  Raised by RUN and PRUN. Safe: nothing is claimed of the block past that point. -/
  | tallyOverflow
  deriving DecidableEq, Repr

/-- Why a command has no meaning here. -/
inductive Refusal where
  /-- Raised by `exec` for a command whose meaning is not written. Safe. No arm uses it. -/
  | notModelled (mnemonic : String)
  deriving DecidableEq, Repr

/-- `irq_count` (R25). -/
def State.irqCount (s : State) : Nat := s.irqLines.length

/-- No answer listed for any external call, and the CPU's clock at 0 (log 12). -/
def Env.empty : Env where
  execs := []
  devs := []
  blits := []
  cpuResets := []
  occupancies := []
  romFiles := []
  binaries := []
  clock := 0
  drawn := 0

/-- The state at power-on under a configuration (10_state.md R36, 70_reset_and_hazards.md R202): nothing
known of `rom` and `vram`, an empty table, every balance, counter, lap and the remainder 0. -/
def State.powerOn (c : Config) : State where
  cfg := c
  rom := ⟨[]⟩
  vram := ⟨[]⟩
  irqLines := []
  ipl := 0
  cpuBalance := 0
  frameBalance := 0
  frameDone := false
  mode := c.initialMode
  recording := false
  underrun := 0
  equalrun := 0
  overrun := 0
  lapUnder := 0
  lapEqual := 0
  lapOver := 0
  divRem := 0
  commands := []
  status := .ok
  result := .none
  trace := []
  env := Env.empty

/-- The machine at power-on (R36): every open parameter a free value. Not the state after the command
RESET, which is R200's and reached by performing it (log 20). -/
def State.reset : State := State.powerOn Config.machine

end Sys2Proof.Machine
end

