-- ==== Sys2Proof/Machine/Flags.lean ====
section
/-! DEFINITION. The computed conditions: the aggregate interrupt level (41_irq_encoder.md R110, R114), the
occupancy band and the audio-start test (43_scheduler.md R141, R142), the frame boundary (R143), the
buffer-health flag (R148), the status codes (60_exceptions.md R181) and the ranges of the
balances, the CPU's clock and the tallies (00_scope.md R15). -/

namespace Sys2Proof.Machine

/-- One step of R114's scan in handle order. -/
def raiseLevel (l : Nat) (line : IrqLine) : Nat :=
  if line.asserted && decide (l < line.level) then line.level else l

/-- L(s): the scan of R114 from level 0 over all registered lines, the maximum of R110. -/
def aggregateLevel (lines : List IrqLine) : Nat := lines.foldl raiseLevel 0

/-- The occupancy bands of R141. -/
inductive Band where
  | under
  | equal
  | over
  | overSkip
  deriving DecidableEq, Repr

/-- R141: the band of an occupancy in bytes relative to AUDIO_TARGET. -/
def classify (target occ : Nat) : Band :=
  if 100 * occ < 50 * target then .under
  else if 100 * occ < 120 * target then .equal
  else if 100 * occ ≤ 200 * target then .over
  else .overSkip

/-- R142: the percentage the sound device is run at, or none where it is not run. Recording always runs it
at exactly 1.00x. -/
def soundPercent (recording : Bool) (band : Band) : Option Nat :=
  if recording then some 100
  else match band with
    | .under => some 105
    | .equal => some 100
    | .over => some 95
    | .overSkip => none

/-- R142 step 5: the occupancy exceeds 75% of the target. -/
def audioStarts (target occ : Nat) : Bool := decide (75 * target < 100 * occ)

/-- R143: the frame balance exceeds FRAME_BUDGET, strictly (90_conflicts.md C2). -/
def frameExceeded (budget : Nat) (balance : Int) : Bool := decide ((budget : Int) < balance)

/-- R148: neither underruns nor overruns since the last check. -/
def healthy (s : State) : Bool := s.underrun == s.lapUnder && s.overrun == s.lapOver

/-- The largest value of a balance (R15). -/
def balanceMax : Int := 9223372036854775807

/-- The smallest value of a balance (R15). -/
def balanceMin : Int := -9223372036854775808

/-- The largest value of the CPU's cycle counter (00_scope.md R9, R15). -/
def clockMax : Nat := 18446744073709551615

/-- The largest value of a tally (R15). -/
def tallyMax : Quad := 18446744073709551615

/-- Whether counting the band would take its tally past its last value (93_implementation_defined.md U14). -/
def countOverflows (band : Band) (s : State) : Bool :=
  (s.underrun == tallyMax && band == .under) || (s.equalrun == tallyMax && band == .equal) ||
    (s.overrun == tallyMax && (band == .over || band == .overSkip))

/-- The status numbers of R181. -/
def Status.code : Status → Nat
  | .ok => 0
  | .eEnc _ _ => 1
  | .eIrqFull _ => 2
  | .eBadHandle _ => 3
  | .wRomFallback => 4
  | .eBinOpen _ => 5
  | .eBinShort _ => 6

/-- R180: whether a status says that the command was performed. -/
def Status.performed : Status → Bool
  | .ok => true
  | .wRomFallback => true
  | .eEnc _ _ => false
  | .eIrqFull _ => false
  | .eBadHandle _ => false
  | .eBinOpen _ => false
  | .eBinShort _ => false

end Sys2Proof.Machine
end

