-- ==== Sys2Proof/Machine/Memory.lean ====
section
/-! DEFINITION. Memories as data: look up, write and fill. -/

namespace Sys2Proof.Machine

/-- The byte listed at `a`, if any. -/
def lookupCell : List Host.Cell → Nat → Option Byte
  | [], _ => none
  | (k, v) :: rest, a => if k = a then some v else lookupCell rest a

/-- List byte `v` at `a`, keeping addresses strictly rising. -/
def insertCell : List Host.Cell → Nat → Byte → List Host.Cell
  | [], a, v => [(a, v)]
  | (k, w) :: rest, a, v =>
    if a < k then (a, v) :: (k, w) :: rest
    else if a = k then (a, v) :: rest
    else (k, w) :: insertCell rest a v

/-- Bytes in a row from address `k`. -/
def cellsFrom : Nat → List Byte → List Host.Cell
  | _, [] => []
  | k, b :: rest => (k, b) :: cellsFrom (k + 1) rest

/-- The byte a memory holds at `a`; none where nothing has written it. -/
def Memory.get? (m : Memory) (a : Nat) : Option Byte := lookupCell m.cells a

/-- The memory with byte `v` at `a`. -/
def Memory.set (m : Memory) (a : Nat) (v : Byte) : Memory := ⟨insertCell m.cells a v⟩

/-- A memory replaced wholesale by the bytes `b` from address 0 (40_bus.md R96). -/
def Memory.ofBytes (b : List Byte) : Memory := ⟨cellsFrom 0 b⟩

end Sys2Proof.Machine
end

