-- ==== Sys2Proof/Machine/Operands.lean ====
section
/-! DEFINITION. Operand forms: the bus address and its fields (20_memory.md R40, R41), the region
predicates (R42), device select for reads and writes (R43, R44), word halves (R48) and result
widths (30_encoding.md R70). -/

namespace Sys2Proof.Machine

/-! ## The bus address -/

/-- `a = A[23:0]` of the 32-bit address the CPU presents (R40). -/
def maskAddress (a : Word) : Addr := a.extractLsb' 0 24

/-- `(a + 1) mod 2^24`, where the second byte of a word stands (R49). -/
def nextAddress (a : Addr) : Addr := a + 1#24

/-- `a[11:8]`, the sub-page of the I/O range (R41). -/
def subpageField (a : Addr) : BitVec 4 := a.extractLsb' 8 4

/-- `a[23:16]`, the 64 KB region (R41). -/
def regionField (a : Addr) : BitVec 8 := a.extractLsb' 16 8

/-- `a[23:12]`, the 4 KB range (R42). -/
def rangeField (a : Addr) : BitVec 12 := a.extractLsb' 12 12

/-- `a[15:0]` (R41). -/
def low16Field (a : Addr) : BitVec 16 := a.extractLsb' 0 16

/-- `a[7:0]` (R41). -/
def offsetField (a : Addr) : BitVec 8 := a.extractLsb' 0 8

/-- `a[15:1] & FONT_INDEX_MASK`, the font entry index (R41). -/
def fontIndex (c : Config) (a : Addr) : BitVec 15 := a.extractLsb' 1 15 &&& c.fontIndexMask

/-- `a[0]`: odd addresses take the low byte of a font entry (R41). -/
def halfField (a : Addr) : Bool := a.getLsbD 0

/-! ## Regions (R42) -/

def inVec (a : Addr) : Bool := decide (a.toNat < vecSize)
def inIo (c : Config) (a : Addr) : Bool := rangeField a == rangeField c.ioBase
def inCtx (c : Config) (a : Addr) : Bool := regionField a == regionField c.blitCtxBase
def inRomMirror (c : Config) (a : Addr) : Bool := regionField a == regionField c.romMirrorBase
def inFont0 (c : Config) (a : Addr) : Bool := regionField a == regionField c.font0Base
def inFont1 (c : Config) (a : Addr) : Bool := regionField a == regionField c.font1Base

/-! ## Device select -/

/-- Which font table (R43 (5)). -/
inductive FontTable where
  | font0
  | font1
  deriving DecidableEq, Repr

/-- The decode targets of R45. -/
inductive Target where
  | vec (i : Nat)
  | io (d : Dev) (offset : BitVec 10)
  | ctx (offset : BitVec 16)
  | romMirror (i : Nat)
  | font (f : FontTable) (index : BitVec 15) (low : Bool)
  | vram (a : Addr)
  | drop
  deriving DecidableEq, Repr

/-- What sub-page SUBPAGE_MAP gives address `a` (R43 (2)). -/
def subpageOf (c : Config) (a : Addr) : SubPage := c.subpageMap.getD (subpageField a).toNat .unmapped

/-- R43 step (2), shared by reads and writes: the device of the sub-page, else video memory. -/
def selectIo (c : Config) (a : Addr) : Target :=
  match subpageOf c a with
  | .blitIo => .io .blitter ((offsetField a).setWidth 10)
  | .timerIo => .io .timer ((offsetField a).setWidth 10)
  | .ciaIo => .io .cia ((offsetField a).setWidth 10)
  | .soundIo k => .io .sound (BitVec.ofNat 2 k.val ++ offsetField a)
  | .unmapped => .vram a

/-- R43: device select for a byte read, first match wins. -/
def selectRead (c : Config) (a : Addr) : Target :=
  if inVec a then .vec a.toNat
  else if inIo c a then selectIo c a
  else if inCtx c a then .ctx (low16Field a)
  else if inRomMirror c a then .romMirror (low16Field a).toNat
  else if inFont0 c a then .font .font0 (fontIndex c a) (halfField a)
  else if inFont1 c a then .font .font1 (fontIndex c a) (halfField a)
  else .vram a

/-- R44: device select for a byte write, first match wins. -/
def selectWrite (c : Config) (a : Addr) : Target :=
  if inVec a then .drop
  else if inIo c a then selectIo c a
  else if inCtx c a then .ctx (low16Field a)
  else .vram a

/-- `FONTf[i]`'s high byte for an even address, low byte for an odd one (R45). -/
def fontByte (c : Config) (f : FontTable) (index : BitVec 15) (low : Bool) : Byte :=
  let entry : Half := match f with
    | .font0 => c.font0.getD index.toNat 0
    | .font1 => c.font1.getD index.toNat 0
  if low then entry.extractLsb' 0 8 else entry.extractLsb' 8 8

/-! ## Widths and byte order -/

/-- `v[15:8]`, the byte at the lower address (R48). -/
def highByte (v : Half) : Byte := v.extractLsb' 8 8

/-- `v[7:0]`, the byte at the higher address (R48). -/
def lowByte (v : Half) : Byte := v.extractLsb' 0 8

/-- A value zero-extended to the 32-bit result port (30_encoding.md R70). -/
def zext32 (n : Nat) : Word := BitVec.ofNat 32 n

end Sys2Proof.Machine
end

