-- ==== Sys2Proof/Machine/Ops.lean ====
section
/-! DEFINITION. The named operations every meaning is built from: taking a command off the port, ending a
command with a result or with a raised status (60_exceptions.md R180), the inputs, the interrupt
encoder (41_irq_encoder.md), calls of devices with their nested operations (00_scope.md R8), and the
byte and word paths of the bus (40_bus.md R90, R91, R93, R95). -/

namespace Sys2Proof.Machine

/-! ## Ports -/

/-- Take the command the host presents (30_encoding.md R70): the answer ports and the record of calls start
afresh. None where the host presents nothing. -/
def takeCommand (s : State) : Option (Command × State) :=
  match s.commands with
  | [] => none
  | c :: rest => some (c, { s with commands := rest, status := .ok, result := .none, trace := [] })

/-- The port with command `c` presented next, in place of what was (Step.lean's `withFetchWord`). -/
def presentNext (c : Command) (s : State) : State := { s with commands := c :: s.commands.drop 1 }

/-- Something crosses the block's boundary outwards. -/
def record (e : Event) (s : State) : State := { s with trace := s.trace ++ [e] }

/-- `return v` (00_scope.md R17): the command ends with status OK and result `v`. -/
def answer (r : Result) (s : State) : State := { s with status := .ok, result := r }

/-- `raise <Status>(info)` (00_scope.md R17, 60_exceptions.md R180): the command ends with that status and
its recorded value, and no result. The block has no trap of its own, so nothing else is saved or changed,
and there is nothing to return from. A command with no result that can end either way ends through it with
OK as well. -/
def raise (st : Status) (s : State) : State := { s with status := st, result := .none }

/-! ## Inputs (00_scope.md R12)

The next listed answer, or a free value where none is listed (log 2). -/

/-- Count one free value taken. -/
def countDraw (s : State) : State := { s with env := { s.env with drawn := s.env.drawn + 1 } }

/-- The next device answer. -/
def takeDevReply (s : State) : DevReply × State :=
  match s.env.devs with
  | [] => (Config.freeDevReply s.env.drawn, countDraw s)
  | r :: rest => (r, { s with env := { s.env with devs := rest } })

/-- The next occupancy of the host's audio queue. -/
def takeOccupancy (s : State) : Nat × State :=
  match s.env.occupancies with
  | [] => (Config.freeOccupancy s.env.drawn, countDraw s)
  | o :: rest => (o, { s with env := { s.env with occupancies := rest } })

/-- The next answer of `HOST.rom_file()`. -/
def takeRomFile (s : State) : RomFile × State :=
  match s.env.romFiles with
  | [] => (Config.freeRomFile s.env.drawn, countDraw s)
  | f :: rest => (f, { s with env := { s.env with romFiles := rest } })

/-- The next answer of `HOST.open_binary(ref)`. -/
def takeBinFile (s : State) : BinFile × State :=
  match s.env.binaries with
  | [] => (Config.freeBinFile s.env.drawn, countDraw s)
  | f :: rest => (f, { s with env := { s.env with binaries := rest } })

/-- The state with the CPU's remaining answers. -/
def withExecs (rest : List ExecReply) (s : State) : State := { s with env := { s.env with execs := rest } }

/-- The state with the blitter's remaining answers. -/
def withBlits (rest : List BlitReply) (s : State) : State := { s with env := { s.env with blits := rest } }

/-- The CPU's answers from here on: the listed ones, then free ones. -/
def execAnswers (s : State) : List ExecReply := s.env.execs ++ Config.freeExecs s.env.drawn

/-- The blitter's answers to a drain that starts here: the listed ones, then free ones. -/
def blitAnswers (s : State) : List BlitReply := s.env.blits ++ Config.freeBlits s.env.drawn

/-- The state after one of `execAnswers` is taken. -/
def takeExec (s : State) : State :=
  match s.env.execs with
  | [] => countDraw s
  | _ :: rest => withExecs rest s

/-- The state after one of `blitAnswers` is taken. -/
def takeBlit (s : State) : State :=
  match s.env.blits with
  | [] => countDraw s
  | _ :: rest => withBlits rest s

/-- The state with the CPU's cycle counter at `c` (00_scope.md R9). -/
def withClock (c : Nat) (s : State) : State := { s with env := { s.env with clock := c } }

/-- The operations of the CPU's next reset. -/
def takeResetOps (s : State) : List CpuOp × State :=
  match s.env.cpuResets with
  | [] => (Config.freeResetOps s.env.drawn, countDraw s)
  | ops :: rest => (ops, { s with env := { s.env with cpuResets := rest } })

/-! ## Interrupt priority encoder -/

/-- `recompute()` (41_irq_encoder.md R114): scan the table, set the level, push it if a CPU is attached. -/
def recompute (s : State) : State :=
  let l := aggregateLevel s.irqLines
  let s' := { s with ipl := l }
  if s.cfg.cpuAttached then record (.setIpl l) s' else s'

/-- The table with line `handle` pulled or released. -/
def setLine (lines : List IrqLine) (handle : Nat) (pulled : Bool) : List IrqLine :=
  lines.modify handle fun line => { line with asserted := pulled }

/-- Assert or deassert a line (41_irq_encoder.md R112, R113): the status, and the state after. -/
def driveLine (handle : Nat) (pulled : Bool) (s : State) : Status × State :=
  if handle < s.irqCount then
    (.ok, recompute { s with irqLines := setLine s.irqLines handle pulled })
  else (.eBadHandle handle, s)

/-! ## Video memory and ROM -/

/-- `s.vram[a]`; a byte nothing has written is a free value (10_state.md R24, U2, log 8). -/
def vramByte (s : State) (a : Addr) : Byte :=
  (s.vram.get? a.toNat).getD (Config.freeVramByte a.toNat)

/-- `s.vram[a] <- v`. -/
def writeVram (a : Addr) (v : Byte) (s : State) : State := { s with vram := s.vram.set a.toNat v }

/-- `s.rom[i]`; unspecified before the first LDROM (10_state.md R36, U1, log 9). -/
def romByte (s : State) (i : Nat) : Byte := (s.rom.get? i).getD (Config.freeRomByte i)

/-! ## Calls of devices -/

/-- The device a call reaches. -/
def DevCall.device : DevCall → Dev
  | .reset d => d
  | .run d _ => d
  | .ioRead d _ => d
  | .ioWrite d _ _ => d
  | .ctxRead _ => .blitter
  | .ctxWrite _ _ => .blitter
  | .notifyScreenRefresh => .blitter
  | .runNextOperation => .blitter
  | .clearRecordBuffer => .sound
  | .drainRecordBuffer => .sound

/-- Whether a device may assert (`pulled`) or deassert a line during a call: in a reset it only releases
its own line (10_state.md R37, U17); the record-buffer calls carry none (R185); any other call may
(log 14). -/
def DevCall.allowsIrq (pulled : Bool) : DevCall → Bool
  | .reset _ => !pulled
  | .clearRecordBuffer => false
  | .drainRecordBuffer => false
  | .run _ _ => true
  | .ioRead _ _ => true
  | .ioWrite _ _ _ => true
  | .ctxRead _ => true
  | .ctxWrite _ _ => true
  | .notifyScreenRefresh => true
  | .runNextOperation => true

/-- Whether a nested operation is one the contract of the call allows (00_scope.md R8): only the blitter
reaches video memory. -/
def DevCall.allows (call : DevCall) : DevOp → Bool
  | .irqAssert _ => call.allowsIrq true
  | .irqDeassert _ => call.allowsIrq false
  | .vramRead _ => call.device == .blitter
  | .vramWrite _ _ => call.device == .blitter

/-- One operation a device issues, with the answer it gets. -/
def devOp (s : State) : DevOp → State
  | .irqAssert h => let (st, s') := driveLine h true s; record (.reply st .none) s'
  | .irqDeassert h => let (st, s') := driveLine h false s; record (.reply st .none) s'
  | .vramRead a => record (.reply .ok (.word (zext32 (vramByte s a).toNat))) s
  | .vramWrite a v => record (.reply .ok .none) (writeVram a v s)

/-- The operations of a call that its contract allows, in order (00_scope.md R8). -/
def devOps (call : DevCall) (ops : List DevOp) (s : State) : State :=
  (ops.filter call.allows).foldl devOp s

/-- Call a device: its answer, and the state after the operations it nested in the call. -/
def callDevice (call : DevCall) (s : State) : DevReply × State :=
  let (r, s') := takeDevReply (record (.device call) s)
  (r, devOps call r.ops s')

/-- `DEV.run(n)` (00_scope.md R10). -/
def runDevice (d : Dev) (n : Nat) (s : State) : State := (callDevice (.run d n) s).2

/-! ## The bus -/

/-- `read8(a)` (40_bus.md R90). -/
def read8 (a : Addr) (s : State) : Byte × State :=
  match selectRead s.cfg a with
  | .vec i => (romByte s i, s)
  | .io d o => let (r, s') := callDevice (.ioRead d o) s; (r.value, s')
  | .ctx o => let (r, s') := callDevice (.ctxRead o) s; (r.value, s')
  | .romMirror i => (romByte s i, s)
  | .font f i low => (fontByte s.cfg f i low, s)
  | .vram b => (vramByte s b, s)
  | .drop => (0, s)

/-- `write8(a, v)` (40_bus.md R91). -/
def write8 (a : Addr) (v : Byte) (s : State) : State :=
  match selectWrite s.cfg a with
  | .io d o => (callDevice (.ioWrite d o v) s).2
  | .ctx o => (callDevice (.ctxWrite o v) s).2
  | .vram b => writeVram b v s
  | .drop => s
  | .vec _ => s
  | .romMirror _ => s
  | .font _ _ _ => s

/-- The word read (40_bus.md R93): the high byte, at the lower address, first. -/
def read16 (a : Addr) (s : State) : Half × State :=
  let (hi, s1) := read8 a s
  let (lo, s2) := read8 (nextAddress a) s1
  (hi ++ lo, s2)

/-- The word write (40_bus.md R95): the high byte, at the lower address, first. -/
def write16 (a : Addr) (v : Half) (s : State) : State :=
  write8 (nextAddress a) (lowByte v) (write8 a (highByte v) s)

/-- Bytes written in a row through the full write decode (40_bus.md R97). -/
def writeBytes : Addr → List Byte → State → State
  | _, [], s => s
  | a, b :: rest, s => writeBytes (nextAddress a) rest (write8 a b s)

/-! ## Calls of the CPU core -/

/-- One operation the CPU core issues, with the answer it gets; the address is masked (20_memory.md R40). -/
def cpuOp (s : State) : CpuOp → State
  | .rd8 a => let (v, s') := read8 (maskAddress a) s; record (.reply .ok (.word (zext32 v.toNat))) s'
  | .rd16 a => let (v, s') := read16 (maskAddress a) s; record (.reply .ok (.word (zext32 v.toNat))) s'
  | .wr8 a v => record (.reply .ok .none) (write8 (maskAddress a) v s)
  | .wr16 a v => record (.reply .ok .none) (write16 (maskAddress a) v s)
  | .irqGet => record (.reply .ok (.word (zext32 s.ipl))) s

/-- `CPU.execute()` with the operations it nests (00_scope.md R8, R9). -/
def cpuExecute (ops : List CpuOp) (s : State) : State := ops.foldl cpuOp (record .cpuExecute s)

/-- Whether an operation is a read of the reset vectors, addresses 0..7 (70_reset_and_hazards.md R201). -/
def readsVectors : CpuOp → Bool
  | .rd8 a => decide ((maskAddress a).toNat < 8)
  | .rd16 a => decide ((maskAddress a).toNat < 7)
  | .wr8 _ _ => false
  | .wr16 _ _ => false
  | .irqGet => false

/-- `CPU.reset()`: it sets the core's cycle counter to 0 (00_scope.md R9), and the core may read its reset
vectors through the bus (70_reset_and_hazards.md R201, log 14). -/
def cpuReset (s : State) : State :=
  let (ops, s') := takeResetOps (record .cpuReset (withClock 0 s))
  (ops.filter readsVectors).foldl cpuOp s'

/-! ## The ROM image -/

/-- LDROM's work (40_bus.md R96), also a step of RESET: the status, and the state after. -/
def loadRom (s : State) : Status × State :=
  match takeRomFile (record .romFile s) with
  | (.file b, s') =>
    if romSize ≤ b.length then (.ok, { s' with rom := Memory.ofBytes (b.take romSize) })
    else (.wRomFallback, { s' with rom := Memory.ofBytes s'.cfg.defaultRom })
  | (.missing, s') => (.wRomFallback, { s' with rom := Memory.ofBytes s'.cfg.defaultRom })
  | (.notConfigured, s') => (.ok, { s' with rom := Memory.ofBytes s'.cfg.defaultRom })

/-! ## The frequency divider -/

/-- The quotient as a 64-bit output (00_scope.md R15); one that does not fit is a free value (log 13). -/
def dividerOutput (q : Nat) : Quad :=
  if q < 2 ^ 64 then BitVec.ofNat 64 q else Config.freeDividerOutput q

/-- `clock(n, pct)` (42_freq_divider.md R131): the output, and the state with the new remainder. -/
def clock (n pct : Nat) (s : State) : Quad × State :=
  let acc := n * pct * s.cfg.soundHz + s.divRem
  (dividerOutput (acc / (100 * s.cfg.cpuHz)), { s with divRem := acc % (100 * s.cfg.cpuHz) })

end Sys2Proof.Machine
end

