-- ==== Sys2Proof/Machine/Bus.lean ====
section
/-! DEFINITION. The meanings of the BUS unit (40_bus.md). -/

namespace Sys2Proof.Machine

/-- RD8 (R92). -/
def execRd8 (a : Addr) (s : State) : Host.Outcome State Fault Refusal :=
  let (v, s') := read8 a s
  .next (answer (.word (zext32 v.toNat)) s')

/-- RD16 (R93). -/
def execRd16 (a : Addr) (s : State) : Host.Outcome State Fault Refusal :=
  let (v, s') := read16 a s
  .next (answer (.word (zext32 v.toNat)) s')

/-- WR8 (R94). -/
def execWr8 (a : Addr) (v : Byte) (s : State) : Host.Outcome State Fault Refusal :=
  .next (answer .none (write8 a v s))

/-- WR16 (R95). -/
def execWr16 (a : Addr) (v : Half) (s : State) : Host.Outcome State Fault Refusal :=
  .next (answer .none (write16 a v s))

/-- LDROM (R96). W_ROM_FALLBACK is a status of a load that completed. -/
def execLdrom (s : State) : Host.Outcome State Fault Refusal :=
  let (st, s') := loadRom s
  .next (raise st s')

/-- The two bounds slots (R97, 20_memory.md R55), the start slot first: the file's start address, and the
address after its last data byte modulo 2^16. -/
def writeSlots (start : Half) (dataLength : Nat) (s : State) : State :=
  write16 s.cfg.loadEndSlot (start + BitVec.ofNat 16 dataLength) (write16 s.cfg.loadStartSlot start s)

/-- A binary file of at least two bytes, inserted (R97). -/
def insertBinary (b0 b1 : Byte) (data : List Byte) (s : State) : State :=
  let start : Half := b0 ++ b1
  writeSlots start data.length (writeBytes (start.setWidth 24) data s)

/-- INSBIN (R97). -/
def execInsbin (fileref : Word) (s : State) : Host.Outcome State Fault Refusal :=
  let (f, s') := takeBinFile (record (.openBinary fileref) s)
  .next (match f with
    | .cannotOpen => raise (.eBinOpen fileref) s'
    | .file (b0 :: b1 :: data) => answer .none (insertBinary b0 b1 data s')
    | .file b => raise (.eBinShort b.length) s')

end Sys2Proof.Machine
end

