-- ==== Sys2Proof/Machine/Divider.lean ====
section
/-! DEFINITION. The meaning of the FDIV unit (42_freq_divider.md). -/

namespace Sys2Proof.Machine

/-- FDCLK (R131). -/
def execFdclk (pct n : Nat) (s : State) : Host.Outcome State Fault Refusal :=
  let (out, s') := clock n pct s
  .next (answer (.cycles out) s')

end Sys2Proof.Machine
end

