-- ==== Sys2Proof/Machine/Irq.lean ====
section
/-! DEFINITION. The meanings of the IRQ unit (41_irq_encoder.md). -/

namespace Sys2Proof.Machine

/-- IRQREG (R111): the result is the handle, the number of lines registered before. -/
def execIrqreg (level : Nat) (s : State) : Host.Outcome State Fault Refusal :=
  .next (if s.irqCount = irqCapacity then raise (.eIrqFull level) s
    else answer (.word (zext32 s.irqCount))
      { s with irqLines := s.irqLines ++ [{ level := level, asserted := false }] })

/-- IRQASR (R112). -/
def execIrqasr (handle : Nat) (s : State) : Host.Outcome State Fault Refusal :=
  let (st, s') := driveLine handle true s
  .next (raise st s')

/-- IRQDEA (R113). -/
def execIrqdea (handle : Nat) (s : State) : Host.Outcome State Fault Refusal :=
  let (st, s') := driveLine handle false s
  .next (raise st s')

/-- IRQRCP (R114). -/
def execIrqrcp (s : State) : Host.Outcome State Fault Refusal :=
  .next (answer .none (recompute s))

/-- IRQGET (R115). -/
def execIrqget (s : State) : Host.Outcome State Fault Refusal :=
  .next (answer (.word (zext32 s.ipl)) s)

end Sys2Proof.Machine
end

