-- ==== Sys2Proof/Machine/Reset.lean ====
section
/-! DEFINITION. The meaning of RESET (70_reset_and_hazards.md R200). -/

namespace Sys2Proof.Machine

/-- The fields RESET zeroes before it reloads the ROM (R200, 90_conflicts.md C4). -/
def clearScheduler (s : State) : State :=
  { s with
    cpuBalance := 0
    frameBalance := 0
    frameDone := false
    underrun := 0
    equalrun := 0
    overrun := 0
    lapUnder := 0
    lapEqual := 0
    lapOver := 0 }

/-- `DEV.reset()`. -/
def resetDevice (d : Dev) (s : State) : State := (callDevice (.reset d) s).2

/-- The devices in the order of R200, then the CPU core. -/
def resetAgents (s : State) : State :=
  cpuReset (resetDevice .cia (resetDevice .timer (resetDevice .blitter (resetDevice .sound s))))

/-- RESET (R200): OK, or W_ROM_FALLBACK if the load fell back (60_exceptions.md R182). -/
def execReset (s : State) : Host.Outcome State Fault Refusal :=
  let (st, s') := loadRom (clearScheduler s)
  .next (raise st (resetAgents s'))

end Sys2Proof.Machine
end

