-- ==== Sys2Proof/Machine/Scheduler.lean ====
section
/-! DEFINITION. The meanings of the SCHED unit but RESET (43_scheduler.md). -/

namespace Sys2Proof.Machine

/-! ## The audio step (R142) -/

/-- `HOST.audio_queue_bytes()`. -/
def sampleOccupancy (s : State) : Nat × State := takeOccupancy (record .audioQueueBytes s)

/-- The band the next occupancy sample gives. -/
def nextBand (s : State) : Band := classify s.cfg.audioTarget (takeOccupancy s).1

/-- Count the band: even the skip case counts as an overrun. RUN and PRUN stop before the sum of R142 would
wrap (10_state.md R38, log 6). -/
def countBand (band : Band) (s : State) : State :=
  match band with
  | .under => { s with underrun := s.underrun + 1 }
  | .equal => { s with equalrun := s.equalrun + 1 }
  | .over => { s with overrun := s.overrun + 1 }
  | .overSkip => { s with overrun := s.overrun + 1 }

/-- `SOUND.run(clock(c, pct))`. -/
def soundRun (c pct : Nat) (s : State) : State :=
  let (out, s') := clock c pct s
  runDevice .sound out.toNat s'

/-- `HOST.record_write(SOUND.drain_record_buffer())`. -/
def drainRecord (s : State) : State :=
  let (r, s') := callDevice .drainRecordBuffer s
  record (.recordWrite r.samples) s'

/-- Drive the sound device at the rate of the band, or at 1.00x with every sample drained while recording. -/
def driveSound (c : Nat) (band : Band) (s : State) : State :=
  match soundPercent s.recording band with
  | none => s
  | some pct => if s.recording then drainRecord (soundRun c pct s) else soundRun c pct s

/-- The second occupancy sample and the audio-start request. -/
def startTest (s : State) : State :=
  let (occ, s') := sampleOccupancy s
  if audioStarts s'.cfg.audioTarget occ then record .startAudio s' else s'

/-- `audio_step(c, drive_sound)`. -/
def audioStep (c : Nat) (drive : Bool) (s : State) : State :=
  let (occ, s1) := sampleOccupancy s
  let band := classify s1.cfg.audioTarget occ
  let s2 := countBand band s1
  startTest (if drive then driveSound c band s2 else s2)

/-! ## The frame step (R143) -/

/-- Drain the blitter's queue by its answers: call `run_next_operation()` until it answers false. -/
def drainBlitter : List BlitReply → State → State
  | [], s => s
  | .ran ops more :: rest, s =>
    let s1 := devOps .runNextOperation ops (takeBlit (record (.device .runNextOperation) s))
    if more then drainBlitter rest s1 else s1
  | .endless :: _, s => s

/-- Whether the drain never ends (U8, R210): no answer false before the end of the answers. -/
def drainHangs : List BlitReply → Bool
  | [] => true
  | .ran _ more :: rest => more && drainHangs rest
  | .endless :: _ => true

/-- The frame boundary of R143: mark, notify, carry the remainder, drain. -/
def frameBoundary (drive : Bool) (s : State) : State :=
  let s1 := { s with frameDone := true }
  let s2 := if drive then (callDevice .notifyScreenRefresh s1).2 else s1
  let s3 := { s2 with frameBalance := s2.frameBalance - s2.cfg.frameBudget }
  if drive then drainBlitter (blitAnswers s) s3 else s3

/-- `frame_step(c, drive_blitter)`: at most one boundary a step (90_conflicts.md C3). -/
def frameStep (c : Nat) (drive : Bool) (s : State) : State :=
  let s1 := { s with frameBalance := s.frameBalance + c }
  if frameExceeded s1.cfg.frameBudget s1.frameBalance then frameBoundary drive s1 else s1

/-! ## RUN (R144) -/

/-- How the loop of RUN ended: the cycles consumed, whether a breakpoint was reached, and the state. -/
structure LoopEnd where
  consumed : Nat
  breakpoint : Bool
  state : State
  deriving DecidableEq, Repr

/-- One loop body: an instruction, then CIA and timer for its cycles (R144, D24). -/
def loopBody (ops : List CpuOp) (d : Nat) (s : State) : State :=
  runDevice .timer d (runDevice .cia d (withClock (s.env.clock + d) (cpuExecute ops s)))

/-- From here on the CPU's clock stands still (U7, R210): the loop ends after one more body where the
consumed cycles have reached the balance, and not at all otherwise. -/
def stalledLoop (bal : Int) (consumed : Nat) (s : State) : Except Fault LoopEnd :=
  if bal ≤ consumed then
    .ok { consumed := consumed, breakpoint := false, state := loopBody [] 0 (takeExec s) }
  else .error .runStuck

/-- Step 2 of RUN by the CPU's answers: repeat the loop body until a breakpoint is reached or the consumed
cycles reach the balance `bal`. `frame` is the frame balance, which the loop does not touch: a total that
would take a balance or the CPU's clock out of its range is outside the admitted runs (U14). Past the
end of the answers the clock stands still (log 4). -/
def runLoop (bal frame : Int) : List ExecReply → Nat → State → Except Fault LoopEnd
  | [], consumed, s => stalledLoop bal consumed s
  | .stalled :: _, consumed, s => stalledLoop bal consumed s
  | .ran ops delta breakpoint :: rest, consumed, s =>
    let total := consumed + delta.toNat
    let s1 := loopBody ops delta.toNat (takeExec s)
    if clockMax < s.env.clock + delta.toNat then .error .clockOverflow
    else if balanceMax < frame + total then .error .balanceOverflow
    else if breakpoint then .ok { consumed := total, breakpoint := true, state := s1 }
    else if bal - total < balanceMin then .error .balanceOverflow
    else if bal ≤ total then .ok { consumed := total, breakpoint := false, state := s1 }
    else runLoop bal frame rest total s1

/-- Step 3 of RUN: settle the balance, or flush it at a breakpoint and force PAUSED. -/
def settleRun (bal : Int) (e : LoopEnd) : State :=
  if e.breakpoint then record .clearBreakpoint { e.state with cpuBalance := 0, mode := .paused }
  else { e.state with cpuBalance := bal - e.consumed }

/-- Steps 3 to 5 of RUN. -/
def retimeRun (bal : Int) (e : LoopEnd) : State := audioStep e.consumed true (settleRun bal e)

/-- Steps 3 to 7 of RUN. -/
def finishRun (bal : Int) (e : LoopEnd) : State :=
  answer (.run (if e.breakpoint then .breakpointHit else .stepped))
    (frameStep e.consumed true (retimeRun bal e))

/-- Whether the frame step of a RUN never ends: a boundary with a drain that hangs (R210). -/
def frameHangs (c : Nat) (s : State) : Bool :=
  frameExceeded s.cfg.frameBudget (s.frameBalance + c) && drainHangs (blitAnswers s)

/-- RUN (R144). Not ending is a fault (R210), and so is leaving the range of a balance, of the CPU's clock
or of a tally (U14). No agent touches a tally, so the one the band raises is still that of `s`. -/
def execRun (n : Nat) (s : State) : Host.Outcome State Fault Refusal :=
  let bal := s.cpuBalance + n
  if balanceMax < bal then .fault .balanceOverflow
  else match runLoop bal s.frameBalance (execAnswers s) 0 { s with cpuBalance := bal } with
    | .error f => .fault f
    | .ok e =>
      if countOverflows (nextBand (settleRun bal e)) s then .fault .tallyOverflow
      else if frameHangs e.consumed (retimeRun bal e) then .fault .drainStuck
      else .next (finishRun bal e)

/-! ## The other scheduler commands -/

/-- PRUN (R145). Leaving the range of the frame balance or of a tally is a fault (U14), as in RUN. -/
def execPrun (n : Nat) (s : State) : Host.Outcome State Fault Refusal :=
  let s1 := runDevice .timer n (runDevice .cia n s)
  if balanceMax < s.frameBalance + n then .fault .balanceOverflow
  else if countOverflows (nextBand s1) s then .fault .tallyOverflow
  else .next (answer (.run .stepped) (frameStep n false (audioStep n false s1)))

/-- TOGMODE (R146). -/
def execTogmode (s : State) : Host.Outcome State Fault Refusal :=
  .next (answer .none { s with mode := match s.mode with | .running => .paused | .paused => .running })

/-- TOGREC (R147). -/
def execTogrec (s : State) : Host.Outcome State Fault Refusal :=
  .next (answer .none
    (if s.recording then { record .recordClose s with recording := false }
    else { record .recordOpen (callDevice .clearRecordBuffer s).2 with recording := true }))

/-- HEALTH (R148). -/
def execHealth (s : State) : Host.Outcome State Fault Refusal :=
  .next (answer (.bool (healthy s))
    { s with lapUnder := s.underrun, lapEqual := s.equalrun, lapOver := s.overrun })

/-- TAKEFRAME (R149). -/
def execTakeframe (s : State) : Host.Outcome State Fault Refusal :=
  .next (answer (.bool s.frameDone) { s with frameDone := false })

/-- STATS (R150). -/
def execStats (s : State) : Host.Outcome State Fault Refusal :=
  .next (answer (.stats s.mode s.recording s.underrun s.equalrun s.overrun) s)

end Sys2Proof.Machine
end

