-- ==== Sys2Proof/Machine/Dispatch.lean ====
section
/-! DEFINITION. The dispatch of a command to its meaning, one arm per constructor of Instr. -/

namespace Sys2Proof.Machine

/-- Perform one decoded command. -/
def exec (i : Instr) (s : State) : Host.Outcome State Fault Refusal :=
  match i with
  | .rd8 a => Sys2Proof.Machine.execRd8 a s
  | .rd16 a => Sys2Proof.Machine.execRd16 a s
  | .wr8 a v => Sys2Proof.Machine.execWr8 a v s
  | .wr16 a v => Sys2Proof.Machine.execWr16 a v s
  | .ldrom => Sys2Proof.Machine.execLdrom s
  | .insbin fileref => Sys2Proof.Machine.execInsbin fileref s
  | .irqreg level => Sys2Proof.Machine.execIrqreg level s
  | .irqasr handle => Sys2Proof.Machine.execIrqasr handle s
  | .irqdea handle => Sys2Proof.Machine.execIrqdea handle s
  | .irqrcp => Sys2Proof.Machine.execIrqrcp s
  | .irqget => Sys2Proof.Machine.execIrqget s
  | .fdclk pct n => Sys2Proof.Machine.execFdclk pct n s
  | .run n => Sys2Proof.Machine.execRun n s
  | .prun n => Sys2Proof.Machine.execPrun n s
  | .reset => Sys2Proof.Machine.execReset s
  | .togmode => Sys2Proof.Machine.execTogmode s
  | .togrec => Sys2Proof.Machine.execTogrec s
  | .health => Sys2Proof.Machine.execHealth s
  | .takeframe => Sys2Proof.Machine.execTakeframe s
  | .stats => Sys2Proof.Machine.execStats s

end Sys2Proof.Machine
end

