-- ==== Sys2Proof/Machine/Step.lean ====
section
/-! DEFINITION. One step of the block: the command the host presents next, performed to completion
(00_scope.md R6); a reserved command is answered with E_ENC (30_encoding.md R74). -/

namespace Sys2Proof.Machine

/-- One command. Where the host presents none, nothing happens (log 11). -/
def step (s : State) : Host.Outcome State Fault Refusal :=
  match takeCommand s with
  | none => .next s
  | some (c, s') =>
    match decode c with
    | .ok i => exec i s'
    | .error _ => .next (raise (.eEnc c.cw c.d) s')

/-- The state with the command of bits `w` presented next. -/
def State.withFetchWord (s : State) (nbits w : Nat) : State := presentNext (commandOfBits nbits w) s

end Sys2Proof.Machine
end

