-- ==== Sys2Proof/Safety.lean ====
section
/-! DEFINITION. The terms the claims use: the invariant of the block (10_state.md R38), what nested
operations of external agents cannot change, what a read of memory gives, runs of several commands, and
the cycles a trace ran a device for. -/

namespace Sys2Proof.Machine

/-- The invariant of R38 with the ranges of R9, R15, R20 and R25 and the canonical form of the memories. -/
structure State.Inv (s : State) : Prop where
  cfg_wf : s.cfg.wf
  rom_wf : s.rom.wf
  rom_below : s.rom.below romSize
  vram_wf : s.vram.wf
  vram_below : s.vram.below addressSize
  count_le : s.irqCount ≤ irqCapacity
  level_lt : ∀ line ∈ s.irqLines, line.level < 8
  ipl_eq : s.ipl = aggregateLevel s.irqLines
  cpu_ge : balanceMin ≤ s.cpuBalance
  cpu_le : s.cpuBalance ≤ balanceMax
  frame_ge : 0 ≤ s.frameBalance
  frame_le : s.frameBalance ≤ balanceMax
  under_ge : s.lapUnder ≤ s.underrun
  equal_ge : s.lapEqual ≤ s.equalrun
  over_ge : s.lapOver ≤ s.overrun
  rem_lt : s.divRem < 100 * s.cfg.cpuHz
  clock_le : s.env.clock ≤ clockMax

/-- What the operations external agents nest in a call cannot change: everything but video memory, the
pulled lines and the level they give, the record of calls and the inputs (00_scope.md R8). Two states
with the same `own` part differ in those alone. -/
def State.own (s : State) : State :=
  { s with
    vram := ⟨[]⟩
    irqLines := s.irqLines.map fun line => { line with asserted := false }
    ipl := 0
    trace := []
    env := Env.empty }

/-- The block's state of R20 with its configuration: everything but the ports, the record of calls and the
inputs. -/
def State.block (s : State) : State :=
  { s with commands := [], status := .ok, result := .none, trace := [], env := Env.empty }

/-- The levels of the registered lines, by handle (R25). -/
def State.levels (s : State) : List Nat := s.irqLines.map IrqLine.level

/-- Whether line `h` is registered and pulled. -/
def State.pulled (s : State) (h : Nat) : Bool :=
  match s.irqLines[h]? with
  | some line => line.asserted
  | none => false

/-- Whether a target is a device: what the others do has no side effect but a write's own byte
(20_memory.md R52). -/
def Target.isDevice : Target → Bool
  | .io _ _ => true
  | .ctx _ => true
  | .vec _ => false
  | .romMirror _ => false
  | .font _ _ _ => false
  | .vram _ => false
  | .drop => false

/-- Whether a byte read at `a`, or a byte write at `a`, reaches a device. -/
def readsDevice (s : State) (a : Addr) : Bool := (selectRead s.cfg a).isDevice
def writesDevice (s : State) (a : Addr) : Bool := (selectWrite s.cfg a).isDevice

/-- The call a byte read at `a` makes, if any (40_bus.md R90). -/
def readCall (c : Config) (a : Addr) : Option DevCall :=
  match selectRead c a with
  | .io d o => some (.ioRead d o)
  | .ctx o => some (.ctxRead o)
  | _ => none

/-- The call a byte write of `v` at `a` makes, if any (40_bus.md R91). -/
def writeCall (c : Config) (a : Addr) (v : Byte) : Option DevCall :=
  match selectWrite c a with
  | .io d o => some (.ioWrite d o v)
  | .ctx o => some (.ctxWrite o v)
  | _ => none

/-- The command whose operation the CPU nests (00_scope.md R8), at the masked address (20_memory.md R40). -/
def commandOf : CpuOp → Instr
  | .rd8 a => .rd8 (maskAddress a)
  | .rd16 a => .rd16 (maskAddress a)
  | .wr8 a v => .wr8 (maskAddress a) v
  | .wr16 a v => .wr16 (maskAddress a) v
  | .irqGet => .irqget

/-- The byte a read at `a` gives where no device is reached (20_memory.md R45). -/
def memoryByte (s : State) (a : Addr) : Byte :=
  match selectRead s.cfg a with
  | .vec i => romByte s i
  | .romMirror i => romByte s i
  | .font f i low => fontByte s.cfg f i low
  | .vram b => vramByte s b
  | .io _ _ => 0
  | .ctx _ => 0
  | .drop => 0

/-- `t` is `s` after a device asserted (`pulled`) or deasserted line `h` (41_irq_encoder.md R112, R113, R114) and
was answered. -/
def lineDriven (h : Nat) (pulled : Bool) (s t : State) : Prop :=
  if h < s.irqLines.length then
    let lines := s.irqLines.modify h fun line => { line with asserted := pulled }
    t = { s with
      irqLines := lines
      ipl := aggregateLevel lines
      trace := s.trace ++ (if s.cfg.cpuAttached then [.setIpl (aggregateLevel lines)] else []) ++
        [.reply .ok .none] }
  else t = { s with trace := s.trace ++ [.reply (.eBadHandle h) .none] }

/-- `t` is `s` after one operation a device issued inside a call (00_scope.md R8): a line driven, or, by the
blitter, a byte of video memory read or written (10_state.md R24, 20_memory.md R61). -/
def opDone : DevOp → State → State → Prop
  | .irqAssert h, s, t => lineDriven h true s t
  | .irqDeassert h, s, t => lineDriven h false s t
  | .vramRead a, s, t =>
    t = { s with trace := s.trace ++ [.reply .ok (.word (BitVec.ofNat 32 (vramByte s a).toNat))] }
  | .vramWrite a v, s, t =>
    (∀ x, vramByte t x = if x = a then v else vramByte s x) ∧
    { t with vram := s.vram } = { s with trace := s.trace ++ [.reply .ok .none] }

/-- `t` is `s` after these operations, each run to completion before the next (R8). -/
def opsDone : List DevOp → State → State → Prop
  | [], s, t => t = s
  | op :: rest, s, t => ∃ u, opDone op s u ∧ opsDone rest u t

/-- The answer to a read of the reset vectors, addresses 0 to 7 (70_reset_and_hazards.md R201, 20_memory.md R54):
bytes of the ROM image, the high byte of a word first. None for any other operation. -/
def vectorAnswer (s : State) : CpuOp → Option Event
  | .rd8 a =>
    let i := a.toNat % 16777216
    if i < 8 then some (.reply .ok (.word (BitVec.ofNat 32 (romByte s i).toNat))) else none
  | .rd16 a =>
    let i := a.toNat % 16777216
    if i < 7 then
      some (.reply .ok (.word (BitVec.ofNat 32 (256 * (romByte s i).toNat + (romByte s (i + 1)).toNat))))
    else none
  | .wr8 _ _ => none
  | .wr16 _ _ => none
  | .irqGet => none

/-- The image LDROM loads from the host's answer (40_bus.md R96), 65,536 bytes of it. -/
def loadedImage (c : Config) : RomFile → List Byte
  | .file b => if 65536 ≤ b.length then b else c.defaultRom
  | .missing => c.defaultRom
  | .notConfigured => c.defaultRom

/-- The next `n` device answers are listed and nest no operation. -/
def quietReplies (n : Nat) (s : State) : Bool :=
  decide (n ≤ s.env.devs.length) && (s.env.devs.take n).all fun r => r.ops.isEmpty

/-- The command that pulls (`true`) or releases (`false`) a line. -/
def driveCommand (d : Nat × Bool) : Instr := if d.2 then .irqasr d.1 else .irqdea d.1

/-- Whether line `h` is pulled after such commands, where `before` says whether it was. -/
def pulledAfter (h : Nat) (before : Bool) (drives : List (Nat × Bool)) : Bool :=
  drives.foldl (fun pulled d => if d.1 = h then d.2 else pulled) before

/-- Commands performed one after the other; none where one of them stops. -/
def execAll : List Instr → State → Option State
  | [], s => some s
  | i :: rest, s =>
    match exec i s with
    | .next s' => execAll rest s'
    | .fault _ => none
    | .refused _ => none

/-- FDCLK commands performed one after the other, with the sum of the outputs on the result port. -/
def fdclkAll : List (Nat × Nat) → State → Option (Nat × State)
  | [], s => some (0, s)
  | (n, pct) :: rest, s =>
    match exec (.fdclk pct n) s with
    | .next s' =>
      match s'.result, fdclkAll rest s' with
      | .cycles out, some (total, t) => some (out.toNat + total, t)
      | _, _ => none
    | .fault _ => none
    | .refused _ => none

/-- The cycles one entry of a trace ran device `d` for. -/
def Event.ranCycles (d : Dev) : Event → Nat
  | .device (.run d' n) => if d' = d then n else 0
  | _ => 0

/-- The cycles a trace ran device `d` for. -/
def ranCycles (d : Dev) (trace : List Event) : Nat := (trace.map (Event.ranCycles d)).sum

/-- The cycles the CIA was run for in the trace. -/
def ciaCycles (s : State) : Nat := ranCycles .cia s.trace

/-- The cycles the timer was run for in the trace. -/
def timerCycles (s : State) : Nat := ranCycles .timer s.trace

/-- The cycles the sound device was run for in the trace. -/
def soundCycles (s : State) : Nat := ranCycles .sound s.trace

/-- RUN commands performed one after the other, with the cycles consumed (those the CIA was run for) and the
cycles flushed at breakpoints (43_scheduler.md R151). -/
def runAll : List Nat → State → Option (Int × Int × State)
  | [], s => some (0, 0, s)
  | n :: rest, s =>
    match exec (.run n) s with
    | .next s' =>
      let used : Int := (ciaCycles s' : Int) - ciaCycles s
      let flushed : Int := if s'.result = .run .breakpointHit then s.cpuBalance + n - used else 0
      match runAll rest s' with
      | some (c, f, t) => some (used + c, flushed + f, t)
      | none => none
    | .fault _ => none
    | .refused _ => none

/-- Scheduler steps performed one after the other, TAKEFRAME after each: the cycles each ran the CIA for, how
many TAKEFRAMEs answered true, and the state after (43_scheduler.md R149, R152). -/
def framesAll : List Instr → State → Option (List Nat × Nat × State)
  | [], s => some ([], 0, s)
  | i :: rest, s =>
    match exec i s with
    | .next s' =>
      match exec .takeframe s' with
      | .next s2 =>
        match framesAll rest s2 with
        | some (cs, b, t) =>
          some ((ciaCycles s' - ciaCycles s) :: cs, (if s2.result = .bool true then b + 1 else b), t)
        | none => none
      | .fault _ => none
      | .refused _ => none
    | .fault _ => none
    | .refused _ => none

/-- Whether the blitter's listed answers say that the drain never ends: `endless` before an answer false. -/
def namesEndless : List BlitReply → Bool
  | [] => false
  | .ran _ more :: rest => more && namesEndless rest
  | .endless :: _ => true

/-- An instruction a CPU script lists: its operations, its cycles and the breakpoint flag after it. -/
structure ScriptedInstr where
  ops : List CpuOp
  delta : Quad
  breakpoint : Bool
  deriving DecidableEq, Repr

/-- The script as answers to the loop bodies of RUN. -/
def ScriptedInstr.reply (i : ScriptedInstr) : ExecReply := .ran i.ops i.delta i.breakpoint

/-- The cycles of a script. -/
def scriptCycles (l : List ScriptedInstr) : Nat := (l.map fun i => i.delta.toNat).sum

/-- The calls of the loop bodies of a script (43_scheduler.md R154). -/
def scriptCalls (l : List ScriptedInstr) : List Event :=
  l.flatMap fun i =>
    [.cpuExecute, .device (.run .cia i.delta.toNat), .device (.run .timer i.delta.toNat)]

/-- The tally an audio step raises whose first occupancy sample is `occ` (43_scheduler.md R141, R142). -/
def State.tallyFor (s : State) (occ : Nat) : Quad :=
  if 100 * occ < 50 * s.cfg.audioTarget then s.underrun
  else if 100 * occ < 120 * s.cfg.audioTarget then s.equalrun
  else s.overrun

/-- Whether the tally the next audio step raises is below its last value: that of the listed occupancy, all three
where none is listed (00_scope.md R15, 93_implementation_defined.md U14). -/
def State.tallyHasRoom (s : State) : Bool :=
  match s.env.occupancies with
  | occ :: _ => s.tallyFor occ != tallyMax
  | [] => s.underrun != tallyMax && s.equalrun != tallyMax && s.overrun != tallyMax

/-- The tally a band raises, as increments of underrun, equalrun and overrun (43_scheduler.md R142). -/
def Band.increments : Band → Quad × Quad × Quad
  | .under => (1, 0, 0)
  | .equal => (0, 1, 0)
  | .over => (0, 0, 1)
  | .overSkip => (0, 0, 1)

end Sys2Proof.Machine
end

