-- ==== Sys2Proof/Certificates/Slice0/Obligations.lean ====
section
/-! DEFINITION. What is claimed of the block, one proposition each, with the rule of spec/ it formalises. -/

open Sys2Proof Sys2Proof.Machine

/-! ## Encoding (30_encoding.md) -/

/-- R74: decoding is total, at most one row of the opcode map matches a word, a command that matches none, or
whose data operand is too wide, is answered with E_ENC and nothing else. -/
def Obligations.CommandWordsDecodeToTheirRowOrAnswerEEnc : Prop :=
  (∀ r ∈ opcodeTable, ∀ r' ∈ opcodeTable, ∀ cw : Word,
    cw &&& r.mask = r.pattern → cw &&& r'.mask = r'.pattern → r = r') ∧
  (∀ c i, decode c = .ok i → i.row ∈ opcodeTable ∧ c.cw &&& i.row.mask = i.row.pattern ∧
    (i.row.mnemonic = "WR8" → c.d.toNat < 256) ∧ (i.row.mnemonic = "WR16" → c.d.toNat < 65536)) ∧
  (∀ c, ∀ r ∈ opcodeTable, c.cw &&& r.mask = r.pattern → (r.mnemonic = "WR8" → c.d.toNat < 256) →
    (r.mnemonic = "WR16" → c.d.toNat < 65536) → ∃ i, decode c = .ok i ∧ i.row = r) ∧
  (∀ s c rest, s.commands = c :: rest → (∀ i, decode c ≠ .ok i) → ∃ t, step s = .next t ∧
    t.status = .eEnc c.cw c.d ∧ t.result = .none ∧ t.trace = [] ∧ t.commands = rest ∧
    t.env = s.env ∧ t.block = s.block)

/-- Decode and encode agree: every well-formed command is read back from its words with every operand. -/
def Obligations.DecodingAnEncodedCommandGivesItBack : Prop :=
  ∀ i : Instr, i.wf = true → decode (encode i) = .ok i

/-- Each accepted word has one meaning: a decoded command is well formed, and its encoding is the word it was
read from, with the data operand where the command reads one. (The encoder writes 0 where it reads none: the model's
choice, log 15.) -/
def Obligations.EncodingADecodedCommandGivesItsWords : Prop :=
  ∀ c i, decode c = .ok i →
    i.wf = true ∧ (encode i).cw = c.cw ∧ (i.readsData = true → (encode i).d = c.d) ∧
    (i.readsData = false → (encode i).d = 0)

/-- Words written out from R73 and R79, one of every unit, decode to the commands they stand for. -/
def Obligations.SampleWordsOfEveryUnitDecode : Prop :=
  decode ⟨0x13001000#32, 0x0000BEEF#32⟩ = .ok (.wr16 0x001000#24 0xBEEF#16) ∧
  decode ⟨0x10FF0010#32, 0#32⟩ = .ok (.rd8 0xFF0010#24) ∧
  decode ⟨0x20000005#32, 0#32⟩ = .ok (.irqreg 5) ∧
  decode ⟨0x30000069#32, 0x000003E8#32⟩ = .ok (.fdclk 105 1000) ∧
  decode ⟨0x40000000#32, 0x00000032#32⟩ = .ok (.run 50)

/-! ## The step (00_scope.md R6) -/

/-- A step performs the command the host presents, with the answer ports and the record of calls afresh; where the
host presents none it changes nothing, which is the model's choice (log 11). -/
def Obligations.StepPerformsTheDecodedCommand : Prop :=
  (∀ s c rest i, s.commands = c :: rest → decode c = .ok i →
    step s = exec i { s with commands := rest, status := .ok, result := .none, trace := [] }) ∧
  (∀ s : State, s.commands = [] → step s = .next s)

/-- A well-formed command put on the port by its words is performed. -/
def Obligations.EncodedCommandsArePerformed : Prop :=
  ∀ s i rest, i.wf = true → s.commands = encode i :: rest →
    step s = exec i { s with commands := rest, status := .ok, result := .none, trace := [] }

/-- R180: no command is refused, and none stops the machine but RUN and PRUN (the model's named faults, log 5,
log 6 and log 7). -/
def Obligations.OnlyRunAndPrunCanStop : Prop :=
  ∀ s, (∀ r, step s ≠ .refused r) ∧
    (∀ f, step s = .fault f → ∃ c rest n, s.commands = c :: rest ∧
      (decode c = .ok (.run n) ∨ decode c = .ok (.prun n)))

/-- R180: a status other than OK and W_ROM_FALLBACK means that no state changed, and that no external agent was
called but the host for the binary file that then failed the check. -/
def Obligations.FailedCommandsChangeNothing : Prop :=
  ∀ s t, s.commands ≠ [] → step s = .next t → t.status.performed = false →
    t.block = s.block ∧ t.result = .none ∧ t.env.devs = s.env.devs ∧
    (∀ e ∈ t.trace, ∃ fileref, e = .openBinary fileref)

/-! ## The bus (20_memory.md, 40_bus.md) -/

/-- R43: device select for a byte read, first match wins. -/
def Obligations.ReadDecodeFollowsItsPrecedence : Prop :=
  ∀ (c : Config) (a : Addr), selectRead c a =
    if a.toNat < 8 then .vec a.toNat
    else if a.toNat / 4096 = c.ioBase.toNat / 4096 then
      match c.subpageMap.getD (a.toNat / 256 % 16) .unmapped with
      | .blitIo => .io .blitter (BitVec.ofNat 10 (a.toNat % 256))
      | .timerIo => .io .timer (BitVec.ofNat 10 (a.toNat % 256))
      | .ciaIo => .io .cia (BitVec.ofNat 10 (a.toNat % 256))
      | .soundIo k => .io .sound (BitVec.ofNat 10 (256 * k.val + a.toNat % 256))
      | .unmapped => .vram a
    else if a.toNat / 65536 = c.blitCtxBase.toNat / 65536 then .ctx (BitVec.ofNat 16 a.toNat)
    else if a.toNat / 65536 = c.romMirrorBase.toNat / 65536 then .romMirror (a.toNat % 65536)
    else if a.toNat / 65536 = c.font0Base.toNat / 65536 then
      .font .font0 (BitVec.ofNat 15 (a.toNat / 2) &&& c.fontIndexMask) (a.toNat % 2 == 1)
    else if a.toNat / 65536 = c.font1Base.toNat / 65536 then
      .font .font1 (BitVec.ofNat 15 (a.toNat / 2) &&& c.fontIndexMask) (a.toNat % 2 == 1)
    else .vram a

/-- R44: device select for a byte write, first match wins; a write to the reset vectors has no effect. -/
def Obligations.WriteDecodeFollowsItsPrecedence : Prop :=
  (∀ (c : Config) (a : Addr), selectWrite c a =
    if a.toNat < 8 then .drop
    else if a.toNat / 4096 = c.ioBase.toNat / 4096 then
      match c.subpageMap.getD (a.toNat / 256 % 16) .unmapped with
      | .blitIo => .io .blitter (BitVec.ofNat 10 (a.toNat % 256))
      | .timerIo => .io .timer (BitVec.ofNat 10 (a.toNat % 256))
      | .ciaIo => .io .cia (BitVec.ofNat 10 (a.toNat % 256))
      | .soundIo k => .io .sound (BitVec.ofNat 10 (256 * k.val + a.toNat % 256))
      | .unmapped => .vram a
    else if a.toNat / 65536 = c.blitCtxBase.toNat / 65536 then .ctx (BitVec.ofNat 16 a.toNat)
    else .vram a) ∧
  (∀ (s : State) (a : Addr) (v : Byte), a.toNat < 8 → write8 a v s = s)

/-- R40, R8: of the address the CPU presents only the low 24 bits count: an operation the CPU nests is the command of that
name at the masked address, with its answer recorded and the ports left alone (how an answer is recorded is the model's
choice, log 2); and in a RUN the operations of the first instruction are performed, in order, before anything else. -/
def Obligations.CpuAddressesAreMaskedTo24Bits : Prop :=
  (∀ A : Word, (maskAddress A).toNat = A.toNat % 16777216) ∧
  (∀ (s : State) (A A' : Word), A.toNat % 16777216 = A'.toNat % 16777216 →
    cpuOp s (.rd8 A) = cpuOp s (.rd8 A') ∧ cpuOp s (.rd16 A) = cpuOp s (.rd16 A') ∧
    (∀ v, cpuOp s (.wr8 A v) = cpuOp s (.wr8 A' v)) ∧
    (∀ v, cpuOp s (.wr16 A v) = cpuOp s (.wr16 A' v))) ∧
  (∀ (s : State) (op : CpuOp), ∃ t, exec (commandOf op) s = .next t ∧ cpuOp s op =
    { t with status := s.status, result := s.result, trace := t.trace ++ [.reply .ok t.result] }) ∧
  (∀ (s t : State) (n : Nat) (ops : List CpuOp) (d : Quad) (bp : Bool) (rest : List ExecReply),
    s.env.execs = .ran ops d bp :: rest → exec (.run n) s = .next t →
    let u := ops.foldl cpuOp { s with trace := s.trace ++ [.cpuExecute], env := { s.env with execs := rest } }
    (∃ more, t.trace = u.trace ++ more) ∧
    (bp = true ∨ s.cpuBalance + n ≤ d.toNat → quietReplies 5 u = true →
      ∀ replies, s.env.blits = .ran [] false :: replies →
      t.vram = u.vram ∧ t.irqLines = u.irqLines ∧ t.ipl = u.ipl))

/-- R90, R92: RD8 answers the byte of the target it selects: of ROM, a font or video memory with no other effect; of
a device, the device's answer, after one call of it. -/
def Obligations.Rd8AnswersTheSelectedByte : Prop :=
  ∀ (s : State) (a : Addr),
    (encode (.rd8 a)).cw.toNat = 0x10000000 + a.toNat ∧
    (∃ t, exec (.rd8 a) s = .next t) ∧
    (∀ i, selectRead s.cfg a = .vec i ∨ selectRead s.cfg a = .romMirror i → exec (.rd8 a) s =
      .next { s with status := .ok, result := .word (BitVec.ofNat 32 (romByte s i).toNat) }) ∧
    (∀ f i low, selectRead s.cfg a = .font f i low → exec (.rd8 a) s =
      .next { s with status := .ok, result := .word (BitVec.ofNat 32 (fontByte s.cfg f i low).toNat) }) ∧
    (∀ b, selectRead s.cfg a = .vram b → exec (.rd8 a) s =
      .next { s with status := .ok, result := .word (BitVec.ofNat 32 (vramByte s b).toNat) }) ∧
    (∀ call r rest, s.env.devs = r :: rest →
      (∃ d o, selectRead s.cfg a = .io d o ∧ call = .ioRead d o) ∨
        (∃ o, selectRead s.cfg a = .ctx o ∧ call = .ctxRead o) →
      ∃ t, exec (.rd8 a) s = .next t ∧
        t.own = { s.own with status := .ok, result := .word (BitVec.ofNat 32 r.value.toNat) } ∧
        (∃ more, t.trace = s.trace ++ .device call :: more) ∧
        (r.ops = [] → t = { s with
          status := .ok
          result := .word (BitVec.ofNat 32 r.value.toNat)
          trace := s.trace ++ [.device call]
          env := { s.env with devs := rest } }))

/-- R93, R205: RD16 joins the byte at the address, high and first, and the byte at the next address modulo 2^24, each
from its own target: it is the two RD8. -/
def Obligations.Rd16JoinsTwoByteReads : Prop :=
  ∀ (s : State) (a : Addr),
    (∃ t, exec (.rd16 a) s = .next t) ∧
    (∀ t u x y, exec (.rd8 a) s = .next t → t.result = .word x → exec (.rd8 (a + 1#24)) t = .next u →
      u.result = .word y → exec (.rd16 a) s = .next { u with result := .word (256#32 * x + y) }) ∧
    (readsDevice s a = false → readsDevice s (a + 1#24) = false → exec (.rd16 a) s =
      .next { s with
        status := .ok
        result := .word (BitVec.ofNat 32
          (256 * (memoryByte s a).toNat + (memoryByte s (a + 1#24)).toNat)) }) ∧
    (∀ call r rest, readCall s.cfg a = some call → readsDevice s (a + 1#24) = false →
      s.env.devs = r :: rest → r.ops = [] → exec (.rd16 a) s = .next { s with
        status := .ok
        result := .word (BitVec.ofNat 32 (256 * r.value.toNat + (memoryByte s (a + 1#24)).toNat))
        trace := s.trace ++ [.device call]
        env := { s.env with devs := rest } }) ∧
    (∀ call r rest, readsDevice s a = false → readCall s.cfg (a + 1#24) = some call →
      s.env.devs = r :: rest → r.ops = [] → exec (.rd16 a) s = .next { s with
        status := .ok
        result := .word (BitVec.ofNat 32 (256 * (memoryByte s a).toNat + r.value.toNat))
        trace := s.trace ++ [.device call]
        env := { s.env with devs := rest } }) ∧
    (∀ call1 call2 r1 r2 rest, readCall s.cfg a = some call1 →
      readCall s.cfg (a + 1#24) = some call2 → s.env.devs = r1 :: r2 :: rest → r1.ops = [] →
      r2.ops = [] → exec (.rd16 a) s = .next { s with
        status := .ok
        result := .word (BitVec.ofNat 32 (256 * r1.value.toNat + r2.value.toNat))
        trace := s.trace ++ [.device call1, .device call2]
        env := { s.env with devs := rest } })

/-- R99: RD8 and RD16 change no field of the block; what a device they call does is the device's. -/
def Obligations.ReadsChangeNoFieldOfTheBlock : Prop :=
  ∀ (s t : State) (a : Addr) (i : Instr), i = .rd8 a ∨ i = .rd16 a → exec i s = .next t →
    t.own = { s.own with status := t.status, result := t.result } ∧
    (readsDevice s a = false → readsDevice s (a + 1#24) = false →
      t.block = s.block ∧ t.trace = s.trace ∧ t.env = s.env) ∧
    (quietReplies 2 s = true → t.block = s.block)

/-- R91, R94: WR8 writes the byte to the target it selects and to nothing else. That video memory changes only if the
device called is the blitter follows R20's writers of `vram` and R8, and is the model's reading of them (log 14, DEDUCED). -/
def Obligations.Wr8WritesTheSelectedTarget : Prop :=
  ∀ (s : State) (a : Addr) (v : Byte),
    (∃ t, exec (.wr8 a v) s = .next t) ∧
    (selectWrite s.cfg a = .drop →
      exec (.wr8 a v) s = .next { s with status := .ok, result := .none }) ∧
    (∀ b, selectWrite s.cfg a = .vram b → ∃ t, exec (.wr8 a v) s = .next t ∧
      (∀ x, vramByte t x = if x = b then v else vramByte s x) ∧
      { t with vram := s.vram } = { s with status := .ok, result := .none }) ∧
    (∀ call, (∃ d o, selectWrite s.cfg a = .io d o ∧ call = .ioWrite d o v) ∨
        (∃ o, selectWrite s.cfg a = .ctx o ∧ call = .ctxWrite o v) →
      ∃ t, exec (.wr8 a v) s = .next t ∧
        t.own = { s.own with status := .ok, result := .none } ∧
        (∃ more, t.trace = s.trace ++ .device call :: more) ∧
        (call.device ≠ .blitter → t.vram = s.vram) ∧
        (∀ r rest, s.env.devs = r :: rest → r.ops = [] → t = { s with
          status := .ok
          result := .none
          trace := s.trace ++ [.device call]
          env := { s.env with devs := rest } }))

/-- R95, R205: WR16 writes the high byte at the address first and the low byte at the next address modulo 2^24, each to
the target it selects: it is the two WR8. -/
def Obligations.Wr16WritesTwoBytes : Prop :=
  ∀ (s : State) (a : Addr) (v : Half),
    let hi : Byte := BitVec.ofNat 8 (v.toNat / 256)
    let lo : Byte := BitVec.ofNat 8 v.toNat
    (∃ t, exec (.wr16 a v) s = .next t) ∧
    (∀ t u, exec (.wr8 a hi) s = .next t → exec (.wr8 (a + 1#24) lo) t = .next u →
      exec (.wr16 a v) s = .next u) ∧
    (writesDevice s a = false → writesDevice s (a + 1#24) = false →
      ∃ t, exec (.wr16 a v) s = .next t ∧
        (∀ x, vramByte t x =
          if selectWrite s.cfg (a + 1#24) = .vram x then lo
          else if selectWrite s.cfg a = .vram x then hi
          else vramByte s x) ∧
        { t with vram := s.vram } = { s with status := .ok, result := .none }) ∧
    (∀ call r rest, writeCall s.cfg a hi = some call → writesDevice s (a + 1#24) = false →
      s.env.devs = r :: rest → r.ops = [] → ∃ t, exec (.wr16 a v) s = .next t ∧
        (∀ x, vramByte t x = if selectWrite s.cfg (a + 1#24) = .vram x then lo else vramByte s x) ∧
        { t with vram := s.vram } = { s with
          status := .ok
          result := .none
          trace := s.trace ++ [.device call]
          env := { s.env with devs := rest } }) ∧
    (∀ call r rest, writesDevice s a = false → writeCall s.cfg (a + 1#24) lo = some call →
      s.env.devs = r :: rest → r.ops = [] → ∃ t, exec (.wr16 a v) s = .next t ∧
        (∀ x, vramByte t x = if selectWrite s.cfg a = .vram x then hi else vramByte s x) ∧
        { t with vram := s.vram } = { s with
          status := .ok
          result := .none
          trace := s.trace ++ [.device call]
          env := { s.env with devs := rest } }) ∧
    (∀ call1 call2 r1 r2 rest, writeCall s.cfg a hi = some call1 →
      writeCall s.cfg (a + 1#24) lo = some call2 → s.env.devs = r1 :: r2 :: rest → r1.ops = [] →
      r2.ops = [] → exec (.wr16 a v) s = .next { s with
        status := .ok
        result := .none
        trace := s.trace ++ [.device call1, .device call2]
        env := { s.env with devs := rest } })

/-- R98: where both bytes decode to video memory for reads and for writes, a write is read back. -/
def Obligations.VideoMemoryRoundTrips : Prop :=
  ∀ (s : State) (a : Addr), selectRead s.cfg a = .vram a → selectWrite s.cfg a = .vram a →
    (∀ v : Byte, ∃ t u, exec (.wr8 a v) s = .next t ∧ exec (.rd8 a) t = .next u ∧
      u.result = .word (BitVec.ofNat 32 v.toNat)) ∧
    (selectRead s.cfg (a + 1#24) = .vram (a + 1#24) → selectWrite s.cfg (a + 1#24) = .vram (a + 1#24) →
      ∀ v : Half, ∃ t u, exec (.wr16 a v) s = .next t ∧ exec (.rd16 a) t = .next u ∧
        u.result = .word (BitVec.ofNat 32 v.toNat))

/-- R59, R206: a write never changes what a read of the reset vectors, the ROM mirror or a font gives. -/
def Obligations.WritesDoNotShowInRomAndFontReads : Prop :=
  ∀ (s t : State) (a x : Addr) (v : Byte), exec (.wr8 a v) s = .next t →
    (∀ i, selectRead s.cfg x = .vec i ∨ selectRead s.cfg x = .romMirror i →
      selectRead t.cfg x = selectRead s.cfg x ∧ memoryByte t x = memoryByte s x) ∧
    (∀ f i low, selectRead s.cfg x = .font f i low →
      selectRead t.cfg x = selectRead s.cfg x ∧ memoryByte t x = memoryByte s x)

/-- R96: LDROM replaces the whole image, by the first 65,536 bytes of the configured file or by the default, and
changes nothing else of the block. -/
def Obligations.LdromReplacesTheImage : Prop :=
  (∀ d, decode ⟨0x14000000#32, d⟩ = .ok .ldrom) ∧
  ∀ s : State, s.cfg.wf →
    (∃ t, exec .ldrom s = .next t) ∧
    (∀ f rest, s.env.romFiles = f :: rest → ∃ t, exec .ldrom s = .next t ∧
      { t.block with rom := s.rom } = s.block ∧ t.commands = s.commands ∧ t.result = .none ∧
      t.trace = s.trace ++ [.romFile] ∧
      (match f with
        | .file b =>
          (65536 ≤ b.length → t.status = .ok ∧ ∀ i < 65536, romByte t i = b.getD i 0) ∧
          (b.length < 65536 → t.status = .wRomFallback ∧
            ∀ i < 65536, romByte t i = s.cfg.defaultRom.getD i 0)
        | .missing => t.status = .wRomFallback ∧ ∀ i < 65536, romByte t i = s.cfg.defaultRom.getD i 0
        | .notConfigured => t.status = .ok ∧ ∀ i < 65536, romByte t i = s.cfg.defaultRom.getD i 0))

/-- R23: no command but LDROM and RESET changes the ROM image. -/
def Obligations.OnlyLdromAndResetWriteTheRom : Prop :=
  ∀ i s t, exec i s = .next t → i ≠ .ldrom → i ≠ .reset → t.rom = s.rom

/-- R97: INSBIN of a file that cannot be opened or is shorter than two bytes is refused by status, with nothing
written. -/
def Obligations.InsbinRefusesBadFiles : Prop :=
  ∀ (s : State) (fileref : Word),
    (∃ t, exec (.insbin fileref) s = .next t) ∧
    (∀ f rest, s.env.binaries = f :: rest →
      (f = .cannotOpen → exec (.insbin fileref) s = .next { s with
        status := .eBinOpen fileref
        result := .none
        trace := s.trace ++ [.openBinary fileref]
        env := { s.env with binaries := rest } }) ∧
      (∀ b, f = .file b → b.length < 2 → exec (.insbin fileref) s = .next { s with
        status := .eBinShort b.length
        result := .none
        trace := s.trace ++ [.openBinary fileref]
        env := { s.env with binaries := rest } }))

/-- R97, R211: INSBIN is the WR8 of each data byte in a row from the start address, then the WR16 of the start and end
slots, devices reached and all; where the devices reached nest nothing, their calls are those, in that order; and where
none is reached, the slots win over the data. -/
def Obligations.InsbinWritesDataThenSlots : Prop :=
  ∀ (s : State) (fileref : Word) (b0 b1 : Byte) (data : List Byte) (rest : List BinFile),
    s.env.binaries = .file (b0 :: b1 :: data) :: rest →
    let start := 256 * b0.toNat + b1.toNat
    let stop := start + data.length
    let at_ := fun k => BitVec.ofNat 24 (start + k)
    let slots := [s.cfg.loadStartSlot, s.cfg.loadStartSlot + 1#24, s.cfg.loadEndSlot,
      s.cfg.loadEndSlot + 1#24]
    let opened := { s with
      trace := s.trace ++ [.openBinary fileref], env := { s.env with binaries := rest } }
    (∃ t, execAll (data.mapIdx (fun k b => Instr.wr8 (at_ k) b) ++
        [.wr16 s.cfg.loadStartSlot (BitVec.ofNat 16 start), .wr16 s.cfg.loadEndSlot (BitVec.ofNat 16 stop)])
        opened = some t ∧ exec (.insbin fileref) s = .next t) ∧
    (quietReplies (data.length + 4) s = true → ∃ t, exec (.insbin fileref) s = .next t ∧
      t.trace = opened.trace ++ ((data.mapIdx (fun k b => writeCall s.cfg (at_ k) b) ++
        [writeCall s.cfg s.cfg.loadStartSlot b0, writeCall s.cfg (s.cfg.loadStartSlot + 1#24) b1,
          writeCall s.cfg s.cfg.loadEndSlot (BitVec.ofNat 8 (stop % 65536 / 256)),
          writeCall s.cfg (s.cfg.loadEndSlot + 1#24) (BitVec.ofNat 8 stop)]).filterMap id).map
        Event.device) ∧
    (data.length ≤ 16777216 → (∀ k < data.length, writesDevice s (at_ k) = false) →
      (∀ x ∈ slots, writesDevice s x = false) →
      ∃ t, exec (.insbin fileref) s = .next t ∧ t.status = .ok ∧ t.result = .none ∧
      { t.block with vram := s.vram } = s.block ∧ t.commands = s.commands ∧
      (∀ k < data.length, at_ k ∉ slots → selectWrite s.cfg (at_ k) = .vram (at_ k) →
        vramByte t (at_ k) = data.getD k 0) ∧
      (∀ x, x ∉ slots → (∀ k < data.length, x ≠ at_ k) → vramByte t x = vramByte s x) ∧
      (∀ x, selectWrite s.cfg x = .drop → vramByte t x = vramByte s x) ∧
      (selectWrite s.cfg s.cfg.loadEndSlot = .vram s.cfg.loadEndSlot →
        vramByte t s.cfg.loadEndSlot = BitVec.ofNat 8 (stop % 65536 / 256)) ∧
      (selectWrite s.cfg (s.cfg.loadEndSlot + 1#24) = .vram (s.cfg.loadEndSlot + 1#24) →
        vramByte t (s.cfg.loadEndSlot + 1#24) = BitVec.ofNat 8 stop) ∧
      (selectWrite s.cfg s.cfg.loadStartSlot = .vram s.cfg.loadStartSlot →
        s.cfg.loadStartSlot ≠ s.cfg.loadEndSlot → s.cfg.loadStartSlot ≠ s.cfg.loadEndSlot + 1#24 →
        vramByte t s.cfg.loadStartSlot = b0) ∧
      (selectWrite s.cfg (s.cfg.loadStartSlot + 1#24) = .vram (s.cfg.loadStartSlot + 1#24) →
        s.cfg.loadStartSlot + 1#24 ≠ s.cfg.loadEndSlot →
        s.cfg.loadStartSlot + 1#24 ≠ s.cfg.loadEndSlot + 1#24 →
        vramByte t (s.cfg.loadStartSlot + 1#24) = b1))

/-! ## The interrupt encoder (41_irq_encoder.md) -/

/-- R110: the aggregate level is the greatest level of a pulled line, 0 where none is pulled, and has 3 bits. -/
def Obligations.TheLevelIsTheMaximumOfThePulledLines : Prop :=
  ∀ lines : List IrqLine,
    (∀ l ∈ lines, l.asserted = true → l.level ≤ aggregateLevel lines) ∧
    (aggregateLevel lines = 0 ∨ ∃ l ∈ lines, l.asserted = true ∧ l.level = aggregateLevel lines) ∧
    ((∀ l ∈ lines, l.level < 8) → aggregateLevel lines < 8)

/-- R117: pulling a line of level 0 gives the same level as releasing it. -/
def Obligations.LevelZeroLinesRequestNothing : Prop :=
  ∀ (lines : List IrqLine) (h : Nat) (l : IrqLine), lines[h]? = some l → l.level = 0 →
    aggregateLevel (setLine lines h true) = aggregateLevel (setLine lines h false)

/-- R111: IRQREG appends a released line and answers its handle; with 256 lines it changes nothing. -/
def Obligations.IrqregAppendsAReleasedLine : Prop :=
  ∀ (s : State) (level : Nat),
    (level < 8 → (encode (.irqreg level)).cw.toNat = 0x20000000 + level) ∧
    (s.irqLines.length < 256 → exec (.irqreg level) s = .next { s with
      status := .ok
      result := .word (BitVec.ofNat 32 s.irqLines.length)
      irqLines := s.irqLines ++ [{ level := level, asserted := false }] }) ∧
    (s.irqLines.length = 256 → exec (.irqreg level) s =
      .next { s with status := .eIrqFull level, result := .none }) ∧
    aggregateLevel (s.irqLines ++ [{ level := level, asserted := false }]) = aggregateLevel s.irqLines

/-- R112, R113: IRQASR pulls a registered line and IRQDEA releases it; the level is recomputed and pushed every time; an
unregistered handle changes nothing. -/
def Obligations.IrqasrAndIrqdeaDriveALine : Prop :=
  ∀ (s : State) (h : Nat) (p : Bool),
    (h < 256 → (encode (driveCommand (h, p))).cw.toNat = (if p then 0x21000000 else 0x22000000) + h) ∧
    (h < s.irqLines.length → exec (driveCommand (h, p)) s = .next { s with
      status := .ok
      result := .none
      irqLines := s.irqLines.modify h fun l => { l with asserted := p }
      ipl := aggregateLevel (s.irqLines.modify h fun l => { l with asserted := p })
      trace := s.trace ++ if s.cfg.cpuAttached then
        [.setIpl (aggregateLevel (s.irqLines.modify h fun l => { l with asserted := p }))] else [] }) ∧
    (s.irqLines.length ≤ h → exec (driveCommand (h, p)) s =
      .next { s with status := .eBadHandle h, result := .none })

/-- R114, R115: IRQRCP sets the level from the table and pushes it where a CPU is attached; IRQGET reads it,
and in a state of the invariant it is never stale. -/
def Obligations.IrqrcpAndIrqgetGiveTheLevel : Prop :=
  (∀ d, decode ⟨0x23000000#32, d⟩ = .ok .irqrcp) ∧ (∀ d, decode ⟨0x24000000#32, d⟩ = .ok .irqget) ∧
  ∀ s : State,
    exec .irqrcp s = .next { s with
      status := .ok
      result := .none
      ipl := aggregateLevel s.irqLines
      trace := s.trace ++ if s.cfg.cpuAttached then [.setIpl (aggregateLevel s.irqLines)] else [] } ∧
    exec .irqget s = .next { s with status := .ok, result := .word (BitVec.ofNat 32 s.ipl) } ∧
    (s.Inv → exec .irqget s =
      .next { s with status := .ok, result := .word (BitVec.ofNat 32 (aggregateLevel s.irqLines)) })

/-- R116: after any asserts and deasserts of registered lines the level is the maximum over the lines pulled at the end,
whatever the order that led there. -/
def Obligations.TheLevelForgetsTheOrderOfAsserts : Prop :=
  ∀ (drives : List (Nat × Bool)) (s : State), drives ≠ [] → (∀ d ∈ drives, d.1 < s.irqLines.length) →
    ∃ t, execAll (drives.map driveCommand) s = some t ∧ t.levels = s.levels ∧
      (∀ h, t.pulled h = pulledAfter h (s.pulled h) drives) ∧
      (∀ h l, pulledAfter h (s.pulled h) drives = true → s.levels[h]? = some l → l ≤ t.ipl) ∧
      (t.ipl = 0 ∨ ∃ h, pulledAfter h (s.pulled h) drives = true ∧ s.levels[h]? = some t.ipl)

/-- R118: from an empty table, registrations answer the handles 0, 1, 2, … in order, up to 256; the number of lines
never falls, so no handle is answered twice. -/
def Obligations.HandlesAreDense : Prop :=
  (∀ (s : State) (levels : List Nat) (level : Nat), s.irqLines = [] → levels.length < 256 →
    ∃ t u, execAll (levels.map .irqreg) s = some t ∧ exec (.irqreg level) t = .next u ∧
      u.status = .ok ∧ u.result = .word (BitVec.ofNat 32 levels.length) ∧
      u.levels = levels ++ [level]) ∧
  (∀ (i : Instr) (s t : State), exec i s = .next t → s.irqCount ≤ t.irqCount)

/-- R25: a registered line stays registered, under its handle and with its level, whatever command runs. -/
def Obligations.RegisteredLinesKeepTheirHandleAndLevel : Prop :=
  ∀ i s t, exec i s = .next t → s.levels <+: t.levels ∧
    ((∀ level, i ≠ .irqreg level) → t.levels = s.levels)

/-- R185, R8, R24, R61: a line a device pulls in any call that lets it raises the level, and is pushed, at once; and so
does every operation a device nests in a call have its effect there, in order: asserts, deasserts, and the blitter's reads
and writes of video memory, also in a drain and in a register access of the bus. Which call lets a device do what is the
model's reading where R185, R37 and R61 leave it open (log 14), the form of the recorded answers its choice (log 2). -/
def Obligations.ADeviceAssertIsPushedAtOnce : Prop :=
  (∀ (s : State) (call : DevCall) (h : Nat) (r : DevReply) (rest : List DevReply),
    h < s.irqLines.length → s.cfg.cpuAttached = true → call.allows (.irqAssert h) = true →
    s.env.devs = r :: rest → r.ops = [.irqAssert h] →
    let lines := s.irqLines.modify h fun l => { l with asserted := true }
    callDevice call s = (r, { s with
      irqLines := lines
      ipl := aggregateLevel lines
      trace := s.trace ++ [.device call, .setIpl (aggregateLevel lines), .reply .ok .none]
      env := { s.env with devs := rest } })) ∧
  (∀ (s : State) (call : DevCall) (r : DevReply) (rest : List DevReply), s.env.devs = r :: rest →
    (callDevice call s).1 = r ∧
    opsDone (r.ops.filter call.allows)
      { s with trace := s.trace ++ [.device call], env := { s.env with devs := rest } }
      (callDevice call s).2) ∧
  (∀ (s : State) (ops : List DevOp) (more : Bool) (replies : List BlitReply),
    s.env.blits = .ran ops more :: replies → ∃ t, opsDone ops
      { s with trace := s.trace ++ [.device .runNextOperation], env := { s.env with blits := replies } } t ∧
      drainBlitter (blitAnswers s) s = if more then drainBlitter (blitAnswers t) t else t) ∧
  (∀ (s : State) (a : Addr) (call : DevCall), readCall s.cfg a = some call → exec (.rd8 a) s =
    .next { (callDevice call s).2 with
      status := .ok, result := .word (BitVec.ofNat 32 (callDevice call s).1.value.toNat) }) ∧
  (∀ (s : State) (a : Addr) (v : Byte) (call : DevCall), writeCall s.cfg a v = some call →
    exec (.wr8 a v) s = .next { (callDevice call s).2 with status := .ok, result := .none }) ∧
  (∀ (call : DevCall) (h : Nat),
    (call.allows (.irqAssert h) = true ↔
      (∀ d, call ≠ .reset d) ∧ call ≠ .clearRecordBuffer ∧ call ≠ .drainRecordBuffer) ∧
    (call.allows (.irqDeassert h) = true ↔ call ≠ .clearRecordBuffer ∧ call ≠ .drainRecordBuffer)) ∧
  (∀ (call : DevCall) (op : DevOp), (∃ a, op = .vramRead a) ∨ (∃ a v, op = .vramWrite a v) →
    (call.allows op = true ↔ call = .reset .blitter ∨ (∃ n, call = .run .blitter n) ∨
      (∃ o, call = .ioRead .blitter o) ∨ (∃ o v, call = .ioWrite .blitter o v) ∨
      (∃ o, call = .ctxRead o) ∨ (∃ o v, call = .ctxWrite o v) ∨
      call = .notifyScreenRefresh ∨ call = .runNextOperation))

/-! ## The frequency divider (42_freq_divider.md) -/

/-- R131: FDCLK answers the quotient and keeps the remainder; a quotient that does not fit 64 bits is a free value (the
model's choice, log 13) and the remainder is kept all the same. -/
def Obligations.FdclkAnswersTheQuotient : Prop :=
  ∀ (s : State) (pct n : Nat), ∃ q : Quad,
    exec (.fdclk pct n) s = .next { s with
      status := .ok
      result := .cycles q
      divRem := (n * pct * s.cfg.soundHz + s.divRem) % (100 * s.cfg.cpuHz) } ∧
    ((n * pct * s.cfg.soundHz + s.divRem) / (100 * s.cfg.cpuHz) < 2 ^ 64 →
      q.toNat = (n * pct * s.cfg.soundHz + s.divRem) / (100 * s.cfg.cpuHz))

/-- R132: no drift over any sequence of calls: the remainder is exact, and so is the sum of the outputs where each fits the
64 bits R15 gives it (of one that does not, nothing is claimed: log 13). -/
def Obligations.TheDividerDoesNotDrift : Prop :=
  ∀ (calls : List (Nat × Nat)) (s : State), 0 < s.cfg.cpuHz → s.divRem < 100 * s.cfg.cpuHz →
    let units := (calls.map fun c => c.1 * c.2 * s.cfg.soundHz).sum + s.divRem
    let source := (calls.map Prod.fst).sum
    ∃ total t, fdclkAll calls s = some (total, t) ∧ t.divRem = units % (100 * s.cfg.cpuHz) ∧
      ((∀ c ∈ calls, c.1 * c.2 * s.cfg.soundHz / (100 * s.cfg.cpuHz) + 1 < 2 ^ 64) →
        total = units / (100 * s.cfg.cpuHz) ∧
        (s.divRem = 0 → (∀ c ∈ calls, c.2 = 100) →
          total = source * s.cfg.soundHz / s.cfg.cpuHz ∧
          total * s.cfg.cpuHz ≤ source * s.cfg.soundHz ∧
          source * s.cfg.soundHz < (total + 1) * s.cfg.cpuHz))

/-- R133: splitting a call into two does not change the remainder, nor the total output where it fits the 64 bits R15
gives it (log 13). -/
def Obligations.TheDividerForgetsTheGranularity : Prop :=
  ∀ (n1 n2 pct : Nat) (s : State), 0 < s.cfg.cpuHz → s.divRem < 100 * s.cfg.cpuHz →
    ∃ total split t u, fdclkAll [(n1 + n2, pct)] s = some (total, t) ∧
      fdclkAll [(n1, pct), (n2, pct)] s = some (split, u) ∧ t.divRem = u.divRem ∧
      ((n1 + n2) * pct * s.cfg.soundHz / (100 * s.cfg.cpuHz) + 1 < 2 ^ 64 → total = split)

/-- R134: no command but FDCLK and RUN changes the divider's remainder. -/
def Obligations.OnlyFdclkAndRunChangeTheRemainder : Prop :=
  ∀ i s t, exec i s = .next t → (∀ pct n, i ≠ .fdclk pct n) → (∀ n, i ≠ .run n) →
    t.divRem = s.divRem

/-! ## The scheduler (43_scheduler.md) -/

/-- R144: RUN executes the instructions the CPU answers with up to the one that reaches a breakpoint or the balance, runs
CIA and timer for exactly their cycles, settles or flushes the balance, and takes the audio and frame steps with the
cycles consumed. -/
def Obligations.RunPerformsItsInstructions : Prop :=
  ∀ (s : State) (n : Nat) (before : List ScriptedInstr) (last : ScriptedInstr) (rest : List ExecReply),
    let bal := s.cpuBalance + n
    let total := scriptCycles before + last.delta.toNat
    execAnswers s = before.map ScriptedInstr.reply ++ last.reply :: rest →
    (∀ i ∈ before, i.breakpoint = false) →
    (∀ k, 0 < k → k ≤ before.length → (scriptCycles (before.take k) : Int) < bal) →
    last.breakpoint = true ∨ bal ≤ total →
    bal ≤ balanceMax → s.frameBalance + total ≤ balanceMax → s.env.clock + total ≤ clockMax →
    (last.breakpoint = false → balanceMin ≤ bal - total) →
    s.frameBalance + total ≤ s.cfg.frameBudget ∨ drainHangs s.env.blits = false → s.tallyHasRoom = true →
    ∃ t, exec (.run n) s = .next t ∧ t.status = .ok ∧
      t.result = .run (if last.breakpoint then .breakpointHit else .stepped) ∧
      t.cpuBalance = (if last.breakpoint then 0 else bal - total) ∧
      (last.breakpoint = false → 0 < bal → -(last.delta.toNat : Int) < t.cpuBalance ∧ t.cpuBalance ≤ 0) ∧
      t.mode = (if last.breakpoint then .paused else s.mode) ∧
      t.frameBalance = (if s.cfg.frameBudget < s.frameBalance + total
        then s.frameBalance + total - s.cfg.frameBudget else s.frameBalance + total) ∧
      t.frameDone = (s.frameDone || decide (s.cfg.frameBudget < s.frameBalance + total)) ∧
      ciaCycles t = ciaCycles s + total ∧ timerCycles t = timerCycles s + total ∧
      t.env.execs = s.env.execs.drop (before.length + 1) ∧ t.env.clock = s.env.clock + total ∧
      t.cfg = s.cfg ∧ t.rom = s.rom ∧ t.recording = s.recording ∧ t.levels = s.levels ∧
      t.lapUnder = s.lapUnder ∧ t.lapEqual = s.lapEqual ∧ t.lapOver = s.lapOver ∧
      t.commands = s.commands

/-- R144, R210, R15: RUN completes, for any answers of its agents, listed or free, unless the CPU's clock stands still
below the balance, the blitter's listed answers do not end a drain, or a balance, the CPU's clock or a tally leaves its
range. -/
def Obligations.RunCompletesUnlessItsAnswersStopIt : Prop :=
  ∀ (s : State) (n : Nat),
    let bal := s.cpuBalance + n
    (∃ t, exec (.run n) s = .next t ∧ t.status = .ok) ∨
    (exec (.run n) s = .fault .balanceOverflow ∧ balanceMax < bal) ∨
    (exec (.run n) s = .fault .drainStuck ∧ drainHangs s.env.blits = true) ∨
    (exec (.run n) s = .fault .tallyOverflow ∧ s.tallyHasRoom = false) ∨
    ∃ (before : List ScriptedInstr) (tail : List ExecReply),
      execAnswers s = before.map ScriptedInstr.reply ++ tail ∧ (∀ i ∈ before, i.breakpoint = false) ∧
      (∀ k, 0 < k → k ≤ before.length → (scriptCycles (before.take k) : Int) < bal) ∧
      ((exec (.run n) s = .fault .runStuck ∧ (scriptCycles before : Int) < bal ∧
          (tail = [] ∨ ∃ rest, tail = .stalled :: rest)) ∨
        ∃ (last : ScriptedInstr) (rest : List ExecReply), tail = last.reply :: rest ∧
          ((exec (.run n) s = .fault .clockOverflow ∧
              clockMax < s.env.clock + scriptCycles before + last.delta.toNat) ∨
            (exec (.run n) s = .fault .balanceOverflow ∧
              (balanceMax < s.frameBalance + scriptCycles before + last.delta.toNat ∨
                (last.breakpoint = false ∧
                  bal - scriptCycles before - last.delta.toNat < balanceMin)))))

/-- R210: RUN does not end where the CPU's clock stands still below the balance, nor where the blitter's queue never
empties at a frame boundary. -/
def Obligations.RunHangsAreNamed : Prop :=
  ∀ (s : State) (n : Nat) (before : List ScriptedInstr) (tail : List ExecReply),
    let bal := s.cpuBalance + n
    execAnswers s = before.map ScriptedInstr.reply ++ tail →
    (∀ i ∈ before, i.breakpoint = false) → bal ≤ balanceMax →
    s.frameBalance + scriptCycles before ≤ balanceMax → s.env.clock + scriptCycles before ≤ clockMax →
    (∀ k, 0 < k → k ≤ before.length → (scriptCycles (before.take k) : Int) < bal) →
    ((scriptCycles before : Int) < bal → (tail = [] ∨ ∃ rest, tail = .stalled :: rest) →
      exec (.run n) s = .fault .runStuck) ∧
    (∀ (last : ScriptedInstr) (rest : List ExecReply), tail = last.reply :: rest →
      last.breakpoint = true ∨ bal ≤ scriptCycles before + last.delta.toNat →
      s.frameBalance + scriptCycles before + last.delta.toNat ≤ balanceMax →
      s.env.clock + scriptCycles before + last.delta.toNat ≤ clockMax →
      (last.breakpoint = false → balanceMin ≤ bal - scriptCycles before - last.delta.toNat) →
      s.cfg.frameBudget < s.frameBalance + scriptCycles before + last.delta.toNat →
      namesEndless s.env.blits = true → s.tallyHasRoom = true → exec (.run n) s = .fault .drainStuck)

/-- A CPU whose clock stands still ends a RUN whose balance is not positive after one loop body, as R144's loop test
says. -/
def Obligations.RunOfAStalledCpuEndsOnAnEmptyBalance : Prop :=
  ∀ (s : State) (n : Nat) (rest : List ExecReply), execAnswers s = .stalled :: rest →
    s.cpuBalance + n ≤ 0 → s.frameBalance ≤ s.cfg.frameBudget → s.tallyHasRoom = true →
    ∃ t, exec (.run n) s = .next t ∧ t.status = .ok ∧ t.result = .run .stepped ∧
      t.cpuBalance = s.cpuBalance + n ∧ t.frameBalance = s.frameBalance ∧
      ciaCycles t = ciaCycles s ∧ timerCycles t = timerCycles s ∧ t.env.clock = s.env.clock

/-- U14, R15: RUN stops by name where a balance would leave the signed 64-bit range, at either end, or the CPU's clock or
the tally it would raise its 64 bits (the order in which the model looks at them is its choice, log 6 and log 7). -/
def Obligations.RunStopsWhereABalanceLeavesItsRange : Prop :=
  ∀ (s : State) (n : Nat) (before : List ScriptedInstr) (last : ScriptedInstr) (rest : List ExecReply),
    let bal := s.cpuBalance + n
    let total := scriptCycles before + last.delta.toNat
    (balanceMax < bal → exec (.run n) s = .fault .balanceOverflow) ∧
    (bal ≤ balanceMax → execAnswers s = before.map ScriptedInstr.reply ++ last.reply :: rest →
      (∀ i ∈ before, i.breakpoint = false) →
      (∀ k, 0 < k → k ≤ before.length → (scriptCycles (before.take k) : Int) < bal) →
      s.frameBalance + scriptCycles before ≤ balanceMax → s.env.clock + scriptCycles before ≤ clockMax →
      (clockMax < s.env.clock + total → exec (.run n) s = .fault .clockOverflow) ∧
      (s.env.clock + total ≤ clockMax → balanceMax < s.frameBalance + total →
        exec (.run n) s = .fault .balanceOverflow) ∧
      (s.env.clock + total ≤ clockMax → s.frameBalance + total ≤ balanceMax →
        last.breakpoint = false → bal - total < balanceMin → exec (.run n) s = .fault .balanceOverflow) ∧
      (s.env.clock + total ≤ clockMax → s.frameBalance + total ≤ balanceMax →
        last.breakpoint = true ∨ bal ≤ total → (last.breakpoint = false → balanceMin ≤ bal - total) →
        ∀ occ occs, s.env.occupancies = occ :: occs → (s.tallyFor occ).toNat = 2 ^ 64 - 1 →
        exec (.run n) s = .fault .tallyOverflow))

/-- R151: over any sequence of RUNs, requested minus consumed is the carried balance plus what breakpoints flushed, and
CIA and timer were run for exactly the consumed cycles. -/
def Obligations.RunCyclesAreAccountedFor : Prop :=
  ∀ (ns : List Nat) (s t : State) (used flushed : Int), runAll ns s = some (used, flushed, t) →
    (ns.sum : Int) - used = t.cpuBalance + flushed - s.cpuBalance ∧
    used = (ciaCycles t : Int) - ciaCycles s ∧ used = (timerCycles t : Int) - timerCycles s ∧
    0 ≤ used ∧
    (∀ n u, exec (.run n) t = .next u → u.result = .run .breakpointHit → u.cpuBalance = 0) ∧
    (∀ n u, exec (.run n) t = .next u → u.result = .run .stepped → 0 < t.cpuBalance + n →
      u.cpuBalance ≤ 0)

/-- R141, R142, R38: each RUN and PRUN that completes counts the band of its first occupancy sample in exactly one tally,
which grows by one and does not wrap. -/
def Obligations.EachSchedulerStepCountsOneBand : Prop :=
  ∀ (s t : State) (n occ : Nat) (rest : List Nat) (i : Instr), i = .run n ∨ i = .prun n →
    exec i s = .next t → s.env.occupancies = occ :: rest →
    (t.underrun.toNat, t.equalrun.toNat, t.overrun.toNat) =
      if 100 * occ < 50 * s.cfg.audioTarget then
        (s.underrun.toNat + 1, s.equalrun.toNat, s.overrun.toNat)
      else if 100 * occ < 120 * s.cfg.audioTarget then
        (s.underrun.toNat, s.equalrun.toNat + 1, s.overrun.toNat)
      else (s.underrun.toNat, s.equalrun.toNat, s.overrun.toNat + 1)

/-- R142: RUN runs the sound device through the divider at 1.05, 1.00 or 0.95 times the consumed cycles or not at all,
by the band; while recording always at 1.00. -/
def Obligations.SoundIsRunAtTheRateOfTheBand : Prop :=
  ∀ (s t : State) (n occ : Nat) (rest : List Nat), exec (.run n) s = .next t →
    s.env.occupancies = occ :: rest →
    let used := ciaCycles t - ciaCycles s
    let units := fun pct => used * pct * s.cfg.soundHz + s.divRem
    let runsAt := fun pct => t.divRem = units pct % (100 * s.cfg.cpuHz) ∧
      (units pct / (100 * s.cfg.cpuHz) < 2 ^ 64 →
        soundCycles t = soundCycles s + units pct / (100 * s.cfg.cpuHz))
    (s.recording = true → runsAt 100) ∧
    (s.recording = false → 100 * occ < 50 * s.cfg.audioTarget → runsAt 105) ∧
    (s.recording = false → 50 * s.cfg.audioTarget ≤ 100 * occ → 100 * occ < 120 * s.cfg.audioTarget →
      runsAt 100) ∧
    (s.recording = false → 120 * s.cfg.audioTarget ≤ 100 * occ → 100 * occ ≤ 200 * s.cfg.audioTarget →
      runsAt 95) ∧
    (s.recording = false → 200 * s.cfg.audioTarget < 100 * occ →
      t.divRem = s.divRem ∧ soundCycles t = soundCycles s)

/-- R154, R143: the order of the calls in one RUN whose agents nest no operation: per instruction the CPU, then CIA, then
timer; after the loop sound and the record drain, the audio start, and at a frame boundary the blitter, until its queue is
empty. -/
def Obligations.RunCallsItsAgentsInOrder : Prop :=
  ∀ (s : State) (n : Nat) (before : List ScriptedInstr) (last : ScriptedInstr) (rest : List ExecReply)
    (occ1 occ2 : Nat) (occs : List Nat) (queued : Nat) (replies : List BlitReply),
    let bal := s.cpuBalance + n
    let total := scriptCycles before + last.delta.toNat
    execAnswers s = before.map ScriptedInstr.reply ++ last.reply :: rest →
    (∀ i ∈ before, i.breakpoint = false ∧ i.ops = []) → last.ops = [] →
    (∀ k, 0 < k → k ≤ before.length → (scriptCycles (before.take k) : Int) < bal) →
    last.breakpoint = true ∨ bal ≤ total →
    bal ≤ balanceMax → s.frameBalance + total ≤ balanceMax → s.env.clock + total ≤ clockMax →
    (last.breakpoint = false → balanceMin ≤ bal - total) →
    s.env.occupancies = occ1 :: occ2 :: occs →
    s.env.blits = List.replicate queued (.ran [] true) ++ .ran [] false :: replies →
    quietReplies (2 * before.length + 5) s = true → s.tallyHasRoom = true →
    ∃ t out, exec (.run n) s = .next t ∧ t.trace = s.trace ++ scriptCalls (before ++ [last]) ++
      (if last.breakpoint then [.clearBreakpoint] else []) ++ [.audioQueueBytes] ++
      (if s.recording then [.device (.run .sound out), .device .drainRecordBuffer,
          .recordWrite ((s.env.devs.getD (2 * before.length + 3) default).samples)]
        else if 200 * s.cfg.audioTarget < 100 * occ1 then [] else [.device (.run .sound out)]) ++
      [.audioQueueBytes] ++
      (if 75 * s.cfg.audioTarget < 100 * occ2 then [.startAudio] else []) ++
      (if s.cfg.frameBudget < s.frameBalance + total
        then .device .notifyScreenRefresh :: List.replicate (queued + 1) (.device .runNextOperation)
        else []) ∧
      t.vram = s.vram ∧ t.irqLines = s.irqLines ∧ t.ipl = s.ipl

/-- R145: PRUN runs CIA, then timer, for n cycles and takes the audio step (tally, two occupancy samples, start request) and
the frame step without the CPU, the sound device, the divider and the blitter; the balance of the CPU and video memory are
not touched (that CIA and timer do not reach it: log 14), lines and level are as the two devices left them.
Leaving the range of the frame balance or of the tally it would raise is a fault, looked at in the model's order (U14,
log 6). -/
def Obligations.PrunRunsCiaAndTimerOnly : Prop :=
  ∀ (s : State) (n : Nat),
    (balanceMax < s.frameBalance + n → exec (.prun n) s = .fault .balanceOverflow) ∧
    (s.frameBalance + n ≤ balanceMax → ∀ occ occs, s.env.occupancies = occ :: occs →
      (s.tallyFor occ).toNat = 2 ^ 64 - 1 → exec (.prun n) s = .fault .tallyOverflow) ∧
    (s.frameBalance + n ≤ balanceMax → s.tallyHasRoom = true → ∃ t calls, exec (.prun n) s = .next t ∧
      t.status = .ok ∧ t.result = .run .stepped ∧
      t.frameBalance = (if s.cfg.frameBudget < s.frameBalance + n
        then s.frameBalance + n - s.cfg.frameBudget else s.frameBalance + n) ∧
      t.frameDone = (s.frameDone || decide (s.cfg.frameBudget < s.frameBalance + n)) ∧
      t.trace = s.trace ++ calls ∧ ranCycles .cia calls = n ∧ ranCycles .timer calls = n ∧
      (∃ nested1 nested2 after, calls = .device (.run .cia n) :: nested1 ++
        .device (.run .timer n) :: nested2 ++ .audioQueueBytes :: .audioQueueBytes :: after ∧
        (∀ e ∈ nested1 ++ nested2, (∃ st r, e = .reply st r) ∨ ∃ l, e = .setIpl l) ∧
        (quietReplies 2 s = true → nested1 = [] ∧ nested2 = []) ∧
        ∀ occ1 occ2 occs, s.env.occupancies = occ1 :: occ2 :: occs →
          after = (if 75 * s.cfg.audioTarget < 100 * occ2 then [.startAudio] else []) ∧
          (t.underrun.toNat, t.equalrun.toNat, t.overrun.toNat) =
            if 100 * occ1 < 50 * s.cfg.audioTarget then
              (s.underrun.toNat + 1, s.equalrun.toNat, s.overrun.toNat)
            else if 100 * occ1 < 120 * s.cfg.audioTarget then
              (s.underrun.toNat, s.equalrun.toNat + 1, s.overrun.toNat)
            else (s.underrun.toNat, s.equalrun.toNat, s.overrun.toNat + 1)) ∧
      .cpuExecute ∉ calls ∧ (∀ out, .device (.run .sound out) ∉ calls) ∧
      .device .notifyScreenRefresh ∉ calls ∧ .device .runNextOperation ∉ calls ∧
      t.cpuBalance = s.cpuBalance ∧ t.divRem = s.divRem ∧ t.mode = s.mode ∧
      t.cfg = s.cfg ∧ t.rom = s.rom ∧ t.recording = s.recording ∧ t.levels = s.levels ∧
      t.lapUnder = s.lapUnder ∧ t.lapEqual = s.lapEqual ∧ t.lapOver = s.lapOver ∧
      t.commands = s.commands ∧ t.vram = s.vram ∧
      t.irqLines = (runDevice .timer n (runDevice .cia n s)).irqLines ∧
      t.ipl = (runDevice .timer n (runDevice .cia n s)).ipl ∧
      (quietReplies 2 s = true → t.irqLines = s.irqLines ∧ t.ipl = s.ipl))

/-- R152: one scheduler step takes at most one frame boundary and carries the remainder. -/
def Obligations.AStepTakesAtMostOneFrameBoundary : Prop :=
  ∀ (s t : State) (n : Nat) (i : Instr), i = .run n ∨ i = .prun n → exec i s = .next t →
    0 ≤ s.frameBalance →
    let c : Int := (ciaCycles t : Int) - ciaCycles s
    ∃ b : Int, (b = 0 ∨ b = 1) ∧ (b = 1 ↔ s.cfg.frameBudget < s.frameBalance + c) ∧
      t.frameBalance = s.frameBalance + c - b * s.cfg.frameBudget ∧ 0 ≤ t.frameBalance ∧
      (c ≤ s.cfg.frameBudget → s.frameBalance ≤ s.cfg.frameBudget →
        t.frameBalance ≤ s.cfg.frameBudget)

/-- R152: over any sequence of RUNs and PRUNs, boundaries counted by a TAKEFRAME after each step: each takes at most one, the
balance grows by the cycles less FRAME_BUDGET for each; steps of more than FRAME_BUDGET take one each; steps of at most
FRAME_BUDGET keep the balance at or below it, and from 0 take floor((C-1)/FRAME_BUDGET). Such PRUNs all complete while the
tallies have room for them. -/
def Obligations.FrameBoundariesOverASequence : Prop :=
  (∀ (steps : List Instr) (s t : State) (cs : List Nat) (b : Nat),
    (∀ i ∈ steps, ∃ n, i = .run n ∨ i = .prun n) → 0 ≤ s.frameBalance → s.frameDone = false →
    framesAll steps s = some (cs, b, t) →
    cs.length = steps.length ∧ b ≤ steps.length ∧ 0 ≤ t.frameBalance ∧
    t.frameBalance = s.frameBalance + cs.sum - b * s.cfg.frameBudget ∧
    ((∀ c ∈ cs, s.cfg.frameBudget < c) → b = steps.length) ∧
    ((∀ c ∈ cs, c ≤ s.cfg.frameBudget) → s.frameBalance ≤ s.cfg.frameBudget →
      t.frameBalance ≤ s.cfg.frameBudget ∧
      (s.frameBalance = 0 → 0 < cs.sum →
        b = (cs.sum - 1) / s.cfg.frameBudget ∧ 1 ≤ t.frameBalance))) ∧
  ∀ (ns : List Nat) (s : State), s.frameBalance = 0 → (∀ n ∈ ns, n ≤ s.cfg.frameBudget) →
    0 < ns.sum → 2 * (s.cfg.frameBudget : Int) ≤ balanceMax →
    s.underrun.toNat + ns.length < 2 ^ 64 → s.equalrun.toNat + ns.length < 2 ^ 64 →
    s.overrun.toNat + ns.length < 2 ^ 64 →
    (s.frameDone = false → ∃ t, framesAll (ns.map .prun) s =
      some (ns, (ns.sum - 1) / s.cfg.frameBudget, t)) ∧
    ∃ t, execAll (ns.map .prun) s = some t ∧
      t.frameBalance = (ns.sum : Int) - s.cfg.frameBudget * ((ns.sum - 1) / s.cfg.frameBudget : Nat) ∧
      1 ≤ t.frameBalance ∧ t.frameBalance ≤ s.cfg.frameBudget ∧
      t.frameDone = (s.frameDone || decide (s.cfg.frameBudget < ns.sum))

/-- R140: TOGMODE flips the mode, RUN sets it to PAUSED when a breakpoint is reached, nothing else changes it. -/
def Obligations.OnlyTogmodeAndBreakpointsChangeTheMode : Prop :=
  ∀ i s t, exec i s = .next t →
    (t.mode ≠ s.mode → i = .togmode ∨
      ((∃ n, i = .run n) ∧ t.result = .run .breakpointHit ∧ t.mode = .paused)) ∧
    (i = .togmode → t.mode ≠ s.mode) ∧
    (t.result = .run .breakpointHit → t.mode = .paused)

/-- R146: TOGMODE flips the mode and touches nothing else. -/
def Obligations.TogmodeFlipsTheMode : Prop :=
  (∀ d, decode ⟨0x43000000#32, d⟩ = .ok .togmode) ∧
  ∀ s : State,
    (s.mode = .running →
      exec .togmode s = .next { s with status := .ok, result := .none, mode := .paused }) ∧
    (s.mode = .paused →
      exec .togmode s = .next { s with status := .ok, result := .none, mode := .running })

/-- R147: TOGREC starts recording by clearing the record buffer and opening the sink, and stops it by closing the sink.
That the clearing nests no operation is the model's reading of R185 (log 14, DEDUCED). -/
def Obligations.TogrecOpensAndCloses : Prop :=
  (∀ d, decode ⟨0x44000000#32, d⟩ = .ok .togrec) ∧
  ∀ s : State,
    (s.recording = true → exec .togrec s = .next { s with
      status := .ok, result := .none, recording := false, trace := s.trace ++ [.recordClose] }) ∧
    (s.recording = false → ∃ env, exec .togrec s = .next { s with
      status := .ok, result := .none, recording := true, env := env
      trace := s.trace ++ [.device .clearRecordBuffer, .recordOpen] })

/-- R148: HEALTH tells whether underruns or overruns rose since the last check, and takes the laps; a second check at once
finds the buffer healthy. -/
def Obligations.HealthComparesAndTakesTheLaps : Prop :=
  (∀ d, decode ⟨0x45000000#32, d⟩ = .ok .health) ∧
  ∀ s : State, ∃ t u, exec .health s = .next t ∧
    t = { s with
      status := .ok
      result := .bool (decide (s.underrun = s.lapUnder ∧ s.overrun = s.lapOver))
      lapUnder := s.underrun
      lapEqual := s.equalrun
      lapOver := s.overrun } ∧
    exec .health t = .next u ∧ u.result = .bool true

/-- R149, R150: TAKEFRAME answers and clears the frame mark; STATS answers mode, recording and tallies and changes nothing. -/
def Obligations.TakeframeAndStatsAnswer : Prop :=
  (∀ d, decode ⟨0x46000000#32, d⟩ = .ok .takeframe) ∧ (∀ d, decode ⟨0x47000000#32, d⟩ = .ok .stats) ∧
  ∀ s : State,
    exec .takeframe s =
      .next { s with status := .ok, result := .bool s.frameDone, frameDone := false } ∧
    exec .stats s = .next { s with
      status := .ok
      result := .stats s.mode s.recording s.underrun s.equalrun s.overrun }

/-- R31, R33: only RUN, PRUN and RESET change the tallies, and only HEALTH and RESET the laps. -/
def Obligations.TalliesAndLapsHaveTheirWriters : Prop :=
  ∀ i s t, exec i s = .next t → i ≠ .reset →
    ((∀ n, i ≠ .run n) → (∀ n, i ≠ .prun n) →
      t.underrun = s.underrun ∧ t.equalrun = s.equalrun ∧ t.overrun = s.overrun) ∧
    (i ≠ .health → t.lapUnder = s.lapUnder ∧ t.lapEqual = s.lapEqual ∧ t.lapOver = s.lapOver)

/-- R38: no command but RESET takes a tally down, and a step leaves every tally that is at or above its lap so. -/
def Obligations.TalliesStayAboveTheirLaps : Prop :=
  (∀ i s t, exec i s = .next t → i ≠ .reset →
    s.underrun ≤ t.underrun ∧ s.equalrun ≤ t.equalrun ∧ s.overrun ≤ t.overrun) ∧
  ∀ s t : State, step s = .next t →
    (s.lapUnder ≤ s.underrun → t.lapUnder ≤ t.underrun) ∧
    (s.lapEqual ≤ s.equalrun → t.lapEqual ≤ t.equalrun) ∧
    (s.lapOver ≤ s.overrun → t.lapOver ≤ t.overrun)

/-- R14, R20: no command writes the configuration, nor what the host has still to present. -/
def Obligations.NoCommandWritesTheConfiguration : Prop :=
  ∀ i s t, exec i s = .next t → t.cfg = s.cfg ∧ t.commands = s.commands

/-! ## Reset (70_reset_and_hazards.md, 10_state.md) -/

/-- R200, R37, R9: RESET zeroes balances, frame mark, tallies, laps and the CPU's clock, reloads the ROM, keeps the mode,
recording, the table and the remainder, and can only release lines. -/
def Obligations.ResetZeroesAndReloads : Prop :=
  ∀ s : State, s.cfg.wf → ∃ t, exec .reset s = .next t ∧ t.result = .none ∧
    t.cpuBalance = 0 ∧ t.frameBalance = 0 ∧ t.frameDone = false ∧
    t.underrun = 0 ∧ t.equalrun = 0 ∧ t.overrun = 0 ∧
    t.lapUnder = 0 ∧ t.lapEqual = 0 ∧ t.lapOver = 0 ∧
    t.mode = s.mode ∧ t.recording = s.recording ∧ t.divRem = s.divRem ∧ t.levels = s.levels ∧
    t.cfg = s.cfg ∧ t.commands = s.commands ∧ t.env.clock = 0 ∧
    (∀ h, t.pulled h = true → s.pulled h = true) ∧
    (s.ipl = aggregateLevel s.irqLines → t.ipl = aggregateLevel t.irqLines) ∧
    (∀ f rest, s.env.romFiles = f :: rest →
      (match f with
        | .file b =>
          (65536 ≤ b.length → t.status = .ok ∧ ∀ i < 65536, romByte t i = b.getD i 0) ∧
          (b.length < 65536 → t.status = .wRomFallback ∧
            ∀ i < 65536, romByte t i = s.cfg.defaultRom.getD i 0)
        | .missing => t.status = .wRomFallback ∧ ∀ i < 65536, romByte t i = s.cfg.defaultRom.getD i 0
        | .notConfigured => t.status = .ok ∧ ∀ i < 65536, romByte t i = s.cfg.defaultRom.getD i 0))

/-- R200, R201: the order of the calls in RESET, where no device nests an operation: the CPU's reset is the last, and the
reads of the reset vectors it nests are answered, in order, with bytes 0 to 7 of the image just loaded. Of what else a CPU
might nest there nothing is performed, which is the model's reading (log 14). -/
def Obligations.ResetCallsItsAgentsInOrder : Prop :=
  ∀ (s : State) (ops : List CpuOp) (rest : List (List CpuOp)), quietReplies 4 s = true →
    s.env.cpuResets = ops :: rest →
    ∃ t, exec .reset s = .next t ∧ t.trace = s.trace ++ [.romFile, .device (.reset .sound),
      .device (.reset .blitter), .device (.reset .timer), .device (.reset .cia), .cpuReset] ++
      ops.filterMap (vectorAnswer t) ∧
      (s.cfg.wf → ∀ f files, s.env.romFiles = f :: files →
        ∀ i < 8, romByte t i = (loadedImage s.cfg f).getD i 0) ∧
      t.vram = s.vram ∧ t.irqLines = s.irqLines ∧ t.ipl = s.ipl

/-- R36: the state at power-on. That no byte of ROM and video memory is known, and that the ports are empty, is how the
model writes "unspecified" (log 8, log 9, log 12). -/
def Obligations.PowerOnState : Prop :=
  State.reset.irqCount = 0 ∧ State.reset.ipl = 0 ∧ State.reset.cpuBalance = 0 ∧
  State.reset.frameBalance = 0 ∧ State.reset.frameDone = false ∧
  State.reset.mode = State.reset.cfg.initialMode ∧ State.reset.recording = false ∧
  State.reset.underrun = 0 ∧ State.reset.equalrun = 0 ∧ State.reset.overrun = 0 ∧
  State.reset.lapUnder = 0 ∧ State.reset.lapEqual = 0 ∧ State.reset.lapOver = 0 ∧
  State.reset.divRem = 0 ∧ (∀ a, State.reset.rom.get? a = none) ∧
  (∀ a, State.reset.vram.get? a = none)

/-- R38: the invariant holds at power-on. -/
def Obligations.TheInvariantHoldsAtPowerOn : Prop := State.reset.Inv

/-- R38: every step keeps the invariant: the memories canonical and in range, at most 256 lines of 3-bit levels, the level
up to date, the balances in range and the frame balance not negative, every tally at or above its lap, the remainder below
100*CPU_HZ, the CPU's clock in its 64 bits, the configuration legal. -/
def Obligations.EveryStepKeepsTheInvariant : Prop :=
  ∀ s t : State, s.Inv → step s = .next t → t.Inv
end

