-- ==== Sys2Proof/Laws/Memory.lean ====
section
/-! SUPPORT. The laws of memories: read after write, and that every operation keeps the canonical form. -/

namespace Sys2Proof.Machine

theorem lookupCell_insertCell (l : List Host.Cell) (a b : Nat) (v : Byte) :
    lookupCell (insertCell l a v) b = if b = a then some v else lookupCell l b := by
  induction l with
  | nil => simp [insertCell, lookupCell, eq_comm]
  | cons c rest ih =>
    obtain ⟨k, w⟩ := c
    unfold insertCell
    split
    · simp [lookupCell, eq_comm]
    · split
      · subst_vars
        by_cases h : b = k
        · simp [lookupCell, h]
        · simp [lookupCell, h, Ne.symm h]
      · by_cases hk : k = b
        · subst hk
          have : ¬ k = a := fun h => by omega
          simp [lookupCell, this]
        · simp [lookupCell, hk, ih]

/-- Read after write: the byte written there, every other byte as before. -/
@[simp] theorem get?_set (m : Memory) (a b : Nat) (v : Byte) :
    (m.set a v).get? b = if b = a then some v else m.get? b :=
  lookupCell_insertCell m.cells a b v

theorem mem_insertCell {l : List Host.Cell} {a : Nat} {v : Byte} {c : Host.Cell}
    (h : c ∈ insertCell l a v) : c = (a, v) ∨ c ∈ l := by
  induction l with
  | nil => exact .inl (by simpa [insertCell] using h)
  | cons d rest ih =>
    obtain ⟨k, w⟩ := d
    unfold insertCell at h
    split at h
    · simpa using h
    · split at h
      · rcases List.mem_cons.mp h with h | h
        · exact .inl h
        · exact .inr (List.mem_cons_of_mem _ h)
      · rcases List.mem_cons.mp h with h | h
        · exact .inr (by simp [h])
        · exact (ih h).imp_right (List.mem_cons_of_mem _)

theorem insertCell_sorted {l : List Host.Cell} (a : Nat) (v : Byte)
    (h : l.Pairwise fun c d => c.1 < d.1) : (insertCell l a v).Pairwise fun c d => c.1 < d.1 := by
  induction l with
  | nil => simp [insertCell]
  | cons d rest ih =>
    obtain ⟨k, w⟩ := d
    obtain ⟨hk, hrest⟩ := List.pairwise_cons.mp h
    unfold insertCell
    split
    · rename_i hlt
      refine List.pairwise_cons.mpr ⟨fun c hc => ?_, h⟩
      rcases List.mem_cons.mp hc with rfl | hc
      · exact hlt
      · exact Nat.lt_trans hlt (hk c hc)
    · split
      · subst_vars
        exact List.pairwise_cons.mpr ⟨hk, hrest⟩
      · refine List.pairwise_cons.mpr ⟨fun c hc => ?_, ih hrest⟩
        rcases mem_insertCell hc with rfl | hc
        · show k < a
          omega
        · exact hk c hc

/-- A write keeps the canonical form. -/
theorem set_wf {m : Memory} (a : Nat) (v : Byte) (h : m.wf) : (m.set a v).wf :=
  insertCell_sorted a v h

theorem set_below {m : Memory} {n a : Nat} (v : Byte) (h : m.below n) (ha : a < n) :
    (m.set a v).below n := fun c hc => by
  rcases mem_insertCell hc with rfl | hc
  · exact ha
  · exact h c hc

theorem lookupCell_cellsFrom (b : List Byte) (k i : Nat) :
    lookupCell (cellsFrom k b) i = if k ≤ i then b[i - k]? else none := by
  induction b generalizing k with
  | nil => simp [cellsFrom, lookupCell]
  | cons x rest ih =>
    by_cases h : k = i
    · subst h
      simp [cellsFrom, lookupCell]
    · by_cases hk : k ≤ i
      · have e : i - k = (i - (k + 1)) + 1 := by omega
        have hk' : k + 1 ≤ i := by omega
        simp [cellsFrom, lookupCell, h, ih, hk, hk', e]
      · have hk' : ¬ k + 1 ≤ i := by omega
        simp [cellsFrom, lookupCell, h, ih, hk, hk']

/-- A memory replaced wholesale holds byte i of the image at i, and nothing beyond. -/
@[simp] theorem get?_ofBytes (b : List Byte) (i : Nat) : (Memory.ofBytes b).get? i = b[i]? := by
  simp [Memory.ofBytes, Memory.get?, lookupCell_cellsFrom]

theorem mem_cellsFrom {b : List Byte} {k : Nat} {c : Host.Cell} (h : c ∈ cellsFrom k b) :
    k ≤ c.1 ∧ c.1 < k + b.length := by
  induction b generalizing k with
  | nil => simp [cellsFrom] at h
  | cons x rest ih =>
    rcases List.mem_cons.mp h with rfl | h
    · simp
    · have := ih h
      simp only [List.length_cons]
      omega

theorem ofBytes_wf (b : List Byte) : (Memory.ofBytes b).wf := by
  suffices h : ∀ k, (cellsFrom k b).Pairwise fun c d => c.1 < d.1 from h 0
  induction b with
  | nil => simp [cellsFrom]
  | cons x rest ih =>
    intro k
    exact List.pairwise_cons.mpr ⟨fun c hc => (mem_cellsFrom hc).1, ih (k + 1)⟩

theorem ofBytes_below {b : List Byte} {n : Nat} (h : b.length ≤ n) : (Memory.ofBytes b).below n :=
  fun c hc => by
    have := (mem_cellsFrom hc).2
    omega

end Sys2Proof.Machine
end

