-- ==== Sys2Proof/Laws/State.lean ====
section
/-! SUPPORT. What each update of the state does to each field: one lemma per field, true by definition. -/

namespace Sys2Proof.Machine

variable (s : State)

/-! ## `record` -/

@[simp] theorem record_cfg (e : Event) : (record e s).cfg = s.cfg := rfl
@[simp] theorem record_rom (e : Event) : (record e s).rom = s.rom := rfl
@[simp] theorem record_vram (e : Event) : (record e s).vram = s.vram := rfl
@[simp] theorem record_irqLines (e : Event) : (record e s).irqLines = s.irqLines := rfl
@[simp] theorem record_ipl (e : Event) : (record e s).ipl = s.ipl := rfl
@[simp] theorem record_cpuBalance (e : Event) : (record e s).cpuBalance = s.cpuBalance := rfl
@[simp] theorem record_frameBalance (e : Event) : (record e s).frameBalance = s.frameBalance := rfl
@[simp] theorem record_frameDone (e : Event) : (record e s).frameDone = s.frameDone := rfl
@[simp] theorem record_mode (e : Event) : (record e s).mode = s.mode := rfl
@[simp] theorem record_recording (e : Event) : (record e s).recording = s.recording := rfl
@[simp] theorem record_underrun (e : Event) : (record e s).underrun = s.underrun := rfl
@[simp] theorem record_equalrun (e : Event) : (record e s).equalrun = s.equalrun := rfl
@[simp] theorem record_overrun (e : Event) : (record e s).overrun = s.overrun := rfl
@[simp] theorem record_lapUnder (e : Event) : (record e s).lapUnder = s.lapUnder := rfl
@[simp] theorem record_lapEqual (e : Event) : (record e s).lapEqual = s.lapEqual := rfl
@[simp] theorem record_lapOver (e : Event) : (record e s).lapOver = s.lapOver := rfl
@[simp] theorem record_divRem (e : Event) : (record e s).divRem = s.divRem := rfl
@[simp] theorem record_commands (e : Event) : (record e s).commands = s.commands := rfl
@[simp] theorem record_status (e : Event) : (record e s).status = s.status := rfl
@[simp] theorem record_result (e : Event) : (record e s).result = s.result := rfl
@[simp] theorem record_trace (e : Event) : (record e s).trace = s.trace ++ [e] := rfl
@[simp] theorem record_env (e : Event) : (record e s).env = s.env := rfl

/-! ## `answer` -/

@[simp] theorem answer_cfg (r : Result) : (answer r s).cfg = s.cfg := rfl
@[simp] theorem answer_rom (r : Result) : (answer r s).rom = s.rom := rfl
@[simp] theorem answer_vram (r : Result) : (answer r s).vram = s.vram := rfl
@[simp] theorem answer_irqLines (r : Result) : (answer r s).irqLines = s.irqLines := rfl
@[simp] theorem answer_ipl (r : Result) : (answer r s).ipl = s.ipl := rfl
@[simp] theorem answer_cpuBalance (r : Result) : (answer r s).cpuBalance = s.cpuBalance := rfl
@[simp] theorem answer_frameBalance (r : Result) : (answer r s).frameBalance = s.frameBalance := rfl
@[simp] theorem answer_frameDone (r : Result) : (answer r s).frameDone = s.frameDone := rfl
@[simp] theorem answer_mode (r : Result) : (answer r s).mode = s.mode := rfl
@[simp] theorem answer_recording (r : Result) : (answer r s).recording = s.recording := rfl
@[simp] theorem answer_underrun (r : Result) : (answer r s).underrun = s.underrun := rfl
@[simp] theorem answer_equalrun (r : Result) : (answer r s).equalrun = s.equalrun := rfl
@[simp] theorem answer_overrun (r : Result) : (answer r s).overrun = s.overrun := rfl
@[simp] theorem answer_lapUnder (r : Result) : (answer r s).lapUnder = s.lapUnder := rfl
@[simp] theorem answer_lapEqual (r : Result) : (answer r s).lapEqual = s.lapEqual := rfl
@[simp] theorem answer_lapOver (r : Result) : (answer r s).lapOver = s.lapOver := rfl
@[simp] theorem answer_divRem (r : Result) : (answer r s).divRem = s.divRem := rfl
@[simp] theorem answer_commands (r : Result) : (answer r s).commands = s.commands := rfl
@[simp] theorem answer_status (r : Result) : (answer r s).status = .ok := rfl
@[simp] theorem answer_result (r : Result) : (answer r s).result = r := rfl
@[simp] theorem answer_trace (r : Result) : (answer r s).trace = s.trace := rfl
@[simp] theorem answer_env (r : Result) : (answer r s).env = s.env := rfl

/-! ## `raise` -/

@[simp] theorem raise_cfg (st : Status) : (raise st s).cfg = s.cfg := rfl
@[simp] theorem raise_rom (st : Status) : (raise st s).rom = s.rom := rfl
@[simp] theorem raise_vram (st : Status) : (raise st s).vram = s.vram := rfl
@[simp] theorem raise_irqLines (st : Status) : (raise st s).irqLines = s.irqLines := rfl
@[simp] theorem raise_ipl (st : Status) : (raise st s).ipl = s.ipl := rfl
@[simp] theorem raise_cpuBalance (st : Status) : (raise st s).cpuBalance = s.cpuBalance := rfl
@[simp] theorem raise_frameBalance (st : Status) : (raise st s).frameBalance = s.frameBalance := rfl
@[simp] theorem raise_frameDone (st : Status) : (raise st s).frameDone = s.frameDone := rfl
@[simp] theorem raise_mode (st : Status) : (raise st s).mode = s.mode := rfl
@[simp] theorem raise_recording (st : Status) : (raise st s).recording = s.recording := rfl
@[simp] theorem raise_underrun (st : Status) : (raise st s).underrun = s.underrun := rfl
@[simp] theorem raise_equalrun (st : Status) : (raise st s).equalrun = s.equalrun := rfl
@[simp] theorem raise_overrun (st : Status) : (raise st s).overrun = s.overrun := rfl
@[simp] theorem raise_lapUnder (st : Status) : (raise st s).lapUnder = s.lapUnder := rfl
@[simp] theorem raise_lapEqual (st : Status) : (raise st s).lapEqual = s.lapEqual := rfl
@[simp] theorem raise_lapOver (st : Status) : (raise st s).lapOver = s.lapOver := rfl
@[simp] theorem raise_divRem (st : Status) : (raise st s).divRem = s.divRem := rfl
@[simp] theorem raise_commands (st : Status) : (raise st s).commands = s.commands := rfl
@[simp] theorem raise_status (st : Status) : (raise st s).status = st := rfl
@[simp] theorem raise_result (st : Status) : (raise st s).result = .none := rfl
@[simp] theorem raise_trace (st : Status) : (raise st s).trace = s.trace := rfl
@[simp] theorem raise_env (st : Status) : (raise st s).env = s.env := rfl

/-! ## `countDraw` -/

@[simp] theorem countDraw_cfg : (countDraw s).cfg = s.cfg := rfl
@[simp] theorem countDraw_rom : (countDraw s).rom = s.rom := rfl
@[simp] theorem countDraw_vram : (countDraw s).vram = s.vram := rfl
@[simp] theorem countDraw_irqLines : (countDraw s).irqLines = s.irqLines := rfl
@[simp] theorem countDraw_ipl : (countDraw s).ipl = s.ipl := rfl
@[simp] theorem countDraw_cpuBalance : (countDraw s).cpuBalance = s.cpuBalance := rfl
@[simp] theorem countDraw_frameBalance : (countDraw s).frameBalance = s.frameBalance := rfl
@[simp] theorem countDraw_frameDone : (countDraw s).frameDone = s.frameDone := rfl
@[simp] theorem countDraw_mode : (countDraw s).mode = s.mode := rfl
@[simp] theorem countDraw_recording : (countDraw s).recording = s.recording := rfl
@[simp] theorem countDraw_underrun : (countDraw s).underrun = s.underrun := rfl
@[simp] theorem countDraw_equalrun : (countDraw s).equalrun = s.equalrun := rfl
@[simp] theorem countDraw_overrun : (countDraw s).overrun = s.overrun := rfl
@[simp] theorem countDraw_lapUnder : (countDraw s).lapUnder = s.lapUnder := rfl
@[simp] theorem countDraw_lapEqual : (countDraw s).lapEqual = s.lapEqual := rfl
@[simp] theorem countDraw_lapOver : (countDraw s).lapOver = s.lapOver := rfl
@[simp] theorem countDraw_divRem : (countDraw s).divRem = s.divRem := rfl
@[simp] theorem countDraw_commands : (countDraw s).commands = s.commands := rfl
@[simp] theorem countDraw_status : (countDraw s).status = s.status := rfl
@[simp] theorem countDraw_result : (countDraw s).result = s.result := rfl
@[simp] theorem countDraw_trace : (countDraw s).trace = s.trace := rfl
@[simp] theorem countDraw_env : (countDraw s).env = { s.env with drawn := s.env.drawn + 1 } := rfl

/-! ## `writeVram` -/

@[simp] theorem writeVram_cfg (a : Addr) (v : Byte) : (writeVram a v s).cfg = s.cfg := rfl
@[simp] theorem writeVram_rom (a : Addr) (v : Byte) : (writeVram a v s).rom = s.rom := rfl
@[simp] theorem writeVram_vram (a : Addr) (v : Byte) : (writeVram a v s).vram = s.vram.set a.toNat v := rfl
@[simp] theorem writeVram_irqLines (a : Addr) (v : Byte) : (writeVram a v s).irqLines = s.irqLines := rfl
@[simp] theorem writeVram_ipl (a : Addr) (v : Byte) : (writeVram a v s).ipl = s.ipl := rfl
@[simp] theorem writeVram_cpuBalance (a : Addr) (v : Byte) : (writeVram a v s).cpuBalance = s.cpuBalance := rfl
@[simp] theorem writeVram_frameBalance (a : Addr) (v : Byte) : (writeVram a v s).frameBalance = s.frameBalance := rfl
@[simp] theorem writeVram_frameDone (a : Addr) (v : Byte) : (writeVram a v s).frameDone = s.frameDone := rfl
@[simp] theorem writeVram_mode (a : Addr) (v : Byte) : (writeVram a v s).mode = s.mode := rfl
@[simp] theorem writeVram_recording (a : Addr) (v : Byte) : (writeVram a v s).recording = s.recording := rfl
@[simp] theorem writeVram_underrun (a : Addr) (v : Byte) : (writeVram a v s).underrun = s.underrun := rfl
@[simp] theorem writeVram_equalrun (a : Addr) (v : Byte) : (writeVram a v s).equalrun = s.equalrun := rfl
@[simp] theorem writeVram_overrun (a : Addr) (v : Byte) : (writeVram a v s).overrun = s.overrun := rfl
@[simp] theorem writeVram_lapUnder (a : Addr) (v : Byte) : (writeVram a v s).lapUnder = s.lapUnder := rfl
@[simp] theorem writeVram_lapEqual (a : Addr) (v : Byte) : (writeVram a v s).lapEqual = s.lapEqual := rfl
@[simp] theorem writeVram_lapOver (a : Addr) (v : Byte) : (writeVram a v s).lapOver = s.lapOver := rfl
@[simp] theorem writeVram_divRem (a : Addr) (v : Byte) : (writeVram a v s).divRem = s.divRem := rfl
@[simp] theorem writeVram_commands (a : Addr) (v : Byte) : (writeVram a v s).commands = s.commands := rfl
@[simp] theorem writeVram_status (a : Addr) (v : Byte) : (writeVram a v s).status = s.status := rfl
@[simp] theorem writeVram_result (a : Addr) (v : Byte) : (writeVram a v s).result = s.result := rfl
@[simp] theorem writeVram_trace (a : Addr) (v : Byte) : (writeVram a v s).trace = s.trace := rfl
@[simp] theorem writeVram_env (a : Addr) (v : Byte) : (writeVram a v s).env = s.env := rfl

/-! ## `withExecs` -/

@[simp] theorem withExecs_cfg (l : List ExecReply) : (withExecs l s).cfg = s.cfg := rfl
@[simp] theorem withExecs_rom (l : List ExecReply) : (withExecs l s).rom = s.rom := rfl
@[simp] theorem withExecs_vram (l : List ExecReply) : (withExecs l s).vram = s.vram := rfl
@[simp] theorem withExecs_irqLines (l : List ExecReply) : (withExecs l s).irqLines = s.irqLines := rfl
@[simp] theorem withExecs_ipl (l : List ExecReply) : (withExecs l s).ipl = s.ipl := rfl
@[simp] theorem withExecs_cpuBalance (l : List ExecReply) : (withExecs l s).cpuBalance = s.cpuBalance := rfl
@[simp] theorem withExecs_frameBalance (l : List ExecReply) : (withExecs l s).frameBalance = s.frameBalance := rfl
@[simp] theorem withExecs_frameDone (l : List ExecReply) : (withExecs l s).frameDone = s.frameDone := rfl
@[simp] theorem withExecs_mode (l : List ExecReply) : (withExecs l s).mode = s.mode := rfl
@[simp] theorem withExecs_recording (l : List ExecReply) : (withExecs l s).recording = s.recording := rfl
@[simp] theorem withExecs_underrun (l : List ExecReply) : (withExecs l s).underrun = s.underrun := rfl
@[simp] theorem withExecs_equalrun (l : List ExecReply) : (withExecs l s).equalrun = s.equalrun := rfl
@[simp] theorem withExecs_overrun (l : List ExecReply) : (withExecs l s).overrun = s.overrun := rfl
@[simp] theorem withExecs_lapUnder (l : List ExecReply) : (withExecs l s).lapUnder = s.lapUnder := rfl
@[simp] theorem withExecs_lapEqual (l : List ExecReply) : (withExecs l s).lapEqual = s.lapEqual := rfl
@[simp] theorem withExecs_lapOver (l : List ExecReply) : (withExecs l s).lapOver = s.lapOver := rfl
@[simp] theorem withExecs_divRem (l : List ExecReply) : (withExecs l s).divRem = s.divRem := rfl
@[simp] theorem withExecs_commands (l : List ExecReply) : (withExecs l s).commands = s.commands := rfl
@[simp] theorem withExecs_status (l : List ExecReply) : (withExecs l s).status = s.status := rfl
@[simp] theorem withExecs_result (l : List ExecReply) : (withExecs l s).result = s.result := rfl
@[simp] theorem withExecs_trace (l : List ExecReply) : (withExecs l s).trace = s.trace := rfl
@[simp] theorem withExecs_env (l : List ExecReply) : (withExecs l s).env = { s.env with execs := l } := rfl

/-! ## `withBlits` -/

@[simp] theorem withBlits_cfg (l : List BlitReply) : (withBlits l s).cfg = s.cfg := rfl
@[simp] theorem withBlits_rom (l : List BlitReply) : (withBlits l s).rom = s.rom := rfl
@[simp] theorem withBlits_vram (l : List BlitReply) : (withBlits l s).vram = s.vram := rfl
@[simp] theorem withBlits_irqLines (l : List BlitReply) : (withBlits l s).irqLines = s.irqLines := rfl
@[simp] theorem withBlits_ipl (l : List BlitReply) : (withBlits l s).ipl = s.ipl := rfl
@[simp] theorem withBlits_cpuBalance (l : List BlitReply) : (withBlits l s).cpuBalance = s.cpuBalance := rfl
@[simp] theorem withBlits_frameBalance (l : List BlitReply) : (withBlits l s).frameBalance = s.frameBalance := rfl
@[simp] theorem withBlits_frameDone (l : List BlitReply) : (withBlits l s).frameDone = s.frameDone := rfl
@[simp] theorem withBlits_mode (l : List BlitReply) : (withBlits l s).mode = s.mode := rfl
@[simp] theorem withBlits_recording (l : List BlitReply) : (withBlits l s).recording = s.recording := rfl
@[simp] theorem withBlits_underrun (l : List BlitReply) : (withBlits l s).underrun = s.underrun := rfl
@[simp] theorem withBlits_equalrun (l : List BlitReply) : (withBlits l s).equalrun = s.equalrun := rfl
@[simp] theorem withBlits_overrun (l : List BlitReply) : (withBlits l s).overrun = s.overrun := rfl
@[simp] theorem withBlits_lapUnder (l : List BlitReply) : (withBlits l s).lapUnder = s.lapUnder := rfl
@[simp] theorem withBlits_lapEqual (l : List BlitReply) : (withBlits l s).lapEqual = s.lapEqual := rfl
@[simp] theorem withBlits_lapOver (l : List BlitReply) : (withBlits l s).lapOver = s.lapOver := rfl
@[simp] theorem withBlits_divRem (l : List BlitReply) : (withBlits l s).divRem = s.divRem := rfl
@[simp] theorem withBlits_commands (l : List BlitReply) : (withBlits l s).commands = s.commands := rfl
@[simp] theorem withBlits_status (l : List BlitReply) : (withBlits l s).status = s.status := rfl
@[simp] theorem withBlits_result (l : List BlitReply) : (withBlits l s).result = s.result := rfl
@[simp] theorem withBlits_trace (l : List BlitReply) : (withBlits l s).trace = s.trace := rfl
@[simp] theorem withBlits_env (l : List BlitReply) : (withBlits l s).env = { s.env with blits := l } := rfl

/-! ## `withClock` -/

@[simp] theorem withClock_cfg (c : Nat) : (withClock c s).cfg = s.cfg := rfl
@[simp] theorem withClock_rom (c : Nat) : (withClock c s).rom = s.rom := rfl
@[simp] theorem withClock_vram (c : Nat) : (withClock c s).vram = s.vram := rfl
@[simp] theorem withClock_irqLines (c : Nat) : (withClock c s).irqLines = s.irqLines := rfl
@[simp] theorem withClock_ipl (c : Nat) : (withClock c s).ipl = s.ipl := rfl
@[simp] theorem withClock_cpuBalance (c : Nat) : (withClock c s).cpuBalance = s.cpuBalance := rfl
@[simp] theorem withClock_frameBalance (c : Nat) : (withClock c s).frameBalance = s.frameBalance := rfl
@[simp] theorem withClock_frameDone (c : Nat) : (withClock c s).frameDone = s.frameDone := rfl
@[simp] theorem withClock_mode (c : Nat) : (withClock c s).mode = s.mode := rfl
@[simp] theorem withClock_recording (c : Nat) : (withClock c s).recording = s.recording := rfl
@[simp] theorem withClock_underrun (c : Nat) : (withClock c s).underrun = s.underrun := rfl
@[simp] theorem withClock_equalrun (c : Nat) : (withClock c s).equalrun = s.equalrun := rfl
@[simp] theorem withClock_overrun (c : Nat) : (withClock c s).overrun = s.overrun := rfl
@[simp] theorem withClock_lapUnder (c : Nat) : (withClock c s).lapUnder = s.lapUnder := rfl
@[simp] theorem withClock_lapEqual (c : Nat) : (withClock c s).lapEqual = s.lapEqual := rfl
@[simp] theorem withClock_lapOver (c : Nat) : (withClock c s).lapOver = s.lapOver := rfl
@[simp] theorem withClock_divRem (c : Nat) : (withClock c s).divRem = s.divRem := rfl
@[simp] theorem withClock_commands (c : Nat) : (withClock c s).commands = s.commands := rfl
@[simp] theorem withClock_status (c : Nat) : (withClock c s).status = s.status := rfl
@[simp] theorem withClock_result (c : Nat) : (withClock c s).result = s.result := rfl
@[simp] theorem withClock_trace (c : Nat) : (withClock c s).trace = s.trace := rfl
@[simp] theorem withClock_env (c : Nat) : (withClock c s).env = { s.env with clock := c } := rfl

/-! ## `presentNext` -/

@[simp] theorem presentNext_cfg (c : Command) : (presentNext c s).cfg = s.cfg := rfl
@[simp] theorem presentNext_rom (c : Command) : (presentNext c s).rom = s.rom := rfl
@[simp] theorem presentNext_vram (c : Command) : (presentNext c s).vram = s.vram := rfl
@[simp] theorem presentNext_irqLines (c : Command) : (presentNext c s).irqLines = s.irqLines := rfl
@[simp] theorem presentNext_ipl (c : Command) : (presentNext c s).ipl = s.ipl := rfl
@[simp] theorem presentNext_cpuBalance (c : Command) : (presentNext c s).cpuBalance = s.cpuBalance := rfl
@[simp] theorem presentNext_frameBalance (c : Command) : (presentNext c s).frameBalance = s.frameBalance := rfl
@[simp] theorem presentNext_frameDone (c : Command) : (presentNext c s).frameDone = s.frameDone := rfl
@[simp] theorem presentNext_mode (c : Command) : (presentNext c s).mode = s.mode := rfl
@[simp] theorem presentNext_recording (c : Command) : (presentNext c s).recording = s.recording := rfl
@[simp] theorem presentNext_underrun (c : Command) : (presentNext c s).underrun = s.underrun := rfl
@[simp] theorem presentNext_equalrun (c : Command) : (presentNext c s).equalrun = s.equalrun := rfl
@[simp] theorem presentNext_overrun (c : Command) : (presentNext c s).overrun = s.overrun := rfl
@[simp] theorem presentNext_lapUnder (c : Command) : (presentNext c s).lapUnder = s.lapUnder := rfl
@[simp] theorem presentNext_lapEqual (c : Command) : (presentNext c s).lapEqual = s.lapEqual := rfl
@[simp] theorem presentNext_lapOver (c : Command) : (presentNext c s).lapOver = s.lapOver := rfl
@[simp] theorem presentNext_divRem (c : Command) : (presentNext c s).divRem = s.divRem := rfl
@[simp] theorem presentNext_commands (c : Command) : (presentNext c s).commands = c :: s.commands.drop 1 := rfl
@[simp] theorem presentNext_status (c : Command) : (presentNext c s).status = s.status := rfl
@[simp] theorem presentNext_result (c : Command) : (presentNext c s).result = s.result := rfl
@[simp] theorem presentNext_trace (c : Command) : (presentNext c s).trace = s.trace := rfl
@[simp] theorem presentNext_env (c : Command) : (presentNext c s).env = s.env := rfl

/-! ## `clearScheduler` -/

@[simp] theorem clearScheduler_cfg : (clearScheduler s).cfg = s.cfg := rfl
@[simp] theorem clearScheduler_rom : (clearScheduler s).rom = s.rom := rfl
@[simp] theorem clearScheduler_vram : (clearScheduler s).vram = s.vram := rfl
@[simp] theorem clearScheduler_irqLines : (clearScheduler s).irqLines = s.irqLines := rfl
@[simp] theorem clearScheduler_ipl : (clearScheduler s).ipl = s.ipl := rfl
@[simp] theorem clearScheduler_cpuBalance : (clearScheduler s).cpuBalance = 0 := rfl
@[simp] theorem clearScheduler_frameBalance : (clearScheduler s).frameBalance = 0 := rfl
@[simp] theorem clearScheduler_frameDone : (clearScheduler s).frameDone = false := rfl
@[simp] theorem clearScheduler_mode : (clearScheduler s).mode = s.mode := rfl
@[simp] theorem clearScheduler_recording : (clearScheduler s).recording = s.recording := rfl
@[simp] theorem clearScheduler_underrun : (clearScheduler s).underrun = 0 := rfl
@[simp] theorem clearScheduler_equalrun : (clearScheduler s).equalrun = 0 := rfl
@[simp] theorem clearScheduler_overrun : (clearScheduler s).overrun = 0 := rfl
@[simp] theorem clearScheduler_lapUnder : (clearScheduler s).lapUnder = 0 := rfl
@[simp] theorem clearScheduler_lapEqual : (clearScheduler s).lapEqual = 0 := rfl
@[simp] theorem clearScheduler_lapOver : (clearScheduler s).lapOver = 0 := rfl
@[simp] theorem clearScheduler_divRem : (clearScheduler s).divRem = s.divRem := rfl
@[simp] theorem clearScheduler_commands : (clearScheduler s).commands = s.commands := rfl
@[simp] theorem clearScheduler_status : (clearScheduler s).status = s.status := rfl
@[simp] theorem clearScheduler_result : (clearScheduler s).result = s.result := rfl
@[simp] theorem clearScheduler_trace : (clearScheduler s).trace = s.trace := rfl
@[simp] theorem clearScheduler_env : (clearScheduler s).env = s.env := rfl

/-! ## `own` and `block` -/

@[simp] theorem own_record (e : Event) : (record e s).own = s.own := rfl
@[simp] theorem own_countDraw : (countDraw s).own = s.own := rfl
@[simp] theorem own_writeVram (a : Addr) (v : Byte) : (writeVram a v s).own = s.own := rfl
@[simp] theorem own_withExecs (l : List ExecReply) : (withExecs l s).own = s.own := rfl
@[simp] theorem own_withBlits (l : List BlitReply) : (withBlits l s).own = s.own := rfl
@[simp] theorem own_withClock (c : Nat) : (withClock c s).own = s.own := rfl
@[simp] theorem block_record (e : Event) : (record e s).block = s.block := rfl
@[simp] theorem block_answer (r : Result) : (answer r s).block = s.block := rfl
@[simp] theorem block_raise (st : Status) : (raise st s).block = s.block := rfl
@[simp] theorem block_countDraw : (countDraw s).block = s.block := rfl
@[simp] theorem block_withExecs (l : List ExecReply) : (withExecs l s).block = s.block := rfl
@[simp] theorem block_withBlits (l : List BlitReply) : (withBlits l s).block = s.block := rfl
@[simp] theorem block_withClock (c : Nat) : (withClock c s).block = s.block := rfl

variable {s} {t : State}

theorem cfg_of_own (h : t.own = s.own) : t.cfg = s.cfg := (congrArg State.cfg h :)
theorem rom_of_own (h : t.own = s.own) : t.rom = s.rom := (congrArg State.rom h :)
theorem cpuBalance_of_own (h : t.own = s.own) : t.cpuBalance = s.cpuBalance := (congrArg State.cpuBalance h :)
theorem frameBalance_of_own (h : t.own = s.own) : t.frameBalance = s.frameBalance := (congrArg State.frameBalance h :)
theorem frameDone_of_own (h : t.own = s.own) : t.frameDone = s.frameDone := (congrArg State.frameDone h :)
theorem mode_of_own (h : t.own = s.own) : t.mode = s.mode := (congrArg State.mode h :)
theorem recording_of_own (h : t.own = s.own) : t.recording = s.recording := (congrArg State.recording h :)
theorem underrun_of_own (h : t.own = s.own) : t.underrun = s.underrun := (congrArg State.underrun h :)
theorem equalrun_of_own (h : t.own = s.own) : t.equalrun = s.equalrun := (congrArg State.equalrun h :)
theorem overrun_of_own (h : t.own = s.own) : t.overrun = s.overrun := (congrArg State.overrun h :)
theorem lapUnder_of_own (h : t.own = s.own) : t.lapUnder = s.lapUnder := (congrArg State.lapUnder h :)
theorem lapEqual_of_own (h : t.own = s.own) : t.lapEqual = s.lapEqual := (congrArg State.lapEqual h :)
theorem lapOver_of_own (h : t.own = s.own) : t.lapOver = s.lapOver := (congrArg State.lapOver h :)
theorem divRem_of_own (h : t.own = s.own) : t.divRem = s.divRem := (congrArg State.divRem h :)
theorem commands_of_own (h : t.own = s.own) : t.commands = s.commands := (congrArg State.commands h :)
theorem status_of_own (h : t.own = s.own) : t.status = s.status := (congrArg State.status h :)
theorem result_of_own (h : t.own = s.own) : t.result = s.result := (congrArg State.result h :)

theorem levels_of_own (h : t.own = s.own) : t.levels = s.levels := by
  have := congrArg (fun u : State => u.irqLines.map IrqLine.level) h
  simpa [State.own, State.levels, Function.comp_def] using this

theorem irqCount_of_own (h : t.own = s.own) : t.irqCount = s.irqCount := by
  have := congrArg List.length (levels_of_own h)
  simpa [State.levels, State.irqCount] using this

theorem cfg_of_block (h : t.block = s.block) : t.cfg = s.cfg := (congrArg State.cfg h :)
theorem rom_of_block (h : t.block = s.block) : t.rom = s.rom := (congrArg State.rom h :)
theorem vram_of_block (h : t.block = s.block) : t.vram = s.vram := (congrArg State.vram h :)
theorem irqLines_of_block (h : t.block = s.block) : t.irqLines = s.irqLines := (congrArg State.irqLines h :)
theorem ipl_of_block (h : t.block = s.block) : t.ipl = s.ipl := (congrArg State.ipl h :)
theorem cpuBalance_of_block (h : t.block = s.block) : t.cpuBalance = s.cpuBalance := (congrArg State.cpuBalance h :)
theorem frameBalance_of_block (h : t.block = s.block) : t.frameBalance = s.frameBalance := (congrArg State.frameBalance h :)
theorem frameDone_of_block (h : t.block = s.block) : t.frameDone = s.frameDone := (congrArg State.frameDone h :)
theorem mode_of_block (h : t.block = s.block) : t.mode = s.mode := (congrArg State.mode h :)
theorem recording_of_block (h : t.block = s.block) : t.recording = s.recording := (congrArg State.recording h :)
theorem underrun_of_block (h : t.block = s.block) : t.underrun = s.underrun := (congrArg State.underrun h :)
theorem equalrun_of_block (h : t.block = s.block) : t.equalrun = s.equalrun := (congrArg State.equalrun h :)
theorem overrun_of_block (h : t.block = s.block) : t.overrun = s.overrun := (congrArg State.overrun h :)
theorem lapUnder_of_block (h : t.block = s.block) : t.lapUnder = s.lapUnder := (congrArg State.lapUnder h :)
theorem lapEqual_of_block (h : t.block = s.block) : t.lapEqual = s.lapEqual := (congrArg State.lapEqual h :)
theorem lapOver_of_block (h : t.block = s.block) : t.lapOver = s.lapOver := (congrArg State.lapOver h :)
theorem divRem_of_block (h : t.block = s.block) : t.divRem = s.divRem := (congrArg State.divRem h :)

end Sys2Proof.Machine
end

