-- ==== Sys2Proof/Laws/Ops.lean ====
section
/-! SUPPORT. What the shared operations can do. Each leaves the `own` part of the state alone (nested
operations of agents change video memory, pulled lines and the level only), and keeps the invariant's
part about video memory and the level. -/

namespace Sys2Proof.Machine

/-! ## Inputs -/

@[simp] theorem own_takeDevReply (s : State) : (takeDevReply s).2.own = s.own := by
  unfold takeDevReply; split <;> rfl
@[simp] theorem block_takeDevReply (s : State) : (takeDevReply s).2.block = s.block := by
  unfold takeDevReply; split <;> rfl
@[simp] theorem trace_takeDevReply (s : State) : (takeDevReply s).2.trace = s.trace := by
  unfold takeDevReply; split <;> rfl
@[simp] theorem own_takeOccupancy (s : State) : (takeOccupancy s).2.own = s.own := by
  unfold takeOccupancy; split <;> rfl
@[simp] theorem block_takeOccupancy (s : State) : (takeOccupancy s).2.block = s.block := by
  unfold takeOccupancy; split <;> rfl
@[simp] theorem trace_takeOccupancy (s : State) : (takeOccupancy s).2.trace = s.trace := by
  unfold takeOccupancy; split <;> rfl
@[simp] theorem own_takeRomFile (s : State) : (takeRomFile s).2.own = s.own := by
  unfold takeRomFile; split <;> rfl
@[simp] theorem block_takeRomFile (s : State) : (takeRomFile s).2.block = s.block := by
  unfold takeRomFile; split <;> rfl
@[simp] theorem trace_takeRomFile (s : State) : (takeRomFile s).2.trace = s.trace := by
  unfold takeRomFile; split <;> rfl
@[simp] theorem own_takeBinFile (s : State) : (takeBinFile s).2.own = s.own := by
  unfold takeBinFile; split <;> rfl
@[simp] theorem block_takeBinFile (s : State) : (takeBinFile s).2.block = s.block := by
  unfold takeBinFile; split <;> rfl
@[simp] theorem trace_takeBinFile (s : State) : (takeBinFile s).2.trace = s.trace := by
  unfold takeBinFile; split <;> rfl
@[simp] theorem own_takeResetOps (s : State) : (takeResetOps s).2.own = s.own := by
  unfold takeResetOps; split <;> rfl
@[simp] theorem block_takeResetOps (s : State) : (takeResetOps s).2.block = s.block := by
  unfold takeResetOps; split <;> rfl
@[simp] theorem trace_takeResetOps (s : State) : (takeResetOps s).2.trace = s.trace := by
  unfold takeResetOps; split <;> rfl
@[simp] theorem own_takeExec (s : State) : (takeExec s).own = s.own := by
  unfold takeExec; split <;> rfl
@[simp] theorem block_takeExec (s : State) : (takeExec s).block = s.block := by
  unfold takeExec; split <;> rfl
@[simp] theorem trace_takeExec (s : State) : (takeExec s).trace = s.trace := by
  unfold takeExec; split <;> rfl
@[simp] theorem execs_takeExec (s : State) : (takeExec s).env.execs = s.env.execs.drop 1 := by
  unfold takeExec; split <;> simp_all
@[simp] theorem clock_takeExec (s : State) : (takeExec s).env.clock = s.env.clock := by
  unfold takeExec; split <;> rfl
@[simp] theorem own_takeBlit (s : State) : (takeBlit s).own = s.own := by
  unfold takeBlit; split <;> rfl
@[simp] theorem block_takeBlit (s : State) : (takeBlit s).block = s.block := by
  unfold takeBlit; split <;> rfl
@[simp] theorem trace_takeBlit (s : State) : (takeBlit s).trace = s.trace := by
  unfold takeBlit; split <;> rfl

/-! ## The interrupt table -/

theorem map_modify_of_eq {α β : Type} (f : α → β) (g : α → α) (h : ∀ x, f (g x) = f x)
    (l : List α) (i : Nat) : (l.modify i g).map f = l.map f := by
  apply List.ext_getElem?
  intro j
  rw [List.getElem?_map, List.getElem?_map, List.getElem?_modify]
  cases l[j]? with
  | none => rfl
  | some x => by_cases hij : i = j <;> simp [hij, h]

@[simp] theorem length_setLine (lines : List IrqLine) (h : Nat) (p : Bool) :
    (setLine lines h p).length = lines.length := by simp [setLine]

theorem getElem?_setLine (lines : List IrqLine) (h j : Nat) (p : Bool) :
    (setLine lines h p)[j]? = if h = j then lines[j]?.map (fun l => { l with asserted := p })
      else lines[j]? := by
  unfold setLine
  rw [List.getElem?_modify]
  by_cases hj : h = j <;> cases lines[j]? <;> simp [hj]

@[simp] theorem own_recompute (s : State) : (recompute s).own = s.own := by
  unfold recompute; dsimp only; split <;> rfl

@[simp] theorem recompute_irqLines (s : State) : (recompute s).irqLines = s.irqLines := by
  unfold recompute; dsimp only; split <;> rfl
@[simp] theorem recompute_vram (s : State) : (recompute s).vram = s.vram := by
  unfold recompute; dsimp only; split <;> rfl
@[simp] theorem recompute_env (s : State) : (recompute s).env = s.env := by
  unfold recompute; dsimp only; split <;> rfl
@[simp] theorem recompute_ipl (s : State) : (recompute s).ipl = aggregateLevel s.irqLines := by
  unfold recompute; dsimp only; split <;> rfl

theorem own_setLine (s : State) (h : Nat) (p : Bool) :
    ({ s with irqLines := setLine s.irqLines h p } : State).own = s.own := by
  have : (setLine s.irqLines h p).map (fun line => { line with asserted := false })
      = s.irqLines.map fun line => { line with asserted := false } :=
    map_modify_of_eq _ (fun line : IrqLine => { line with asserted := p }) (fun _ => rfl) _ _
  simp only [State.own, this]

@[simp] theorem own_driveLine (h : Nat) (p : Bool) (s : State) :
    (driveLine h p s).2.own = s.own := by
  unfold driveLine
  split
  · exact (own_recompute _).trans (own_setLine s h p)
  · rfl

@[simp] theorem vram_driveLine (h : Nat) (p : Bool) (s : State) :
    (driveLine h p s).2.vram = s.vram := by
  unfold driveLine; split <;> simp

@[simp] theorem env_driveLine (h : Nat) (p : Bool) (s : State) :
    (driveLine h p s).2.env = s.env := by
  unfold driveLine; split <;> simp

theorem ipl_driveLine (h : Nat) (p : Bool) (s : State) (hs : s.ipl = aggregateLevel s.irqLines) :
    (driveLine h p s).2.ipl = aggregateLevel (driveLine h p s).2.irqLines := by
  unfold driveLine; split
  · simp
  · exact hs

/-! ## The part of the invariant nested operations touch -/

/-- Video memory in canonical form and in range, and the level up to date. -/
structure SharedInv (s : State) : Prop where
  vram_wf : s.vram.wf
  vram_below : s.vram.below addressSize
  ipl_eq : s.ipl = aggregateLevel s.irqLines

theorem SharedInv.of_eq {s t : State} (h : SharedInv s) (hv : t.vram = s.vram) (hi : t.ipl = s.ipl)
    (hl : t.irqLines = s.irqLines) : SharedInv t :=
  ⟨hv ▸ h.vram_wf, hv ▸ h.vram_below, by rw [hi, hl]; exact h.ipl_eq⟩

theorem SharedInv.of_block {s t : State} (h : SharedInv s) (hb : t.block = s.block) : SharedInv t :=
  h.of_eq (vram_of_block hb) (ipl_of_block hb) (irqLines_of_block hb)

theorem SharedInv.record {s : State} (h : SharedInv s) (e : Event) :
    SharedInv (Machine.record e s) := h.of_eq rfl rfl rfl

theorem SharedInv.countDraw {s : State} (h : SharedInv s) : SharedInv (Machine.countDraw s) :=
  h.of_eq rfl rfl rfl

theorem SharedInv.recompute {s : State} (h : SharedInv s) (lines : List IrqLine) :
    SharedInv (Machine.recompute { s with irqLines := lines }) where
  vram_wf := by simpa using h.vram_wf
  vram_below := by simpa using h.vram_below
  ipl_eq := by simp

theorem SharedInv.driveLine {s : State} (h : SharedInv s) (i : Nat) (p : Bool) :
    SharedInv (driveLine i p s).2 := by
  unfold Machine.driveLine
  split
  · exact h.recompute _
  · exact h

theorem SharedInv.writeVram {s : State} (h : SharedInv s) (a : Addr) (v : Byte) :
    SharedInv (writeVram a v s) where
  vram_wf := set_wf _ _ h.vram_wf
  vram_below := set_below _ h.vram_below a.isLt
  ipl_eq := h.ipl_eq

/-! ## Device calls -/

@[simp] theorem own_devOp (s : State) (o : DevOp) : (devOp s o).own = s.own := by
  cases o <;> simp [devOp]

theorem SharedInv.devOp {s : State} (h : SharedInv s) (o : DevOp) : SharedInv (devOp s o) := by
  cases o with
  | irqAssert i => exact (h.driveLine i true).record _
  | irqDeassert i => exact (h.driveLine i false).record _
  | vramRead a => exact h.record _
  | vramWrite a v => exact (h.writeVram a v).record _

theorem own_foldl_devOp (ops : List DevOp) (s : State) : (ops.foldl devOp s).own = s.own := by
  induction ops generalizing s with
  | nil => rfl
  | cons o rest ih => exact (ih _).trans (own_devOp s o)

theorem SharedInv.foldl_devOp {s : State} (h : SharedInv s) (ops : List DevOp) :
    SharedInv (ops.foldl Machine.devOp s) := by
  induction ops generalizing s with
  | nil => exact h
  | cons o rest ih => exact ih (h.devOp o)

@[simp] theorem own_devOps (call : DevCall) (ops : List DevOp) (s : State) :
    (devOps call ops s).own = s.own := own_foldl_devOp _ _

theorem SharedInv.devOps {s : State} (h : SharedInv s) (call : DevCall) (ops : List DevOp) :
    SharedInv (devOps call ops s) := h.foldl_devOp _

@[simp] theorem devOps_nil (call : DevCall) (s : State) : devOps call [] s = s := rfl

@[simp] theorem own_callDevice (call : DevCall) (s : State) : (callDevice call s).2.own = s.own := by
  simp [callDevice]

theorem SharedInv.callDevice {s : State} (h : SharedInv s) (call : DevCall) :
    SharedInv (callDevice call s).2 :=
  ((h.record _).of_block (block_takeDevReply _)).devOps _ _

@[simp] theorem own_runDevice (d : Dev) (n : Nat) (s : State) : (runDevice d n s).own = s.own :=
  own_callDevice _ _

theorem SharedInv.runDevice {s : State} (h : SharedInv s) (d : Dev) (n : Nat) :
    SharedInv (runDevice d n s) := h.callDevice _

/-! ## The bus -/

/-- What a byte read is: the byte of a target that is no device, with no effect, or a device's answer. -/
theorem read8_eq (a : Addr) (s : State) :
    (readsDevice s a = false ∧ read8 a s = (memoryByte s a, s)) ∨
    (∃ call, readsDevice s a = true ∧
      read8 a s = ((callDevice call s).1.value, (callDevice call s).2)) := by
  unfold read8 readsDevice memoryByte
  cases selectRead s.cfg a with
  | io d o => exact .inr ⟨.ioRead d o, rfl, rfl⟩
  | ctx o => exact .inr ⟨.ctxRead o, rfl, rfl⟩
  | _ => exact .inl ⟨rfl, rfl⟩

/-- What a byte write is: a write of video memory, a device's call, or nothing. -/
theorem write8_eq (a : Addr) (v : Byte) (s : State) :
    (∃ b, selectWrite s.cfg a = .vram b ∧ write8 a v s = writeVram b v s) ∨
    (∃ call, writesDevice s a = true ∧ write8 a v s = (callDevice call s).2) ∨
    (writesDevice s a = false ∧ write8 a v s = s) := by
  unfold write8 writesDevice
  cases selectWrite s.cfg a with
  | io d o => exact .inr (.inl ⟨.ioWrite d o v, rfl, rfl⟩)
  | ctx o => exact .inr (.inl ⟨.ctxWrite o v, rfl, rfl⟩)
  | vram b => exact .inl ⟨b, rfl, rfl⟩
  | _ => exact .inr (.inr ⟨rfl, rfl⟩)

@[simp] theorem own_read8 (a : Addr) (s : State) : (read8 a s).2.own = s.own := by
  obtain ⟨-, h⟩ | ⟨call, -, h⟩ := read8_eq a s <;> simp [h]

theorem SharedInv.read8 {s : State} (h : SharedInv s) (a : Addr) : SharedInv (read8 a s).2 := by
  obtain ⟨-, e⟩ | ⟨call, -, e⟩ := read8_eq a s
  · rw [e]; exact h
  · rw [e]; exact h.callDevice call

@[simp] theorem own_write8 (a : Addr) (v : Byte) (s : State) : (write8 a v s).own = s.own := by
  obtain ⟨b, -, h⟩ | ⟨call, -, h⟩ | ⟨-, h⟩ := write8_eq a v s <;> simp [h]

theorem SharedInv.write8 {s : State} (h : SharedInv s) (a : Addr) (v : Byte) :
    SharedInv (write8 a v s) := by
  obtain ⟨b, -, e⟩ | ⟨call, -, e⟩ | ⟨-, e⟩ := write8_eq a v s
  · rw [e]; exact h.writeVram b v
  · rw [e]; exact h.callDevice call
  · rw [e]; exact h

@[simp] theorem own_read16 (a : Addr) (s : State) : (read16 a s).2.own = s.own := by
  simp [read16]

theorem SharedInv.read16 {s : State} (h : SharedInv s) (a : Addr) : SharedInv (read16 a s).2 :=
  (h.read8 a).read8 _

@[simp] theorem own_write16 (a : Addr) (v : Half) (s : State) : (write16 a v s).own = s.own := by
  simp [write16]

theorem SharedInv.write16 {s : State} (h : SharedInv s) (a : Addr) (v : Half) :
    SharedInv (write16 a v s) := (h.write8 a _).write8 _ _

@[simp] theorem own_writeBytes (a : Addr) (b : List Byte) (s : State) :
    (writeBytes a b s).own = s.own := by
  induction b generalizing a s with
  | nil => rfl
  | cons x rest ih => exact (ih _ _).trans (own_write8 a x s)

theorem SharedInv.writeBytes {s : State} (h : SharedInv s) (a : Addr) (b : List Byte) :
    SharedInv (writeBytes a b s) := by
  induction b generalizing a s with
  | nil => exact h
  | cons x rest ih => exact ih (h.write8 a x) _

/-! ## The CPU core -/

@[simp] theorem own_cpuOp (s : State) (o : CpuOp) : (cpuOp s o).own = s.own := by
  cases o <;> simp [cpuOp]

theorem SharedInv.cpuOp {s : State} (h : SharedInv s) (o : CpuOp) : SharedInv (cpuOp s o) := by
  cases o with
  | rd8 a => exact (h.read8 _).record _
  | rd16 a => exact (h.read16 _).record _
  | wr8 a v => exact (h.write8 _ _).record _
  | wr16 a v => exact (h.write16 _ _).record _
  | irqGet => exact h.record _

theorem own_foldl_cpuOp (ops : List CpuOp) (s : State) : (ops.foldl cpuOp s).own = s.own := by
  induction ops generalizing s with
  | nil => rfl
  | cons o rest ih => exact (ih _).trans (own_cpuOp s o)

theorem SharedInv.foldl_cpuOp {s : State} (h : SharedInv s) (ops : List CpuOp) :
    SharedInv (ops.foldl Machine.cpuOp s) := by
  induction ops generalizing s with
  | nil => exact h
  | cons o rest ih => exact ih (h.cpuOp o)

@[simp] theorem own_cpuExecute (ops : List CpuOp) (s : State) : (cpuExecute ops s).own = s.own :=
  (own_foldl_cpuOp _ _).trans (own_record _ _)

theorem SharedInv.cpuExecute {s : State} (h : SharedInv s) (ops : List CpuOp) :
    SharedInv (cpuExecute ops s) := (h.record _).foldl_cpuOp _

@[simp] theorem own_cpuReset (s : State) : (cpuReset s).own = s.own := by
  simp [cpuReset, own_foldl_cpuOp]

theorem SharedInv.cpuReset {s : State} (h : SharedInv s) : SharedInv (cpuReset s) :=
  (((h.of_block (block_withClock _ _)).record _).of_block (block_takeResetOps _)).foldl_cpuOp _

/-! ## The ROM image and the divider -/

/-- LDROM answers OK or W_ROM_FALLBACK and replaces the image wholesale, by the file's first 65,536 bytes or by
the default; nothing else of the block changes. -/
theorem loadRom_eq (s : State) :
    ∃ (image : List Byte) (t : State), t.block = s.block ∧ t.commands = s.commands ∧
      (loadRom s).2 = { t with rom := Memory.ofBytes image } ∧
      ((loadRom s).1 = .ok ∨ (loadRom s).1 = .wRomFallback) ∧
      (image = s.cfg.defaultRom ∨ image.length = romSize) := by
  have hb : (takeRomFile (record .romFile s)).2.block = s.block := block_takeRomFile _
  have hc : (takeRomFile (record .romFile s)).2.commands = s.commands :=
    commands_of_own (own_takeRomFile _)
  have hcfg := cfg_of_block hb
  unfold loadRom
  generalize takeRomFile (record .romFile s) = p at hb hc hcfg
  obtain ⟨f, s'⟩ := p
  cases f with
  | notConfigured => exact ⟨_, s', hb, hc, rfl, .inl rfl, .inl (by simpa using congrArg _ hcfg)⟩
  | missing => exact ⟨_, s', hb, hc, rfl, .inr rfl, .inl (by simpa using congrArg _ hcfg)⟩
  | file b =>
    dsimp only
    split
    · refine ⟨_, s', hb, hc, rfl, .inl rfl, .inr ?_⟩
      simp only [List.length_take]
      omega
    · exact ⟨_, s', hb, hc, rfl, .inr rfl, .inl (by simpa using congrArg _ hcfg)⟩

theorem clock_rem_lt (n pct : Nat) (s : State) (h : 0 < s.cfg.cpuHz) :
    (clock n pct s).2.divRem < 100 * (clock n pct s).2.cfg.cpuHz :=
  Nat.mod_lt _ (by simpa [clock] using h)

/-- What the divider touches: the remainder. -/
theorem clock_eq (n pct : Nat) (s : State) :
    (clock n pct s).2 =
      { s with divRem := (n * pct * s.cfg.soundHz + s.divRem) % (100 * s.cfg.cpuHz) } := rfl

end Sys2Proof.Machine
end

