-- ==== Sys2Proof/Laws/Bus.lean ====
section
/-! SUPPORT. Calls of devices whose answer is listed, and accesses that reach no device (20_memory.md R45,
40_bus.md). -/

namespace Sys2Proof.Machine

/-- A call answered by a listed answer that nests nothing. -/
theorem callDevice_listed_quiet {call : DevCall} {s : State} {r : DevReply} {rest : List DevReply}
    (h : s.env.devs = r :: rest) (ho : r.ops = []) : callDevice call s =
      (r, { s with trace := s.trace ++ [.device call], env := { s.env with devs := rest } }) := by
  simp [callDevice, takeDevReply, record, h, ho]

theorem callDevice_listed_value {call : DevCall} {s : State} {r : DevReply} {rest : List DevReply}
    (h : s.env.devs = r :: rest) : (callDevice call s).1 = r := by
  simp [callDevice, takeDevReply, record, h]

theorem quietReplies_mono {m n : Nat} {s : State} (h : quietReplies n s = true) (hm : m ≤ n) :
    quietReplies m s = true := by
  unfold quietReplies at h ⊢
  simp only [Bool.and_eq_true, decide_eq_true_eq, List.all_eq_true] at h ⊢
  exact ⟨by omega, fun x hx => h.2 x ((List.take_prefix_take_left hm).subset hx)⟩

/-- A call answered by a listed answer that nests nothing changes no field of the block. -/
theorem quietReplies_callDevice {n : Nat} {call : DevCall} {s : State}
    (h : quietReplies (n + 1) s = true) :
    (callDevice call s).2.block = s.block ∧ quietReplies n (callDevice call s).2 = true := by
  unfold quietReplies at h
  cases hd : s.env.devs with
  | nil => simp [hd] at h
  | cons r rest =>
    simp only [hd, List.length_cons, List.take_succ_cons, List.all_cons, Bool.and_eq_true,
      decide_eq_true_eq, List.isEmpty_iff] at h
    rw [callDevice_listed_quiet hd h.2.1]
    refine ⟨rfl, ?_⟩
    unfold quietReplies
    rw [Bool.and_eq_true]
    exact ⟨decide_eq_true (by simpa using h.1), h.2.2⟩

theorem quietReplies_read8 {n : Nat} {a : Addr} {s : State} (h : quietReplies (n + 1) s = true) :
    (read8 a s).2.block = s.block ∧ quietReplies n (read8 a s).2 = true := by
  obtain ⟨-, e⟩ | ⟨_, -, e⟩ := read8_eq a s
  · rw [e]
    exact ⟨rfl, quietReplies_mono h (Nat.le_succ n)⟩
  · rw [e]
    exact quietReplies_callDevice h

/-- A byte read that reaches no device has no effect. -/
theorem read8_of_memory {s : State} {a : Addr} (h : readsDevice s a = false) :
    read8 a s = (memoryByte s a, s) := by
  obtain ⟨-, e⟩ | ⟨_, e, -⟩ := read8_eq a s
  · exact e
  · rw [h] at e
    cases e

/-- A word from its bytes, the high one first (20_memory.md R48). -/
theorem append_byte_toNat (x y : Byte) : (x ++ y).toNat = 256 * x.toNat + y.toNat := by
  rw [BitVec.toNat_append, ← Nat.shiftLeft_add_eq_or_of_lt y.isLt, Nat.shiftLeft_eq]
  omega

theorem highByte_eq (v : Half) : highByte v = BitVec.ofNat 8 (v.toNat / 256) := by
  apply BitVec.eq_of_toNat_eq
  simp [highByte, Nat.shiftRight_eq_div_pow]

theorem lowByte_eq (v : Half) : lowByte v = BitVec.ofNat 8 v.toNat := by
  apply BitVec.eq_of_toNat_eq
  simp [lowByte]

/-- Read after write in video memory. -/
theorem vramByte_writeVram (a x : Addr) (v : Byte) (s : State) :
    vramByte (writeVram a v s) x = if x = a then v else vramByte s x := by
  unfold vramByte
  rw [writeVram_vram, get?_set]
  by_cases h : x = a
  · simp [h]
  · rw [if_neg fun e => h (BitVec.eq_of_toNat_eq e), if_neg h]

/-- One nested operation of a device. -/
theorem opDone_devOp (s : State) (op : DevOp) : opDone op s (devOp s op) := by
  have line : ∀ h p, lineDriven h p s
      (record (.reply (driveLine h p s).1 .none) (driveLine h p s).2) := fun h p => by
    unfold lineDriven driveLine State.irqCount
    split
    · unfold recompute
      cases hc : s.cfg.cpuAttached <;> simp [record, setLine]
    · rfl
  cases op with
  | irqAssert h => exact line h true
  | irqDeassert h => exact line h false
  | vramRead a => rfl
  | vramWrite a v => exact ⟨fun x => vramByte_writeVram a x v s, rfl⟩

/-- The operations of a device's call, in order. -/
theorem opsDone_foldl (ops : List DevOp) (s : State) : opsDone ops s (ops.foldl devOp s) := by
  induction ops generalizing s with
  | nil => rfl
  | cons op rest ih => exact ⟨_, opDone_devOp s op, ih _⟩

/-- A device call, where its answer is listed: the operations its contract allows follow the call. -/
theorem callDevice_listed {call : DevCall} {s : State} {r : DevReply} {rest : List DevReply}
    (h : s.env.devs = r :: rest) : callDevice call s = (r, (r.ops.filter call.allows).foldl devOp
      { s with trace := s.trace ++ [.device call], env := { s.env with devs := rest } }) := by
  simp [callDevice, takeDevReply, record, devOps, h]

/-- Only the blitter's calls reach video memory (log 14). -/
theorem vram_callDevice {call : DevCall} (h : call.device ≠ .blitter) (s : State) :
    (callDevice call s).2.vram = s.vram := by
  have hops : ∀ (ops : List DevOp) (u : State), (devOps call ops u).vram = u.vram := fun ops u => by
    unfold devOps
    induction ops generalizing u with
    | nil => rfl
    | cons op rest ih =>
      rw [List.filter_cons]
      split
      · rename_i ha
        refine (ih _).trans ?_
        cases op with
        | irqAssert h => exact vram_driveLine h true u
        | irqDeassert h => exact vram_driveLine h false u
        | vramRead a => rfl
        | vramWrite a v => simp [DevCall.allows, h] at ha
      · exact ih u
  rw [callDevice, hops, vram_of_block (block_takeDevReply _), record_vram]

/-! ## The reset vectors -/

theorem maskAddress_toNat (a : Word) : (maskAddress a).toNat = a.toNat % 16777216 := by
  simp [maskAddress]

/-- A read of ROM's first bytes through the bus. -/
theorem read8_of_vector {a : Addr} (h : a.toNat < 8) (s : State) : read8 a s = (romByte s a.toNat, s) := by
  simp [read8, selectRead, inVec, vecSize, h]

/-- What a CPU operation in a reset is: a read of the vectors, answered by the image and with no other effect, or
passed over. -/
theorem vectorAnswer_cases (s : State) (op : CpuOp) :
    (readsVectors op = true ∧ ∃ e, vectorAnswer s op = some e ∧ cpuOp s op = record e s) ∨
    (readsVectors op = false ∧ vectorAnswer s op = none) := by
  cases op with
  | rd8 a =>
    by_cases h : a.toNat % 16777216 < 8
    · have h' := h
      rw [← maskAddress_toNat] at h'
      refine .inl ⟨by simp [readsVectors, h'], _, by simp only [vectorAnswer]; exact if_pos h, ?_⟩
      simp [cpuOp, read8_of_vector h', zext32, maskAddress_toNat]
    · exact .inr ⟨by simp only [readsVectors, maskAddress_toNat]; exact decide_eq_false h,
        by simp only [vectorAnswer]; exact if_neg h⟩
  | rd16 a =>
    by_cases h : a.toNat % 16777216 < 7
    · have h' := h
      rw [← maskAddress_toNat] at h'
      have hn : (nextAddress (maskAddress a)).toNat = (maskAddress a).toNat + 1 := by
        simp only [nextAddress, BitVec.toNat_add, BitVec.toNat_ofNat]
        omega
      refine .inl ⟨by simp [readsVectors, h'], _, by simp only [vectorAnswer]; exact if_pos h, ?_⟩
      have h1 := read8_of_vector (a := maskAddress a) (by omega) s
      have h2 := read8_of_vector (a := nextAddress (maskAddress a)) (by omega) s
      simp only [cpuOp, read16, h1, h2, append_byte_toNat, zext32, hn, maskAddress_toNat]
    · exact .inr ⟨by simp only [readsVectors, maskAddress_toNat]; exact decide_eq_false h,
        by simp only [vectorAnswer]; exact if_neg h⟩
  | wr8 a v => exact .inr ⟨rfl, rfl⟩
  | wr16 a v => exact .inr ⟨rfl, rfl⟩
  | irqGet => exact .inr ⟨rfl, rfl⟩

/-- The reads of the vectors a CPU nests in its reset leave the block alone and are answered in order. -/
theorem foldl_vectorReads (ops : List CpuOp) (s : State) : (ops.filter readsVectors).foldl cpuOp s =
    { s with trace := s.trace ++ ops.filterMap (vectorAnswer s) } := by
  induction ops generalizing s with
  | nil => simp
  | cons op rest ih =>
    obtain ⟨hr, e, ha, hc⟩ | ⟨hr, ha⟩ := vectorAnswer_cases s op
    · rw [List.filter_cons_of_pos hr, List.filterMap_cons_some ha, List.foldl_cons, hc, ih]
      have : vectorAnswer (record e s) = vectorAnswer s := by
        funext o
        cases o <;> rfl
      rw [this]
      simp [record]
    · rw [List.filter_cons_of_neg (by simp [hr]), List.filterMap_cons_none ha, ih]

/-- A byte write that reaches no device changes at most the byte it selects. -/
theorem write8_of_memory {s : State} {a : Addr} {v : Byte} (h : writesDevice s a = false) :
    (∀ x, vramByte (write8 a v s) x = if selectWrite s.cfg a = .vram x then v else vramByte s x) ∧
    { write8 a v s with vram := s.vram } = s := by
  obtain ⟨b, hb, e⟩ | ⟨_, e, -⟩ | ⟨-, e⟩ := write8_eq a v s
  · rw [e, hb]
    refine ⟨fun x => ?_, rfl⟩
    rw [vramByte_writeVram]
    by_cases hx : x = b
    · simp [hx]
    · simp [hx, Ne.symm hx]
  · rw [h] at e
    cases e
  · by_cases hv : ∃ b, selectWrite s.cfg a = .vram b
    · obtain ⟨b, hb⟩ := hv
      rw [write8, hb]
      refine ⟨fun x => ?_, rfl⟩
      dsimp only
      rw [vramByte_writeVram]
      by_cases hx : x = b
      · simp [hx]
      · simp [hx, Ne.symm hx]
    · rw [e]
      refine ⟨fun x => ?_, rfl⟩
      rw [if_neg fun hx => hv ⟨x, hx⟩]

end Sys2Proof.Machine
end

