-- ==== Sys2Proof/Laws/Config.lean ====
section
/-! SUPPORT. The machine's parameters at power-on meet the constraints of 00_scope.md R14 by the way they are
made. -/

namespace Sys2Proof

theorem append_zero_mod (n k : Nat) (x : BitVec n) : (x ++ 0#k).toNat % 2 ^ k = 0 := by
  rw [BitVec.toNat_append]
  simp [Nat.shiftLeft_eq]

/-- A value that one index alone takes stands once in the table made from a permutation. -/
theorem count_place (f : Fin 16 → SubPage) (e : Equiv.Perm (Fin 16)) (p : SubPage) (k : Fin 16)
    (h : ∀ j, f j = p ↔ j = k) : ((List.finRange 16).map fun i => f (e i)).count p = 1 := by
  have h1 : ((List.finRange 16).map fun i => f (e i)).count p
      = ((List.finRange 16).map e).count k := by
    rw [List.count, List.count, List.countP_map, List.countP_map]
    congr 1
    funext i
    simp [h]
  rw [h1]
  refine List.count_eq_one_of_mem ?_ ?_
  · exact (List.nodup_finRange 16).map e.injective
  · exact List.mem_map.mpr ⟨e.symm k, List.mem_finRange _, by simp⟩

/-- The parameters of the machine at power-on meet R14. -/
theorem machine_wf : Config.machine.wf := by
  have hk : 2 ^ Config.fontIndexBits.val - 1 < 2 ^ 15 := by
    have := Nat.pow_le_pow_right (n := 2) (by decide) (Nat.le_of_lt_succ Config.fontIndexBits.isLt)
    have := Nat.two_pow_pos Config.fontIndexBits.val
    omega
  have hm : Config.machine.fontIndexMask.toNat + 1 = 2 ^ Config.fontIndexBits.val := by
    have := Nat.two_pow_pos Config.fontIndexBits.val
    simp only [Config.machine, BitVec.toNat_ofNat, Nat.mod_eq_of_lt hk]
    omega
  refine ⟨append_zero_mod 12 12 _, by simp [Config.machine], ?_, append_zero_mod 8 16 _,
    append_zero_mod 8 16 _, append_zero_mod 8 16 _, append_zero_mod 8 16 _, ?_,
    ⟨_, List.mem_range.mpr Config.fontIndexBits.isLt, hm⟩, ?_, ?_, by simp [Config.machine],
    Nat.succ_pos _, Nat.succ_pos _, Nat.succ_pos _, Nat.succ_pos _⟩
  · intro p hp
    simp only [SubPage.mapped, List.mem_cons, List.not_mem_nil, or_false] at hp
    rcases hp with rfl | rfl | rfl | rfl | rfl | rfl
    · exact count_place (fun j => SubPage.mapped.getD j.val .unmapped) _ _ 0 (by decide)
    · exact count_place (fun j => SubPage.mapped.getD j.val .unmapped) _ _ 1 (by decide)
    · exact count_place (fun j => SubPage.mapped.getD j.val .unmapped) _ _ 2 (by decide)
    · exact count_place (fun j => SubPage.mapped.getD j.val .unmapped) _ _ 3 (by decide)
    · exact count_place (fun j => SubPage.mapped.getD j.val .unmapped) _ _ 4 (by decide)
    · exact count_place (fun j => SubPage.mapped.getD j.val .unmapped) _ _ 5 (by decide)
  · intro h
    have h1 := congrArg BitVec.toNat h
    simp only [Config.machine, BitVec.toNat_append, BitVec.toNat_add, BitVec.toNat_ofNat,
      Nat.shiftLeft_eq] at h1
    have := Config.fontGap.isLt
    have := Config.font0Region.isLt
    simp at h1
    omega
  · rw [hm]; simp [Config.machine]
  · rw [hm]; simp [Config.machine]

end Sys2Proof
end

