-- ==== Sys2Proof/Laws/Decode.lean ====
section
/-! SUPPORT. The fields of a command word as numbers (30_encoding.md R71, R79). -/

namespace Sys2Proof

/-- A command word as a number: (UNIT << 28) + (OP << 24) + A. -/
theorem commandWord_toNat (u o : BitVec 4) (a : BitVec 24) :
    (commandWord u o a).toNat = u.toNat * 2 ^ 28 + o.toNat * 2 ^ 24 + a.toNat := by
  unfold commandWord
  rw [BitVec.toNat_append, BitVec.toNat_append, ← Nat.shiftLeft_add_eq_or_of_lt a.isLt,
    ← Nat.shiftLeft_add_eq_or_of_lt o.isLt, Nat.shiftLeft_eq, Nat.shiftLeft_eq]
  ring

theorem unitField_toNat (c : Command) : c.unitField.toNat = c.cw.toNat / 2 ^ 28 := by
  have := c.cw.isLt
  simp only [Command.unitField, BitVec.extractLsb'_toNat, Nat.shiftRight_eq_div_pow]
  omega

theorem opField_toNat (c : Command) : c.opField.toNat = c.cw.toNat / 2 ^ 24 % 2 ^ 4 := by
  simp only [Command.opField, BitVec.extractLsb'_toNat, Nat.shiftRight_eq_div_pow]

theorem aField_toNat (c : Command) : c.aField.toNat = c.cw.toNat % 2 ^ 24 := by
  simp only [Command.aField, BitVec.extractLsb'_toNat, Nat.shiftRight_zero]

/-- A command word is its three fields. -/
theorem cw_eq_fields (c : Command) : c.cw = commandWord c.unitField c.opField c.aField := by
  apply BitVec.eq_of_toNat_eq
  rw [commandWord_toNat, unitField_toNat, opField_toNat, aField_toNat]
  have := c.cw.isLt
  omega

@[simp] theorem unitField_commandWord (u o : BitVec 4) (a : BitVec 24) (d : Word) :
    Command.unitField ⟨commandWord u o a, d⟩ = u := by
  apply BitVec.eq_of_toNat_eq
  rw [unitField_toNat, commandWord_toNat]
  have := o.isLt
  have := a.isLt
  omega

@[simp] theorem opField_commandWord (u o : BitVec 4) (a : BitVec 24) (d : Word) :
    Command.opField ⟨commandWord u o a, d⟩ = o := by
  apply BitVec.eq_of_toNat_eq
  rw [opField_toNat, commandWord_toNat]
  have := o.isLt
  have := a.isLt
  omega

@[simp] theorem aField_commandWord (u o : BitVec 4) (a : BitVec 24) (d : Word) :
    Command.aField ⟨commandWord u o a, d⟩ = a := by
  apply BitVec.eq_of_toNat_eq
  rw [aField_toNat, commandWord_toNat]
  have := a.isLt
  omega

/-! ## What each helper of the decoder accepts -/

theorem decodePlain_eq {a : BitVec 24} {i j : Instr} :
    decodePlain a i = .ok j ↔ a = 0#24 ∧ i = j := by
  unfold decodePlain; split <;> simp [*]

theorem decodeLow_eq {k : Nat} {a : BitVec 24} {make : Nat → Instr} {j : Instr} :
    decodeLow k a make = .ok j ↔ a.toNat < 2 ^ k ∧ make a.toNat = j := by
  unfold decodeLow; split <;> simp [*]

theorem decodeWr8_eq {a : BitVec 24} {d : Word} {j : Instr} :
    decodeWr8 a d = .ok j ↔ d.toNat < 2 ^ 8 ∧ .wr8 a (d.extractLsb' 0 8) = j := by
  unfold decodeWr8; split <;> rename_i h <;> norm_num at h <;> simp [h]

theorem decodeWr16_eq {a : BitVec 24} {d : Word} {j : Instr} :
    decodeWr16 a d = .ok j ↔ d.toNat < 2 ^ 16 ∧ .wr16 a (d.extractLsb' 0 16) = j := by
  unfold decodeWr16; split <;> rename_i h <;> norm_num at h <;> simp [h]

/-- A decoded command is one of the four units', by that unit's table (30_encoding.md R73). -/
theorem decode_cases {c : Command} {i : Instr} (h : decode c = .ok i) :
    (c.unitField = 1#4 ∧ decodeBus c.opField.toNat c.aField c.d = .ok i) ∨
    (c.unitField = 2#4 ∧ decodeIrq c.opField.toNat c.aField = .ok i) ∨
    (c.unitField = 3#4 ∧ decodeFdiv c.opField.toNat c.aField c.d = .ok i) ∨
    (c.unitField = 4#4 ∧ decodeSched c.opField.toNat c.aField c.d = .ok i) := by
  unfold decode at h
  split at h <;> rename_i e
  · exact .inl ⟨BitVec.eq_of_toNat_eq e, h⟩
  · exact .inr (.inl ⟨BitVec.eq_of_toNat_eq e, h⟩)
  · exact .inr (.inr (.inl ⟨BitVec.eq_of_toNat_eq e, h⟩))
  · exact .inr (.inr (.inr ⟨BitVec.eq_of_toNat_eq e, h⟩))
  · cases h

/-- A command word from its unit, its OP as a number and its A. -/
theorem commandWord_of_fields {c : Command} {u : BitVec 4} {n : Nat} {a : BitVec 24}
    (hu : c.unitField = u) (hn : c.opField.toNat = n) (ha : c.aField = a) :
    commandWord u (BitVec.ofNat 4 n) a = c.cw := by
  rw [cw_eq_fields c, hu, ha, ← hn, BitVec.ofNat_toNat, BitVec.setWidth_eq]

end Sys2Proof
end

