-- ==== Sys2Proof/Laws/Scheduler.lean ====
section
/-! SUPPORT. What the scheduler's helper procedures do to the block's own fields (43_scheduler.md R142, R143,
R144), each said once. -/

namespace Sys2Proof.Machine

/-! ## The audio step -/

@[simp] theorem own_sampleOccupancy (s : State) : (sampleOccupancy s).2.own = s.own := by
  simp [sampleOccupancy]

theorem SharedInv.sampleOccupancy {s : State} (h : SharedInv s) : SharedInv (sampleOccupancy s).2 :=
  (h.record _).of_block (block_takeOccupancy _)

/-- The occupancy the next sample gives. -/
theorem fst_sampleOccupancy (s : State) : (sampleOccupancy s).1 = (takeOccupancy s).1 := by
  unfold sampleOccupancy takeOccupancy
  simp only [record_env]
  split <;> rfl

theorem own_countBand (b : Band) (s : State) :
    (countBand b s).own = { s.own with
      underrun := s.underrun + b.increments.1
      equalrun := s.equalrun + b.increments.2.1
      overrun := s.overrun + b.increments.2.2 } := by
  cases b <;> simp [countBand, State.own, Band.increments]

theorem SharedInv.countBand {s : State} (h : SharedInv s) (b : Band) : SharedInv (countBand b s) := by
  cases b <;> exact h.of_eq rfl rfl rfl

/-- Where the tally of the band has room, no tally wraps. -/
theorem toNat_counted {band : Band} {s : State} (h : countOverflows band s = false) :
    (s.underrun + band.increments.1).toNat = s.underrun.toNat + band.increments.1.toNat ∧
    (s.equalrun + band.increments.2.1).toNat = s.equalrun.toNat + band.increments.2.1.toNat ∧
    (s.overrun + band.increments.2.2).toNat = s.overrun.toNat + band.increments.2.2.toNat := by
  have hw : ∀ x : Quad, x ≠ tallyMax → x.toNat + 1 < 18446744073709551616 := fun x hx => by
    unfold tallyMax at hx
    bv_omega
  cases band <;> simp [countOverflows] at h <;> simpa [Band.increments] using hw _ h

/-- Counting a band takes no tally down. -/
theorem le_counted {band : Band} {s : State} (h : countOverflows band s = false) :
    s.underrun ≤ s.underrun + band.increments.1 ∧ s.equalrun ≤ s.equalrun + band.increments.2.1 ∧
    s.overrun ≤ s.overrun + band.increments.2.2 := by
  obtain ⟨h1, h2, h3⟩ := toNat_counted h
  simp only [BitVec.le_def, h1, h2, h3]
  omega

/-- The tally of an occupancy's band overflows exactly where it is at its last value. -/
theorem countOverflows_classify (s : State) (occ : Nat) :
    countOverflows (classify s.cfg.audioTarget occ) s = (s.tallyFor occ == tallyMax) := by
  unfold classify State.tallyFor
  rw [Bool.eq_iff_iff]
  split
  · simp [countOverflows]
  · split
    · simp [countOverflows]
    · split <;> simp [countOverflows]

/-- The remainder after `clock(c, pct)`. -/
def remAfter (s : State) (c pct : Nat) : Nat :=
  (c * pct * s.cfg.soundHz + s.divRem) % (100 * s.cfg.cpuHz)

theorem own_soundRun (c pct : Nat) (s : State) :
    (soundRun c pct s).own = { s.own with divRem := remAfter s c pct } := by
  simp only [soundRun, own_runDevice]
  rfl

theorem SharedInv.soundRun {s : State} (h : SharedInv s) (c pct : Nat) : SharedInv (soundRun c pct s) :=
  have h1 : SharedInv (clock c pct s).2 := h.of_eq rfl rfl rfl
  h1.runDevice _ _

@[simp] theorem own_drainRecord (s : State) : (drainRecord s).own = s.own := by
  simp [drainRecord]

theorem SharedInv.drainRecord {s : State} (h : SharedInv s) : SharedInv (drainRecord s) :=
  (h.callDevice _).record _

/-- The remainder after the sound device is driven at the band's rate, if at all. -/
def remDriven (s : State) (c : Nat) (band : Band) : Nat :=
  match soundPercent s.recording band with
  | none => s.divRem
  | some pct => remAfter s c pct

theorem own_driveSound (c : Nat) (band : Band) (s : State) :
    (driveSound c band s).own = { s.own with divRem := remDriven s c band } := by
  unfold driveSound remDriven
  cases soundPercent s.recording band with
  | none => rfl
  | some pct =>
    dsimp only
    split
    · exact (own_drainRecord _).trans (own_soundRun c pct s)
    · exact own_soundRun c pct s

theorem SharedInv.driveSound {s : State} (h : SharedInv s) (c : Nat) (band : Band) :
    SharedInv (driveSound c band s) := by
  unfold Machine.driveSound
  cases soundPercent s.recording band with
  | none => exact h
  | some pct =>
    dsimp only
    split
    · exact (h.soundRun c pct).drainRecord
    · exact h.soundRun c pct

@[simp] theorem own_startTest (s : State) : (startTest s).own = s.own := by
  unfold startTest
  dsimp only
  split
  · exact (own_record _ _).trans (own_sampleOccupancy s)
  · exact own_sampleOccupancy s

theorem SharedInv.startTest {s : State} (h : SharedInv s) : SharedInv (startTest s) := by
  unfold Machine.startTest
  dsimp only
  split
  · exact h.sampleOccupancy.record _
  · exact h.sampleOccupancy

/-- The audio step (R142): the band's tally, and the divider's remainder where sound is driven. -/
theorem own_audioStep (c : Nat) (drive : Bool) (s : State) :
    (audioStep c drive s).own = { s.own with
      underrun := s.underrun + (nextBand s).increments.1
      equalrun := s.equalrun + (nextBand s).increments.2.1
      overrun := s.overrun + (nextBand s).increments.2.2
      divRem := if drive then remDriven s c (nextBand s) else s.divRem } := by
  have ho := own_sampleOccupancy s
  have hband : classify (sampleOccupancy s).2.cfg.audioTarget (sampleOccupancy s).1 = nextBand s := by
    rw [fst_sampleOccupancy, cfg_of_own ho, nextBand]
  have hc : (countBand (nextBand s) (sampleOccupancy s).2).own = { s.own with
      underrun := s.underrun + (nextBand s).increments.1
      equalrun := s.equalrun + (nextBand s).increments.2.1
      overrun := s.overrun + (nextBand s).increments.2.2 } := by
    rw [own_countBand, ho, underrun_of_own ho, equalrun_of_own ho, overrun_of_own ho]
  simp only [audioStep, own_startTest, hband]
  cases drive with
  | false =>
    rw [if_neg (by simp), hc]
    rfl
  | true =>
    rw [if_pos rfl, own_driveSound, hc]
    have hr : remDriven (countBand (nextBand s) (sampleOccupancy s).2) c (nextBand s)
        = remDriven s c (nextBand s) := by
      have h1 := congrArg State.recording hc
      have h2 := congrArg State.cfg hc
      have h3 := congrArg State.divRem hc
      simp only [State.own] at h1 h2 h3
      simp only [remDriven, remAfter, h1, h2, h3]
    rw [hr]
    rfl

theorem SharedInv.audioStep {s : State} (h : SharedInv s) (c : Nat) (drive : Bool) :
    SharedInv (audioStep c drive s) := by
  unfold Machine.audioStep
  dsimp only
  apply SharedInv.startTest
  split
  · exact (h.sampleOccupancy.countBand _).driveSound _ _
  · exact h.sampleOccupancy.countBand _

/-! ## The frame step -/

@[simp] theorem own_drainBlitter (l : List BlitReply) (s : State) : (drainBlitter l s).own = s.own := by
  induction l generalizing s with
  | nil => rfl
  | cons r rest ih =>
    cases r with
    | endless => rfl
    | ran ops more =>
      have h1 : (devOps .runNextOperation ops
          (takeBlit (record (.device .runNextOperation) s))).own = s.own := by simp
      simp only [drainBlitter]
      split
      · exact (ih _).trans h1
      · exact h1

theorem SharedInv.drainBlitter {s : State} (h : SharedInv s) (l : List BlitReply) :
    SharedInv (drainBlitter l s) := by
  induction l generalizing s with
  | nil => exact h
  | cons r rest ih =>
    cases r with
    | endless => exact h
    | ran ops more =>
      have h1 := ((h.record (.device .runNextOperation)).of_block (block_takeBlit _)).devOps
        .runNextOperation ops
      simp only [Machine.drainBlitter]
      split
      · exact ih h1
      · exact h1

/-- A drain whose listed answers end ends, whatever follows them. -/
theorem drainHangs_append {l : List BlitReply} (h : drainHangs l = false) (l' : List BlitReply) :
    drainHangs (l ++ l') = false := by
  induction l with
  | nil => cases h
  | cons r rest ih =>
    cases r with
    | endless => cases h
    | ran ops more =>
      cases more with
      | false => rfl
      | true => exact ih h

theorem own_frameBoundary (drive : Bool) (s : State) :
    (frameBoundary drive s).own = { s.own with
      frameDone := true
      frameBalance := s.frameBalance - s.cfg.frameBudget } := by
  have key : ∀ u : State, u.own = ({ s with frameDone := true } : State).own →
      ({ u with frameBalance := u.frameBalance - u.cfg.frameBudget } : State).own = { s.own with
        frameDone := true
        frameBalance := s.frameBalance - s.cfg.frameBudget } := fun u hu => by
    have h : u.frameBalance - u.cfg.frameBudget = s.frameBalance - s.cfg.frameBudget := by
      rw [frameBalance_of_own hu, cfg_of_own hu]
    rw [h]
    exact congrArg (fun w : State => { w with frameBalance := s.frameBalance - s.cfg.frameBudget }) hu
  unfold frameBoundary
  cases drive with
  | false => exact key _ rfl
  | true => exact (own_drainBlitter _ _).trans (key _ (own_callDevice _ _))

theorem SharedInv.frameBoundary {s : State} (h : SharedInv s) (drive : Bool) :
    SharedInv (frameBoundary drive s) := by
  have h1 : SharedInv ({ s with frameDone := true } : State) := h.of_eq rfl rfl rfl
  unfold Machine.frameBoundary
  cases drive with
  | false => exact h1.of_eq rfl rfl rfl
  | true =>
    have h2 := h1.callDevice .notifyScreenRefresh
    have h3 : ∀ fb, SharedInv { (Machine.callDevice .notifyScreenRefresh
        ({ s with frameDone := true } : State)).2 with frameBalance := fb } :=
      fun _ => h2.of_eq rfl rfl rfl
    exact (h3 _).drainBlitter _

/-- The frame step (R143): accumulate, and at most one boundary that carries the remainder. -/
theorem own_frameStep (c : Nat) (drive : Bool) (s : State) :
    (frameStep c drive s).own = { s.own with
      frameDone := s.frameDone || frameExceeded s.cfg.frameBudget (s.frameBalance + c)
      frameBalance := if frameExceeded s.cfg.frameBudget (s.frameBalance + c)
        then s.frameBalance + c - s.cfg.frameBudget else s.frameBalance + c } := by
  unfold frameStep
  dsimp only
  split
  · rename_i h
    rw [own_frameBoundary, h]
    simp [State.own]
  · rename_i h
    rw [Bool.not_eq_true] at h
    rw [h]
    simp [State.own]

theorem SharedInv.frameStep {s : State} (h : SharedInv s) (c : Nat) (drive : Bool) :
    SharedInv (frameStep c drive s) := by
  have h1 : SharedInv ({ s with frameBalance := s.frameBalance + c } : State) := h.of_eq rfl rfl rfl
  unfold Machine.frameStep
  dsimp only
  split
  · exact h1.frameBoundary drive
  · exact h1

/-! ## The loop of RUN -/

@[simp] theorem own_loopBody (ops : List CpuOp) (d : Nat) (s : State) :
    (loopBody ops d s).own = s.own := by simp [loopBody]

theorem SharedInv.loopBody {s : State} (h : SharedInv s) (ops : List CpuOp) (d : Nat) :
    SharedInv (loopBody ops d s) :=
  (((h.cpuExecute ops).of_block (block_withClock _ _)).runDevice _ _).runDevice _ _

/-- What one loop body leaves alone: it takes the answer, then runs. -/
theorem own_takenBody (ops : List CpuOp) (d : Nat) (s : State) :
    (loopBody ops d (takeExec s)).own = s.own := by simp

theorem SharedInv.takenBody {s : State} (h : SharedInv s) (ops : List CpuOp) (d : Nat) :
    SharedInv (Machine.loopBody ops d (takeExec s)) := (h.of_block (block_takeExec s)).loopBody ops d

/-- What the loop of RUN leaves where it ends. -/
structure LoopFacts (bal frame : Int) (s : State) (consumed : Nat) (e : LoopEnd) : Prop where
  own_eq : e.state.own = s.own
  shared : SharedInv s → SharedInv e.state
  consumed_ge : consumed ≤ e.consumed
  frame_le : frame + e.consumed ≤ balanceMax
  stopped : e.breakpoint = false → balanceMin ≤ bal - e.consumed ∧ bal ≤ e.consumed

/-- The loop with the clock standing still ends after one body, or is stuck. -/
theorem stalledLoop_ok {bal : Int} {consumed : Nat} {s : State} {e : LoopEnd}
    (h : stalledLoop bal consumed s = .ok e) : bal ≤ consumed ∧
      e = { consumed := consumed, breakpoint := false, state := loopBody [] 0 (takeExec s) } := by
  unfold stalledLoop at h
  split at h
  · cases h
    exact ⟨‹_›, rfl⟩
  · cases h

/-- One answer of the CPU in the loop of RUN, where the loop ends: the loop ended with this body, at a
breakpoint or with the balance reached, or went on. -/
theorem runLoop_ran {bal frame : Int} {ops : List CpuOp} {delta : Quad} {bp : Bool} {rest : List ExecReply}
    {consumed : Nat} {s : State} {e : LoopEnd}
    (h : runLoop bal frame (.ran ops delta bp :: rest) consumed s = .ok e) :
    s.env.clock + delta.toNat ≤ clockMax ∧ frame + (consumed + delta.toNat : Nat) ≤ balanceMax ∧
    ((bp = true ∧ e = ⟨consumed + delta.toNat, true, loopBody ops delta.toNat (takeExec s)⟩) ∨
      (bp = false ∧ balanceMin ≤ bal - (consumed + delta.toNat : Nat) ∧
        ((bal ≤ (consumed + delta.toNat : Nat) ∧
            e = ⟨consumed + delta.toNat, false, loopBody ops delta.toNat (takeExec s)⟩) ∨
          (¬bal ≤ (consumed + delta.toNat : Nat) ∧
            runLoop bal frame rest (consumed + delta.toNat) (loopBody ops delta.toNat (takeExec s)) =
              .ok e)))) := by
  unfold runLoop at h
  dsimp only at h
  split at h
  · cases h
  · split at h
    · cases h
    · refine ⟨by omega, by omega, ?_⟩
      split at h
      · cases h
        exact .inl ⟨‹_›, rfl⟩
      · rename_i hbp
        refine .inr ⟨by simpa using hbp, ?_⟩
        split at h
        · cases h
        · refine ⟨by omega, ?_⟩
          split at h
          · cases h
            exact .inl ⟨‹_›, rfl⟩
          · exact .inr ⟨‹_›, h⟩

/-- The loop of RUN, where it ends (R144 step 2). -/
theorem runLoop_facts {bal frame : Int} {l : List ExecReply} {consumed : Nat} {s : State} {e : LoopEnd}
    (h : runLoop bal frame l consumed s = .ok e) (hf : frame + consumed ≤ balanceMax)
    (hb : balanceMin ≤ bal - consumed) : LoopFacts bal frame s consumed e := by
  have stalled : ∀ {consumed : Nat} {s : State}, frame + consumed ≤ balanceMax →
      balanceMin ≤ bal - consumed → stalledLoop bal consumed s = .ok e →
      LoopFacts bal frame s consumed e := by
    intro consumed s hf hb h
    obtain ⟨hle, rfl⟩ := stalledLoop_ok h
    exact ⟨own_takenBody _ _ _, fun hs => hs.takenBody _ _, Nat.le_refl _, hf, fun _ => ⟨hb, hle⟩⟩
  induction l generalizing consumed s with
  | nil => exact stalled hf hb h
  | cons r rest ih =>
    cases r with
    | stalled => exact stalled hf hb h
    | ran ops delta bp =>
      obtain ⟨-, hmax, ⟨-, rfl⟩ | ⟨-, hmin, ⟨hle, rfl⟩ | ⟨hgt, hr⟩⟩⟩ := runLoop_ran h
      · exact ⟨own_takenBody _ _ _, fun hs => hs.takenBody _ _, Nat.le_add_right _ _, hmax,
          fun hbp => by cases hbp⟩
      · exact ⟨own_takenBody _ _ _, fun hs => hs.takenBody _ _, Nat.le_add_right _ _, hmax,
          fun _ => ⟨hmin, hle⟩⟩
      · have f := ih hr hmax hmin
        exact ⟨f.own_eq.trans (own_takenBody _ _ _), fun hs => f.shared (hs.takenBody _ _),
          Nat.le_trans (Nat.le_add_right _ _) f.consumed_ge, f.frame_le, f.stopped⟩

/-- The loop of RUN ends without a breakpoint only where its cycles reached the balance. -/
theorem runLoop_stopped {bal frame : Int} {l : List ExecReply} {consumed : Nat} {s : State} {e : LoopEnd}
    (h : runLoop bal frame l consumed s = .ok e) (hb : e.breakpoint = false) : bal ≤ e.consumed := by
  induction l generalizing consumed s with
  | nil =>
    obtain ⟨hle, rfl⟩ := stalledLoop_ok h
    exact hle
  | cons r rest ih =>
    cases r with
    | stalled =>
      obtain ⟨hle, rfl⟩ := stalledLoop_ok h
      exact hle
    | ran ops delta bp =>
      obtain ⟨-, -, ⟨-, rfl⟩ | ⟨-, -, ⟨hle, rfl⟩ | ⟨-, hr⟩⟩⟩ := runLoop_ran h
      · cases hb
      · exact hle
      · exact ih hr

/-- What RUN can do where it answers a next state: the loop ended, the tally of the band had room, the frame
step ends, and steps 3 to 7 followed. -/
theorem execRun_eq {n : Nat} {s t : State} (h : execRun n s = .next t) :
    s.cpuBalance + n ≤ balanceMax ∧ ∃ e, runLoop (s.cpuBalance + n) s.frameBalance (execAnswers s) 0
      { s with cpuBalance := s.cpuBalance + n } = .ok e ∧
      countOverflows (nextBand (settleRun (s.cpuBalance + n) e)) s = false ∧
      t = finishRun (s.cpuBalance + n) e := by
  unfold execRun at h
  dsimp only at h
  split at h
  · cases h
  · rename_i hle
    refine ⟨by omega, ?_⟩
    split at h
    · cases h
    · rename_i e he
      split at h
      · cases h
      · rename_i hroom
        split at h
        · cases h
        · cases h
          exact ⟨e, he, by simpa using hroom, rfl⟩

theorem own_settleRun (bal : Int) (e : LoopEnd) : (settleRun bal e).own = { e.state.own with
    cpuBalance := if e.breakpoint then 0 else bal - e.consumed
    mode := if e.breakpoint then .paused else e.state.mode } := by
  unfold settleRun
  split
  · rw [own_record]
    simp [State.own]
  · simp [State.own]

theorem SharedInv.settleRun {bal : Int} {e : LoopEnd} (h : SharedInv e.state) :
    SharedInv (settleRun bal e) := by
  unfold Machine.settleRun
  split
  · have h1 : SharedInv { e.state with cpuBalance := 0, mode := .paused } := h.of_eq rfl rfl rfl
    exact h1.record _
  · exact h.of_eq rfl rfl rfl

end Sys2Proof.Machine
end

