-- ==== Sys2Proof/Laws/Trace.lean ====
section
/-! SUPPORT. What each shared operation adds to the record of calls, and which inputs it leaves alone. -/

namespace Sys2Proof.Machine

/-! ## The record of calls grows at its end -/

/-- `t` has `s`'s record followed by entries that all meet `p`. -/
def Extends (p : Event → Prop) (s t : State) : Prop := ∃ l, t.trace = s.trace ++ l ∧ ∀ e ∈ l, p e

theorem Extends.of_eq {p : Event → Prop} {s t : State} (h : t.trace = s.trace) : Extends p s t :=
  ⟨[], by simp [h], by simp⟩

theorem Extends.one {p : Event → Prop} {s t : State} {e : Event} (h : t.trace = s.trace ++ [e])
    (he : p e) : Extends p s t := ⟨[e], h, by simpa using he⟩

theorem Extends.trans {p : Event → Prop} {s t u : State} (h1 : Extends p s t) (h2 : Extends p t u) :
    Extends p s u := by
  obtain ⟨l1, e1, p1⟩ := h1
  obtain ⟨l2, e2, p2⟩ := h2
  refine ⟨l1 ++ l2, by rw [e2, e1, List.append_assoc], fun e he => ?_⟩
  rcases List.mem_append.mp he with he | he
  · exact p1 e he
  · exact p2 e he

theorem Extends.mono {p q : Event → Prop} {s t : State} (h : Extends p s t) (hpq : ∀ e, p e → q e) :
    Extends q s t := by
  obtain ⟨l, e, hp⟩ := h
  exact ⟨l, e, fun x hx => hpq x (hp x hx)⟩

theorem Extends.foldl {α : Type} {p : Event → Prop} {f : State → α → State}
    (hf : ∀ s a, Extends p s (f s a)) (l : List α) (s : State) : Extends p s (l.foldl f s) := by
  induction l generalizing s with
  | nil => exact .of_eq rfl
  | cons a rest ih => exact (hf s a).trans (ih _)

/-- An answer to a nested operation, or a level pushed by one. -/
def Event.Nested (e : Event) : Prop := (∃ st r, e = .reply st r) ∨ ∃ l, e = .setIpl l

/-- What the bus does: a nested answer or push, or an access of a device. -/
def Event.Bus (e : Event) : Prop :=
  e.Nested ∨ (∃ d o, e = .device (.ioRead d o)) ∨ (∃ d o v, e = .device (.ioWrite d o v)) ∨
  (∃ o, e = .device (.ctxRead o)) ∨ ∃ o v, e = .device (.ctxWrite o v)

theorem Event.Nested.ranCycles {e : Event} (h : e.Nested) (d : Dev) : e.ranCycles d = 0 := by
  obtain ⟨st, r, rfl⟩ | ⟨l, rfl⟩ := h <;> rfl

theorem Event.Bus.ranCycles {e : Event} (h : e.Bus) (d : Dev) : e.ranCycles d = 0 := by
  obtain h | ⟨d, o, rfl⟩ | ⟨d, o, v, rfl⟩ | ⟨o, rfl⟩ | ⟨o, v, rfl⟩ := h
  · exact h.ranCycles d
  all_goals rfl

theorem ranCycles_append (d : Dev) (l l' : List Event) :
    ranCycles d (l ++ l') = ranCycles d l + ranCycles d l' := by
  simp [Machine.ranCycles]

theorem ranCycles_zero {d : Dev} {l : List Event} (h : ∀ e ∈ l, e.ranCycles d = 0) :
    ranCycles d l = 0 := by
  induction l with
  | nil => rfl
  | cons e rest ih =>
    have h1 := ih fun x hx => h x (List.mem_cons_of_mem _ hx)
    have h2 := h e (List.mem_cons_self ..)
    simpa [Machine.ranCycles, h2] using h1

/-- Where a record grows by entries that run no device, no device's cycles change. -/
theorem Extends.ranCycles {p : Event → Prop} {s t : State} (h : Extends p s t) (d : Dev)
    (hp : ∀ e, p e → e.ranCycles d = 0) : ranCycles d t.trace = ranCycles d s.trace := by
  obtain ⟨l, e, hl⟩ := h
  rw [e, ranCycles_append, ranCycles_zero fun x hx => hp x (hl x hx), Nat.add_zero]

theorem extends_recompute (s : State) : Extends Event.Nested s (recompute s) := by
  unfold recompute
  dsimp only
  split
  · exact .one rfl (.inr ⟨_, rfl⟩)
  · exact .of_eq rfl

theorem extends_driveLine (h : Nat) (p : Bool) (s : State) :
    Extends Event.Nested s (driveLine h p s).2 := by
  unfold driveLine
  split
  · exact (Extends.of_eq rfl).trans (extends_recompute _)
  · exact .of_eq rfl

theorem extends_devOp (s : State) (o : DevOp) : Extends Event.Nested s (devOp s o) := by
  cases o with
  | irqAssert h => exact (extends_driveLine h true s).trans (.one rfl (.inl ⟨_, _, rfl⟩))
  | irqDeassert h => exact (extends_driveLine h false s).trans (.one rfl (.inl ⟨_, _, rfl⟩))
  | vramRead a => exact .one rfl (.inl ⟨_, _, rfl⟩)
  | vramWrite a v => exact .one rfl (.inl ⟨_, _, rfl⟩)

theorem extends_devOps (call : DevCall) (ops : List DevOp) (s : State) :
    Extends Event.Nested s (devOps call ops s) := Extends.foldl extends_devOp _ s

/-- A call of a device records the call, then what its nested operations were answered. -/
theorem trace_callDevice (call : DevCall) (s : State) :
    ∃ l, (callDevice call s).2.trace = s.trace ++ .device call :: l ∧ ∀ e ∈ l, e.Nested := by
  obtain ⟨l, e, hl⟩ := extends_devOps call (takeDevReply (record (.device call) s)).1.ops
    (takeDevReply (record (.device call) s)).2
  refine ⟨l, ?_, hl⟩
  simp only [callDevice, e, trace_takeDevReply, record_trace, List.append_assoc, List.singleton_append]

theorem extends_callDevice {p : Event → Prop} {call : DevCall} (s : State) (hc : p (.device call))
    (hn : ∀ e : Event, e.Nested → p e) : Extends p s (callDevice call s).2 := by
  obtain ⟨l, e, hl⟩ := trace_callDevice call s
  refine ⟨.device call :: l, e, fun x hx => ?_⟩
  rcases List.mem_cons.mp hx with rfl | hx
  · exact hc
  · exact hn x (hl x hx)

/-- Running device `d` for `n` cycles adds just that to its cycles. -/
theorem ranCycles_runDevice (d d' : Dev) (n : Nat) (s : State) :
    ranCycles d' (runDevice d n s).trace = ranCycles d' s.trace + if d = d' then n else 0 := by
  obtain ⟨l, e, hl⟩ := trace_callDevice (.run d n) s
  have h : ranCycles d' (.device (.run d n) :: l) = if d = d' then n else 0 := by
    have := ranCycles_zero (d := d') fun x hx => (hl x hx).ranCycles d'
    simpa [ranCycles, Event.ranCycles] using this
  unfold runDevice
  rw [e, ranCycles_append, h]

theorem extends_read8 (a : Addr) (s : State) : Extends Event.Bus s (read8 a s).2 := by
  unfold read8
  cases selectRead s.cfg a with
  | io d o => exact extends_callDevice s (.inr (.inl ⟨_, _, rfl⟩)) fun e => .inl
  | ctx o => exact extends_callDevice s (.inr (.inr (.inr (.inl ⟨_, rfl⟩)))) fun e => .inl
  | _ => exact .of_eq rfl

theorem extends_write8 (a : Addr) (v : Byte) (s : State) : Extends Event.Bus s (write8 a v s) := by
  unfold write8
  cases selectWrite s.cfg a with
  | io d o => exact extends_callDevice s (.inr (.inr (.inl ⟨_, _, _, rfl⟩))) fun e => .inl
  | ctx o => exact extends_callDevice s (.inr (.inr (.inr (.inr ⟨_, _, rfl⟩)))) fun e => .inl
  | _ => exact .of_eq rfl

theorem extends_cpuOp (s : State) (o : CpuOp) : Extends Event.Bus s (cpuOp s o) := by
  have hr : ∀ st r, Event.Bus (.reply st r) := fun st r => .inl (.inl ⟨st, r, rfl⟩)
  cases o with
  | rd8 a => exact (extends_read8 _ s).trans (.one rfl (hr _ _))
  | rd16 a => exact ((extends_read8 _ s).trans (extends_read8 _ _)).trans (.one rfl (hr _ _))
  | wr8 a v => exact (extends_write8 _ _ s).trans (.one rfl (hr _ _))
  | wr16 a v => exact ((extends_write8 _ _ s).trans (extends_write8 _ _ _)).trans (.one rfl (hr _ _))
  | irqGet => exact .one rfl (hr _ _)

/-! ## A device call, and what an agent nests, take no input but device answers -/

/-- The inputs but the devices' answers and the count of free values. -/
def Env.rest (e : Env) : Env := { e with devs := [], drawn := 0 }

@[simp] theorem rest_takeDevReply (s : State) : (takeDevReply s).2.env.rest = s.env.rest := by
  unfold takeDevReply; split <;> rfl

theorem env_devOp (s : State) (o : DevOp) : (devOp s o).env = s.env := by
  cases o <;> simp [devOp]

theorem env_devOps (call : DevCall) (ops : List DevOp) (s : State) : (devOps call ops s).env = s.env := by
  unfold devOps
  generalize ops.filter call.allows = l
  induction l generalizing s with
  | nil => rfl
  | cons o rest ih => exact (ih _).trans (env_devOp s o)

@[simp] theorem rest_callDevice (call : DevCall) (s : State) :
    (callDevice call s).2.env.rest = s.env.rest := by
  simp [callDevice, env_devOps]

@[simp] theorem rest_runDevice (d : Dev) (n : Nat) (s : State) :
    (runDevice d n s).env.rest = s.env.rest := rest_callDevice _ _

@[simp] theorem rest_read8 (a : Addr) (s : State) : (read8 a s).2.env.rest = s.env.rest := by
  obtain ⟨-, h⟩ | ⟨call, -, h⟩ := read8_eq a s <;> simp [h]

@[simp] theorem rest_write8 (a : Addr) (v : Byte) (s : State) :
    (write8 a v s).env.rest = s.env.rest := by
  obtain ⟨b, -, h⟩ | ⟨call, -, h⟩ | ⟨-, h⟩ := write8_eq a v s <;> simp [h]

@[simp] theorem rest_cpuOp (s : State) (o : CpuOp) : (cpuOp s o).env.rest = s.env.rest := by
  cases o <;> simp [cpuOp, read16, write16]

@[simp] theorem rest_cpuExecute (ops : List CpuOp) (s : State) :
    (cpuExecute ops s).env.rest = s.env.rest := by
  have h : ∀ t : State, (ops.foldl cpuOp t).env.rest = t.env.rest := by
    induction ops with
    | nil => exact fun t => rfl
    | cons o rest ih => exact fun t => (ih _).trans (rest_cpuOp t o)
  exact h _

@[simp] theorem clock_runDevice (d : Dev) (n : Nat) (s : State) :
    (runDevice d n s).env.clock = s.env.clock := (congrArg Env.clock (rest_runDevice d n s) :)

theorem rest_loopBody (ops : List CpuOp) (d : Nat) (s : State) :
    (loopBody ops d s).env.rest = { s.env.rest with clock := s.env.clock + d } := by
  have h := rest_cpuExecute ops s
  rw [loopBody, rest_runDevice, rest_runDevice, withClock_env]
  exact congrArg (fun e : Env => { e with clock := s.env.clock + d }) h

@[simp] theorem clock_loopBody (ops : List CpuOp) (d : Nat) (s : State) :
    (loopBody ops d s).env.clock = s.env.clock + d := (congrArg Env.clock (rest_loopBody ops d s) :)

@[simp] theorem execs_loopBody (ops : List CpuOp) (d : Nat) (s : State) :
    (loopBody ops d s).env.execs = s.env.execs := (congrArg Env.execs (rest_loopBody ops d s) :)

/-! ## The scheduler -/

theorem extends_cpuExecute (ops : List CpuOp) (s : State) :
    Extends (fun e => e = .cpuExecute ∨ e.Bus) s (cpuExecute ops s) :=
  (Extends.one rfl (.inl rfl)).trans
    (Extends.foldl (fun t o => (extends_cpuOp t o).mono fun _ => .inr) ops _)

/-- A loop body runs CIA and timer for its cycles, and no other device. -/
theorem ranCycles_loopBody (d : Dev) (ops : List CpuOp) (n : Nat) (s : State) :
    ranCycles d (loopBody ops n s).trace = ranCycles d s.trace +
      ((if Dev.cia = d then n else 0) + if Dev.timer = d then n else 0) := by
  have h := (extends_cpuExecute ops s).ranCycles d fun e he => by
    obtain rfl | he := he
    · rfl
    · exact he.ranCycles d
  rw [loopBody, ranCycles_runDevice, ranCycles_runDevice, withClock_trace, h, Nat.add_assoc]

@[simp] theorem rest_takeOccupancy (s : State) :
    { (takeOccupancy s).2.env with occupancies := [], drawn := 0 } =
      { s.env with occupancies := [], drawn := 0 } := by
  unfold takeOccupancy; split <;> rfl

theorem extends_sampleOccupancy (s : State) :
    Extends (fun e => e = .audioQueueBytes) s (sampleOccupancy s).2 :=
  .one (trace_takeOccupancy _) rfl

theorem extends_startTest (s : State) :
    Extends (fun e => e = .audioQueueBytes ∨ e = .startAudio) s (startTest s) := by
  have h := (extends_sampleOccupancy s).mono fun e he => Or.inl (b := e = .startAudio) he
  unfold startTest
  dsimp only
  split
  · exact h.trans (.one rfl (.inr rfl))
  · exact h

/-- The audio step runs no device but sound. -/
theorem ranCycles_audioStep {d : Dev} (hd : d ≠ .sound) (c : Nat) (drive : Bool) (s : State) :
    ranCycles d (audioStep c drive s).trace = ranCycles d s.trace := by
  have hs : ∀ t : State, ranCycles d (sampleOccupancy t).2.trace = ranCycles d t.trace :=
    fun t => (extends_sampleOccupancy t).ranCycles d fun e he => by rw [he]; rfl
  have hst : ∀ t : State, ranCycles d (startTest t).trace = ranCycles d t.trace :=
    fun t => (extends_startTest t).ranCycles d fun e he => by rcases he with rfl | rfl <;> rfl
  have hc : ∀ (b : Band) (t : State), (countBand b t).trace = t.trace := fun b t => by cases b <;> rfl
  have hr : ∀ (pct : Nat) (t : State), ranCycles d (soundRun c pct t).trace = ranCycles d t.trace :=
    fun pct t => by simp [soundRun, ranCycles_runDevice, Ne.symm hd, clock]
  have hdr : ∀ t : State, ranCycles d (drainRecord t).trace = ranCycles d t.trace := fun t => by
    have h1 := (extends_callDevice (call := .drainRecordBuffer)
      (p := fun e => e = .device .drainRecordBuffer ∨ e.Nested) t (.inl rfl) fun e => .inr).ranCycles d
        fun e he => by
          rcases he with rfl | he
          · rfl
          · exact he.ranCycles d
    simp only [drainRecord, record_trace, ranCycles_append, h1]
    rfl
  have hv : ∀ (b : Band) (t : State), ranCycles d (driveSound c b t).trace = ranCycles d t.trace := by
    intro b t
    unfold driveSound
    cases soundPercent t.recording b with
    | none => rfl
    | some pct =>
      dsimp only
      split
      · rw [hdr, hr]
      · exact hr _ _
  unfold audioStep
  dsimp only
  rw [hst]
  split
  · rw [hv, hc, hs]
  · rw [hc, hs]

theorem ranCycles_drainBlitter (d : Dev) (l : List BlitReply) (s : State) :
    ranCycles d (drainBlitter l s).trace = ranCycles d s.trace := by
  induction l generalizing s with
  | nil => rfl
  | cons r rest ih =>
    cases r with
    | endless => rfl
    | ran ops more =>
      have h1 : ranCycles d (devOps .runNextOperation ops
          (takeBlit (record (.device .runNextOperation) s))).trace = ranCycles d s.trace := by
        rw [(extends_devOps .runNextOperation ops _).ranCycles d fun e he => he.ranCycles d,
          trace_takeBlit, record_trace, ranCycles_append]
        rfl
      simp only [drainBlitter]
      split
      · exact (ih _).trans h1
      · exact h1

/-- The frame step runs no device. -/
theorem ranCycles_frameStep (d : Dev) (c : Nat) (drive : Bool) (s : State) :
    ranCycles d (frameStep c drive s).trace = ranCycles d s.trace := by
  have hn : ∀ t : State, ranCycles d (callDevice .notifyScreenRefresh t).2.trace = ranCycles d t.trace :=
    fun t => (extends_callDevice (call := .notifyScreenRefresh)
      (p := fun e => e = .device .notifyScreenRefresh ∨ e.Nested) t (.inl rfl) fun e => .inr).ranCycles d
        fun e he => by
          rcases he with rfl | he
          · rfl
          · exact he.ranCycles d
  unfold frameStep
  dsimp only
  split
  · unfold frameBoundary
    cases drive with
    | false => rfl
    | true => exact (ranCycles_drainBlitter d _ _).trans (hn _)
  · rfl

/-- What one loop body adds to a device's cycles. -/
theorem ranCycles_takenBody (d : Dev) (ops : List CpuOp) (n : Nat) (s : State) :
    ranCycles d (loopBody ops n (takeExec s)).trace = ranCycles d s.trace +
      ((if Dev.cia = d then n else 0) + if Dev.timer = d then n else 0) := by
  rw [ranCycles_loopBody, trace_takeExec]

/-- The loop of RUN runs CIA and timer for the cycles it consumes, and no other device, and takes the
CPU's clock on by them, within its range. -/
theorem ranCycles_runLoop {d : Dev} {bal frame : Int} {l : List ExecReply} {consumed : Nat} {s : State}
    {e : LoopEnd} (h : runLoop bal frame l consumed s = .ok e) :
    ranCycles d e.state.trace = ranCycles d s.trace +
      ((if Dev.cia = d then e.consumed - consumed else 0) +
        if Dev.timer = d then e.consumed - consumed else 0) ∧ consumed ≤ e.consumed := by
  have stalled : ∀ {consumed : Nat} {s : State}, stalledLoop bal consumed s = .ok e →
      ranCycles d e.state.trace = ranCycles d s.trace +
        ((if Dev.cia = d then e.consumed - consumed else 0) +
          if Dev.timer = d then e.consumed - consumed else 0) ∧ consumed ≤ e.consumed := by
    intro consumed s h
    obtain ⟨-, rfl⟩ := stalledLoop_ok h
    refine ⟨?_, Nat.le_refl _⟩
    simp only [Nat.sub_self]
    exact ranCycles_takenBody d _ _ _
  induction l generalizing consumed s with
  | nil => exact stalled h
  | cons r rest ih =>
    cases r with
    | stalled => exact stalled h
    | ran ops delta bp =>
      have hb := ranCycles_takenBody d ops delta.toNat s
      obtain ⟨-, -, ⟨-, rfl⟩ | ⟨-, -, ⟨-, rfl⟩ | ⟨-, hr⟩⟩⟩ := runLoop_ran h
      · refine ⟨?_, Nat.le_add_right _ _⟩
        simp only [Nat.add_sub_cancel_left]
        exact hb
      · refine ⟨?_, Nat.le_add_right _ _⟩
        simp only [Nat.add_sub_cancel_left]
        exact hb
      · obtain ⟨h1, h2⟩ := ih hr
        refine ⟨?_, by omega⟩
        rw [h1, hb]
        split <;> split <;> omega

/-- The loop of RUN takes the CPU's clock on by the cycles it consumes, within its range. -/
theorem clock_runLoop {bal frame : Int} {l : List ExecReply} {consumed : Nat} {s : State} {e : LoopEnd}
    (h : runLoop bal frame l consumed s = .ok e) :
    e.state.env.clock + consumed = s.env.clock + e.consumed ∧
      (s.env.clock ≤ clockMax → e.state.env.clock ≤ clockMax) := by
  have stalled : ∀ {consumed : Nat} {s : State}, stalledLoop bal consumed s = .ok e →
      e.state.env.clock + consumed = s.env.clock + e.consumed ∧
        (s.env.clock ≤ clockMax → e.state.env.clock ≤ clockMax) := by
    intro consumed s h
    obtain ⟨-, rfl⟩ := stalledLoop_ok h
    simp
  induction l generalizing consumed s with
  | nil => exact stalled h
  | cons r rest ih =>
    cases r with
    | stalled => exact stalled h
    | ran ops delta bp =>
      obtain ⟨hc, -, ⟨-, rfl⟩ | ⟨-, -, ⟨-, rfl⟩ | ⟨-, hr⟩⟩⟩ := runLoop_ran h
      · simp only [clock_loopBody, clock_takeExec]
        exact ⟨by omega, fun _ => hc⟩
      · simp only [clock_loopBody, clock_takeExec]
        exact ⟨by omega, fun _ => hc⟩
      · have h1 := ih hr
        simp only [clock_loopBody, clock_takeExec] at h1
        exact ⟨by omega, fun _ => h1.2 hc⟩

/-! ## The CPU's answers are taken by the loop alone -/

theorem execs_of_rest {s t : State} (h : t.env.rest = s.env.rest) : t.env.execs = s.env.execs :=
  (congrArg Env.execs h :)

@[simp] theorem execs_callDevice (call : DevCall) (s : State) :
    (callDevice call s).2.env.execs = s.env.execs := execs_of_rest (rest_callDevice call s)

@[simp] theorem execs_sampleOccupancy (s : State) : (sampleOccupancy s).2.env.execs = s.env.execs :=
  (congrArg Env.execs (rest_takeOccupancy (record .audioQueueBytes s)) :)

@[simp] theorem execs_startTest (s : State) : (startTest s).env.execs = s.env.execs := by
  unfold startTest
  dsimp only
  split
  · rw [record_env, execs_sampleOccupancy]
  · exact execs_sampleOccupancy s

theorem execs_driveSound (c : Nat) (b : Band) (s : State) :
    (driveSound c b s).env.execs = s.env.execs := by
  have hr : ∀ pct, (soundRun c pct s).env.execs = s.env.execs :=
    fun pct => execs_callDevice _ _
  unfold driveSound
  cases soundPercent s.recording b with
  | none => rfl
  | some pct =>
    dsimp only
    split
    · exact (execs_callDevice .drainRecordBuffer _).trans (hr pct)
    · exact hr pct

theorem execs_audioStep (c : Nat) (drive : Bool) (s : State) :
    (audioStep c drive s).env.execs = s.env.execs := by
  have hc : ∀ (b : Band) (t : State), (countBand b t).env.execs = t.env.execs :=
    fun b t => by cases b <;> rfl
  unfold audioStep
  dsimp only
  rw [execs_startTest]
  split
  · rw [execs_driveSound, hc, execs_sampleOccupancy]
  · rw [hc, execs_sampleOccupancy]

theorem execs_drainBlitter (l : List BlitReply) (s : State) :
    (drainBlitter l s).env.execs = s.env.execs := by
  have ht : ∀ u : State, (takeBlit u).env.execs = u.env.execs := fun u => by
    unfold takeBlit; split <;> rfl
  induction l generalizing s with
  | nil => rfl
  | cons r rest ih =>
    cases r with
    | endless => rfl
    | ran ops more =>
      simp only [drainBlitter]
      split
      · rw [ih, env_devOps, ht, record_env]
      · rw [env_devOps, ht, record_env]

theorem execs_frameStep (c : Nat) (drive : Bool) (s : State) :
    (frameStep c drive s).env.execs = s.env.execs := by
  unfold frameStep
  dsimp only
  split
  · unfold frameBoundary
    cases drive with
    | false => rfl
    | true => exact (execs_drainBlitter _ _).trans (execs_callDevice .notifyScreenRefresh _)
  · rfl

theorem execs_finishRun (bal : Int) (e : LoopEnd) : (finishRun bal e).env.execs = e.state.env.execs := by
  unfold finishRun retimeRun
  rw [answer_env, execs_frameStep, execs_audioStep]
  unfold settleRun
  split <;> rfl

/-! ## The loop of RUN over a script -/

/-- The state after the loop bodies of a script. -/
def scriptState : List ScriptedInstr → State → State
  | [], s => s
  | i :: rest, s => scriptState rest (loopBody i.ops i.delta.toNat (takeExec s))

theorem scriptCycles_cons (i : ScriptedInstr) (l : List ScriptedInstr) :
    scriptCycles (i :: l) = i.delta.toNat + scriptCycles l := by simp [scriptCycles]

theorem clock_scriptState (l : List ScriptedInstr) (s : State) :
    (scriptState l s).env.clock = s.env.clock + scriptCycles l := by
  induction l generalizing s with
  | nil => rfl
  | cons i rest ih =>
    rw [scriptState, ih, clock_loopBody, clock_takeExec, scriptCycles_cons]
    omega

theorem execs_scriptState (l : List ScriptedInstr) (s : State) :
    (scriptState l s).env.execs = s.env.execs.drop l.length := by
  induction l generalizing s with
  | nil => rfl
  | cons i rest ih =>
    rw [scriptState, ih, execs_loopBody, execs_takeExec, List.drop_drop, List.length_cons,
      Nat.add_comm]

theorem own_scriptState (l : List ScriptedInstr) (s : State) : (scriptState l s).own = s.own := by
  induction l generalizing s with
  | nil => rfl
  | cons i rest ih => exact (ih _).trans (own_takenBody _ _ _)

/-- Instructions that reach neither a breakpoint nor the balance are run through. -/
theorem runLoop_script {bal frame : Int} {tail : List ExecReply} (before : List ScriptedInstr)
    (consumed : Nat) (s : State) (hb : ∀ i ∈ before, i.breakpoint = false)
    (hk : ∀ k, 0 < k → k ≤ before.length → (consumed + scriptCycles (before.take k) : Int) < bal)
    (hc : s.env.clock + scriptCycles before ≤ clockMax)
    (hf : frame + consumed + scriptCycles before ≤ balanceMax) :
    runLoop bal frame (before.map ScriptedInstr.reply ++ tail) consumed s =
      runLoop bal frame tail (consumed + scriptCycles before) (scriptState before s) := by
  have hneg : balanceMin ≤ 0 := by decide
  induction before generalizing consumed s with
  | nil => rfl
  | cons i rest ih =>
    have e1 := scriptCycles_cons i rest
    have k1 := hk 1 (by simp) (by simp)
    have e2 : scriptCycles ((i :: rest).take 1) = i.delta.toNat := by simp [scriptCycles]
    rw [e2] at k1
    rw [e1] at hf hc ⊢
    have h := ih (consumed + i.delta.toNat) (loopBody i.ops i.delta.toNat (takeExec s))
      (fun x hx => hb x (List.mem_cons_of_mem _ hx))
      (fun k h1 h2 => by
        have h3 := hk (k + 1) (by omega) (by simpa using h2)
        rw [List.take_succ_cons, scriptCycles_cons] at h3
        omega)
      (by rw [clock_loopBody, clock_takeExec]; omega)
      (by omega)
    rw [← Nat.add_assoc, List.map_cons, List.cons_append, scriptState, ← h]
    have hbi := hb i (List.mem_cons_self ..)
    simp only [ScriptedInstr.reply, runLoop, hbi]
    rw [if_neg (by omega), if_neg (by omega), if_neg (by simp), if_neg (by omega), if_neg (by omega)]

end Sys2Proof.Machine
end

