-- ==== Sys2Proof/Laws/Exec.lean ====
section
/-! SUPPORT. What each command leaves of the block's own fields (`State.own`): what nested operations of
external agents cannot touch. -/

namespace Sys2Proof.Machine

theorem own_answered {u s : State} (r : Result) (h : u.own = s.own) :
    (answer r u).own = { s.own with status := (answer r u).status, result := (answer r u).result } :=
  congrArg (fun w : State => { w with status := .ok, result := r }) h

theorem own_raised {u s : State} (st : Status) (h : u.own = s.own) :
    (raise st u).own = { s.own with status := (raise st u).status, result := (raise st u).result } :=
  congrArg (fun w : State => { w with status := st, result := .none }) h

/-- The commands that leave everything but video memory, the pulled lines and their level alone. -/
def leavesOwn : Instr → Bool
  | .rd8 _ => true
  | .rd16 _ => true
  | .wr8 _ _ => true
  | .wr16 _ _ => true
  | .ldrom => false
  | .insbin _ => true
  | .irqreg _ => false
  | .irqasr _ => true
  | .irqdea _ => true
  | .irqrcp => true
  | .irqget => true
  | .fdclk _ _ => false
  | .run _ => false
  | .prun _ => false
  | .reset => false
  | .togmode => false
  | .togrec => false
  | .health => false
  | .takeframe => false
  | .stats => true

theorem own_insertBinary (b0 b1 : Byte) (data : List Byte) (s : State) :
    (insertBinary b0 b1 data s).own = s.own := by simp [insertBinary, writeSlots]


/-- What such a command leaves. -/
theorem own_exec {i : Instr} {s t : State} (hi : leavesOwn i = true) (h : exec i s = .next t) :
    t.own = { s.own with status := t.status, result := t.result } := by
  cases i <;> simp only [leavesOwn, Bool.false_eq_true] at hi <;> simp only [exec] at h
  case rd8 a => cases h; exact own_answered _ (own_read8 a s)
  case rd16 a => cases h; exact own_answered _ (own_read16 a s)
  case wr8 a v => cases h; exact own_answered _ (own_write8 a v s)
  case wr16 a v => cases h; exact own_answered _ (own_write16 a v s)
  case insbin f =>
    have hb : (takeBinFile (record (.openBinary f) s)).2.own = s.own := own_takeBinFile _
    unfold execInsbin at h
    generalize takeBinFile (record (.openBinary f) s) = p at hb h
    obtain ⟨g, s'⟩ := p
    have ht := (Host.Outcome.next.inj h).symm
    subst ht
    dsimp only
    split
    · exact own_raised _ hb
    · exact own_answered _ ((own_insertBinary _ _ _ s').trans hb)
    · exact own_raised _ hb
  case irqasr n => cases h; exact own_raised _ (own_driveLine _ _ _)
  case irqdea n => cases h; exact own_raised _ (own_driveLine _ _ _)
  case irqrcp => cases h; exact own_answered _ (own_recompute s)
  case irqget => cases h; exact own_answered _ rfl
  case stats => cases h; exact own_answered _ rfl

theorem execLdrom_eq (s : State) : execLdrom s = .next (raise (loadRom s).1 (loadRom s).2) := rfl

theorem execReset_eq (s : State) : execReset s =
    .next (raise (loadRom (clearScheduler s)).1 (resetAgents (loadRom (clearScheduler s)).2)) := rfl

/-- The load of the ROM image changes the image alone. -/
theorem own_loadRom (s : State) :
    ∃ image, (loadRom s).2.own = { s.own with rom := Memory.ofBytes image } := by
  have ho : (takeRomFile (record .romFile s)).2.own = s.own := own_takeRomFile _
  unfold loadRom
  generalize takeRomFile (record .romFile s) = p at ho
  obtain ⟨f, s'⟩ := p
  have key : ∀ image, ({ s' with rom := Memory.ofBytes image } : State).own =
      { s.own with rom := Memory.ofBytes image } :=
    fun image => congrArg (fun w : State => { w with rom := Memory.ofBytes image }) ho
  cases f with
  | notConfigured => exact ⟨_, key _⟩
  | missing => exact ⟨_, key _⟩
  | file b =>
    dsimp only
    split
    · exact ⟨_, key _⟩
    · exact ⟨_, key _⟩

theorem own_execLdrom {s t : State} (h : execLdrom s = .next t) :
    ∃ rom, t.own = { s.own with rom := rom, status := t.status, result := .none } := by
  obtain ⟨image, e⟩ := own_loadRom s
  have ht := (Host.Outcome.next.inj ((execLdrom_eq s).symm.trans h)).symm
  generalize (loadRom s).1 = st at ht
  generalize (loadRom s).2 = u at ht e
  subst ht
  exact ⟨_, congrArg (fun w : State => { w with status := st, result := .none }) e⟩

theorem own_execFdclk {pct n : Nat} {s t : State} (h : execFdclk pct n s = .next t) :
    t.own = { s.own with status := .ok, result := t.result, divRem := remAfter s n pct } := by
  cases h
  rfl

theorem own_execTogmode {s t : State} (h : execTogmode s = .next t) :
    t.own = { s.own with
      status := .ok, result := .none
      mode := match s.mode with | .running => .paused | .paused => .running } := by
  cases h
  rfl

theorem own_execTogrec {s t : State} (h : execTogrec s = .next t) :
    t.own = { s.own with status := .ok, result := .none, recording := !s.recording } := by
  have ht := (Host.Outcome.next.inj h).symm
  subst ht
  split
  · rename_i hr
    rw [hr]
    rfl
  · rename_i hr
    rw [Bool.not_eq_true] at hr
    rw [hr]
    exact congrArg (fun w : State => { w with status := .ok, result := .none, recording := true })
      (own_callDevice .clearRecordBuffer s)

theorem own_execHealth {s t : State} (h : execHealth s = .next t) :
    t.own = { s.own with
      status := .ok, result := t.result
      lapUnder := s.underrun, lapEqual := s.equalrun, lapOver := s.overrun } := by
  cases h
  rfl

theorem own_execTakeframe {s t : State} (h : execTakeframe s = .next t) :
    t.own = { s.own with status := .ok, result := t.result, frameDone := false } := by
  cases h
  rfl

theorem own_resetAgents (s : State) : (resetAgents s).own = s.own := by
  simp [resetAgents, resetDevice]

theorem own_execReset {s t : State} (h : execReset s = .next t) :
    ∃ rom, t.own =
      { (clearScheduler s).own with rom := rom, status := t.status, result := .none } := by
  obtain ⟨image, e⟩ := own_loadRom (clearScheduler s)
  have ht := (Host.Outcome.next.inj ((execReset_eq s).symm.trans h)).symm
  generalize (loadRom (clearScheduler s)).1 = st at ht
  generalize (loadRom (clearScheduler s)).2 = u at ht e
  have ha := (own_resetAgents u).trans e
  generalize resetAgents u = w at ht ha
  subst ht
  exact ⟨_, congrArg (fun w : State => { w with status := st, result := .none }) ha⟩

/-! ## PRUN -/

/-- A band the next occupancy sample can give: that of the listed occupancy, any where none is listed. -/
def BandOf (s : State) (band : Band) : Prop :=
  ∀ occ rest, s.env.occupancies = occ :: rest → band = classify s.cfg.audioTarget occ

theorem bandOf_nextBand (s : State) : BandOf s (nextBand s) := fun occ rest h => by
  simp [nextBand, takeOccupancy, h]

/-- The next band depends on the configuration and the occupancies alone. -/
theorem BandOf.of_eq {s u : State} {band : Band} (h : BandOf u band) (hc : u.cfg = s.cfg)
    (ho : u.env.occupancies = s.env.occupancies) : BandOf s band :=
  fun occ rest he => hc ▸ h occ rest (ho.trans he)

/-- Which tally overflows where the next occupancy is listed. -/
theorem BandOf.countOverflows {s : State} {band : Band} {occ : Nat} {rest : List Nat} (h : BandOf s band)
    (ho : s.env.occupancies = occ :: rest) :
    countOverflows band s = (s.tallyFor occ == tallyMax) :=
  h occ rest ho ▸ countOverflows_classify s occ

/-- No tally overflows where the next one has room. -/
theorem BandOf.hasRoom {s : State} {band : Band} (h : BandOf s band) (hr : s.tallyHasRoom = true) :
    Machine.countOverflows band s = false := by
  unfold State.tallyHasRoom at hr
  split at hr
  · rename_i ho
    rw [h.countOverflows ho]
    simpa using hr
  · simp only [bne_iff_ne, Bool.and_eq_true] at hr
    obtain ⟨⟨h1, h2⟩, h3⟩ := hr
    simp [Machine.countOverflows, h1, h2, h3]

/-- The band of a PRUN. -/
theorem bandOf_prun (n : Nat) (s : State) :
    BandOf s (nextBand (runDevice .timer n (runDevice .cia n s))) := by
  refine (bandOf_nextBand _).of_eq (cfg_of_own ?_) ?_
  · rw [own_runDevice, own_runDevice]
  · exact (congrArg Env.occupancies ((rest_runDevice _ _ _).trans (rest_runDevice _ _ _)) :)

/-- The audio and frame steps together. -/
theorem own_audioFrame (c : Nat) (drive : Bool) (s : State) :
    (frameStep c drive (audioStep c drive s)).own = { s.own with
      underrun := s.underrun + (nextBand s).increments.1
      equalrun := s.equalrun + (nextBand s).increments.2.1
      overrun := s.overrun + (nextBand s).increments.2.2
      divRem := if drive then remDriven s c (nextBand s) else s.divRem
      frameDone := s.frameDone || frameExceeded s.cfg.frameBudget (s.frameBalance + c)
      frameBalance := if frameExceeded s.cfg.frameBudget (s.frameBalance + c)
        then s.frameBalance + c - s.cfg.frameBudget else s.frameBalance + c } := by
  have h := own_audioStep c drive s
  have hd : (audioStep c drive s).frameDone = s.frameDone := (congrArg State.frameDone h :)
  have hf : (audioStep c drive s).frameBalance = s.frameBalance := (congrArg State.frameBalance h :)
  have hc : (audioStep c drive s).cfg = s.cfg := (congrArg State.cfg h :)
  rw [own_frameStep, h, hd, hf, hc]

/-- What PRUN can do where it answers a next state. -/
theorem execPrun_eq {n : Nat} {s t : State} (h : execPrun n s = .next t) :
    let u := runDevice .timer n (runDevice .cia n s)
    s.frameBalance + n ≤ balanceMax ∧ countOverflows (nextBand u) s = false ∧
      t = answer (.run .stepped) (frameStep n false (audioStep n false u)) := by
  unfold execPrun at h
  dsimp only at h
  split at h
  · cases h
  · rename_i hle
    split at h
    · cases h
    · rename_i hroom
      cases h
      exact ⟨by omega, by simpa using hroom, rfl⟩

theorem own_execPrun {n : Nat} {s t : State} (h : execPrun n s = .next t) :
    s.frameBalance + n ≤ balanceMax ∧ ∃ band, BandOf s band ∧ countOverflows band s = false ∧
      t.own = { s.own with
      status := .ok
      result := .run .stepped
      underrun := s.underrun + band.increments.1
      equalrun := s.equalrun + band.increments.2.1
      overrun := s.overrun + band.increments.2.2
      frameDone := s.frameDone || frameExceeded s.cfg.frameBudget (s.frameBalance + n)
      frameBalance := if frameExceeded s.cfg.frameBudget (s.frameBalance + n)
        then s.frameBalance + n - s.cfg.frameBudget else s.frameBalance + n } := by
  obtain ⟨hle, hroom, rfl⟩ := execPrun_eq h
  have hb := bandOf_prun n s
  generalize hu : runDevice .timer n (runDevice .cia n s) = u at hb hroom
  have ho : u.own = s.own := by rw [← hu, own_runDevice, own_runDevice]
  have hk := own_audioFrame n false u
  rw [ho, underrun_of_own ho, equalrun_of_own ho, overrun_of_own ho, divRem_of_own ho,
    frameDone_of_own ho, frameBalance_of_own ho, cfg_of_own ho] at hk
  exact ⟨hle, nextBand u, hb, hroom,
    congrArg (fun w : State => { w with status := .ok, result := .run .stepped }) hk⟩

/-! ## RUN -/

/-- The inputs but those the loop of RUN takes or moves: the answers of the CPU and the devices, the CPU's
clock and the count of free values. -/
def Env.outside (e : Env) : Env := { e.rest with execs := [], clock := 0 }

/-- The loop of RUN leaves the block's own fields and the other inputs alone. -/
theorem runLoop_outside {bal frame : Int} {l : List ExecReply} {consumed : Nat} {s : State} {e : LoopEnd}
    (h : runLoop bal frame l consumed s = .ok e) :
    e.state.own = s.own ∧ e.state.env.outside = s.env.outside := by
  have body : ∀ ops d (s : State), (loopBody ops d (takeExec s)).own = s.own ∧
      (loopBody ops d (takeExec s)).env.outside = s.env.outside := fun ops d s => by
    refine ⟨own_takenBody _ _ _, ?_⟩
    rw [Env.outside, rest_loopBody]
    unfold takeExec
    split <;> rfl
  have stalled : ∀ {consumed : Nat} {s : State}, stalledLoop bal consumed s = .ok e →
      e.state.own = s.own ∧ e.state.env.outside = s.env.outside := by
    intro consumed s h
    obtain ⟨-, rfl⟩ := stalledLoop_ok h
    exact body _ _ s
  induction l generalizing consumed s with
  | nil => exact stalled h
  | cons r rest ih =>
    cases r with
    | stalled => exact stalled h
    | ran ops delta bp =>
      obtain ⟨-, -, ⟨-, rfl⟩ | ⟨-, -, ⟨-, rfl⟩ | ⟨-, hr⟩⟩⟩ := runLoop_ran h
      · exact body _ _ s
      · exact body _ _ s
      · obtain ⟨h1, h2⟩ := ih hr
        exact ⟨h1.trans (body _ _ s).1, h2.trans (body _ _ s).2⟩

/-- What RUN leaves of the block's own fields, by how its loop ended. -/
theorem own_finishRun {bal : Int} {e : LoopEnd} {s : State}
    (ho : e.state.own = ({ s with cpuBalance := bal } : State).own)
    (hocc : e.state.env.occupancies = s.env.occupancies) :
    let band := nextBand (settleRun bal e)
    BandOf s band ∧ (finishRun bal e).own = { s.own with
      status := .ok
      result := .run (if e.breakpoint then .breakpointHit else .stepped)
      cpuBalance := if e.breakpoint then 0 else bal - e.consumed
      mode := if e.breakpoint then .paused else s.mode
      underrun := s.underrun + band.increments.1
      equalrun := s.equalrun + band.increments.2.1
      overrun := s.overrun + band.increments.2.2
      divRem := remDriven s e.consumed band
      frameDone := s.frameDone || frameExceeded s.cfg.frameBudget (s.frameBalance + e.consumed)
      frameBalance := if frameExceeded s.cfg.frameBudget (s.frameBalance + e.consumed)
        then s.frameBalance + e.consumed - s.cfg.frameBudget else s.frameBalance + e.consumed } := by
  have hs := own_settleRun bal e
  rw [ho] at hs
  have hm : e.state.mode = s.mode := (congrArg State.mode ho :)
  rw [hm] at hs
  have hso : (settleRun bal e).env.occupancies = s.env.occupancies := by
    rw [← hocc]
    unfold settleRun
    split <;> rfl
  generalize hu : settleRun bal e = u at hs hso
  have hcfg : u.cfg = s.cfg := (congrArg State.cfg hs :)
  have h1 : u.underrun = s.underrun := (congrArg State.underrun hs :)
  have h2 : u.equalrun = s.equalrun := (congrArg State.equalrun hs :)
  have h3 : u.overrun = s.overrun := (congrArg State.overrun hs :)
  have h4 : u.divRem = s.divRem := (congrArg State.divRem hs :)
  have h5 : u.frameDone = s.frameDone := (congrArg State.frameDone hs :)
  have h6 : u.frameBalance = s.frameBalance := (congrArg State.frameBalance hs :)
  have h7 : u.recording = s.recording := (congrArg State.recording hs :)
  have hk := own_audioFrame e.consumed true u
  have hr : remDriven u e.consumed (nextBand u) = remDriven s e.consumed (nextBand u) := by
    simp only [remDriven, remAfter, hcfg, h4, h7]
  rw [if_pos rfl, hs, h1, h2, h3, h5, h6, hcfg, hr] at hk
  rw [finishRun, retimeRun, hu]
  exact ⟨(bandOf_nextBand u).of_eq hcfg hso, congrArg (fun w : State => { w with
    status := .ok, result := .run (if e.breakpoint then .breakpointHit else .stepped) }) hk⟩

/-- What RUN leaves of the block's own fields. -/
theorem own_execRun {n : Nat} {s t : State} (h : execRun n s = .next t) :
    ∃ e band, BandOf s band ∧ countOverflows band s = false ∧
      runLoop (s.cpuBalance + n) s.frameBalance (execAnswers s) 0
      { s with cpuBalance := s.cpuBalance + n } = .ok e ∧ t = finishRun (s.cpuBalance + n) e ∧
      t.own = { s.own with
        status := .ok
        result := .run (if e.breakpoint then .breakpointHit else .stepped)
        cpuBalance := if e.breakpoint then 0 else s.cpuBalance + n - e.consumed
        mode := if e.breakpoint then .paused else s.mode
        underrun := s.underrun + band.increments.1
        equalrun := s.equalrun + band.increments.2.1
        overrun := s.overrun + band.increments.2.2
        divRem := remDriven s e.consumed band
        frameDone := s.frameDone || frameExceeded s.cfg.frameBudget (s.frameBalance + e.consumed)
        frameBalance := if frameExceeded s.cfg.frameBudget (s.frameBalance + e.consumed)
          then s.frameBalance + e.consumed - s.cfg.frameBudget else s.frameBalance + e.consumed } := by
  obtain ⟨-, e, he, hroom, ht⟩ := execRun_eq h
  obtain ⟨ho, hr⟩ := runLoop_outside he
  have hocc := (congrArg Env.occupancies hr :)
  obtain ⟨hb, hown⟩ := own_finishRun (s := s) ho hocc
  exact ⟨e, _, hb, hroom, he, ht, ht ▸ hown⟩

/-- RUN runs CIA and timer for the cycles its loop consumed. -/
theorem ranCycles_finishRun {d : Dev} (hd : d ≠ .sound) (bal : Int) (e : LoopEnd) :
    ranCycles d (finishRun bal e).trace = ranCycles d e.state.trace := by
  have h : ranCycles d (settleRun bal e).trace = ranCycles d e.state.trace := by
    unfold settleRun
    split
    · simp only [record_trace, ranCycles_append]
      rfl
    · rfl
  unfold finishRun retimeRun
  rw [answer_trace, ranCycles_frameStep, ranCycles_audioStep hd, h]

/-! ## The CPU's clock -/

theorem clock_takeOccupancy (s : State) : (takeOccupancy s).2.env.clock = s.env.clock := by
  unfold takeOccupancy; split <;> rfl

theorem clock_callDevice (call : DevCall) (s : State) :
    (callDevice call s).2.env.clock = s.env.clock := (congrArg Env.clock (rest_callDevice call s) :)

theorem clock_audioStep (c : Nat) (drive : Bool) (s : State) :
    (audioStep c drive s).env.clock = s.env.clock := by
  have ho : ∀ t : State, (sampleOccupancy t).2.env.clock = t.env.clock := fun t => clock_takeOccupancy _
  have hst : ∀ t : State, (startTest t).env.clock = t.env.clock := fun t => by
    unfold startTest
    dsimp only
    split
    · exact ho t
    · exact ho t
  have hcb : ∀ (b : Band) (t : State), (countBand b t).env.clock = t.env.clock :=
    fun b t => by cases b <;> rfl
  have hr : ∀ (pct : Nat) (t : State), (soundRun c pct t).env.clock = t.env.clock :=
    fun pct t => clock_callDevice _ _
  have hv : ∀ (b : Band) (t : State), (driveSound c b t).env.clock = t.env.clock := fun b t => by
    unfold driveSound
    cases soundPercent t.recording b with
    | none => rfl
    | some pct =>
      dsimp only
      split
      · exact (clock_callDevice .drainRecordBuffer _).trans (hr pct t)
      · exact hr pct t
  unfold audioStep
  dsimp only
  rw [hst]
  split
  · rw [hv, hcb, ho]
  · rw [hcb, ho]

theorem clock_drainBlitter (l : List BlitReply) (s : State) :
    (drainBlitter l s).env.clock = s.env.clock := by
  have ht : ∀ u : State, (takeBlit u).env.clock = u.env.clock := fun u => by
    unfold takeBlit; split <;> rfl
  induction l generalizing s with
  | nil => rfl
  | cons r rest ih =>
    cases r with
    | endless => rfl
    | ran ops more =>
      simp only [drainBlitter]
      split
      · rw [ih, env_devOps, ht, record_env]
      · rw [env_devOps, ht, record_env]

theorem clock_frameStep (c : Nat) (drive : Bool) (s : State) :
    (frameStep c drive s).env.clock = s.env.clock := by
  unfold frameStep
  dsimp only
  split
  · unfold frameBoundary
    cases drive with
    | false => rfl
    | true => exact (clock_drainBlitter _ _).trans (clock_callDevice .notifyScreenRefresh _)
  · rfl

theorem clock_writeBytes (a : Addr) (b : List Byte) (s : State) :
    (writeBytes a b s).env.clock = s.env.clock := by
  induction b generalizing a s with
  | nil => rfl
  | cons x rest ih => exact (ih _ _).trans (congrArg Env.clock (rest_write8 a x s) :)

theorem clock_loadRom (s : State) : (loadRom s).2.env.clock = s.env.clock := by
  have h : (takeRomFile (record .romFile s)).2.env.clock = s.env.clock := by
    unfold takeRomFile; split <;> rfl
  unfold loadRom
  generalize takeRomFile (record .romFile s) = p at h
  obtain ⟨f, s'⟩ := p
  cases f with
  | notConfigured => exact h
  | missing => exact h
  | file b => dsimp only; split <;> exact h

theorem clock_read8 (a : Addr) (s : State) : (read8 a s).2.env.clock = s.env.clock :=
  (congrArg Env.clock (rest_read8 a s) :)

theorem clock_write8 (a : Addr) (v : Byte) (s : State) : (write8 a v s).env.clock = s.env.clock :=
  (congrArg Env.clock (rest_write8 a v s) :)

/-- No command but RUN and RESET moves the CPU's clock. -/
theorem clock_exec {i : Instr} {s t : State} (h : exec i s = .next t) (hr : ∀ n, i ≠ .run n)
    (hz : i ≠ .reset) : t.env.clock = s.env.clock := by
  have hd : ∀ n p, (driveLine n p s).2.env.clock = s.env.clock := fun n p => by rw [env_driveLine]
  cases i <;> simp only [exec] at h
  case rd8 a => cases h; exact clock_read8 a s
  case rd16 a => cases h; exact (clock_read8 _ _).trans (clock_read8 a s)
  case wr8 a v => cases h; exact clock_write8 a v s
  case wr16 a v => cases h; exact (clock_write8 _ _ _).trans (clock_write8 a _ s)
  case ldrom => cases h; exact clock_loadRom s
  case insbin f =>
    have hb : (takeBinFile (record (.openBinary f) s)).2.env.clock = s.env.clock := by
      unfold takeBinFile; split <;> rfl
    unfold execInsbin at h
    generalize takeBinFile (record (.openBinary f) s) = p at hb h
    obtain ⟨g, s'⟩ := p
    have ht := (Host.Outcome.next.inj h).symm
    subst ht
    have hw : ∀ a v (u : State), (write16 a v u).env.clock = u.env.clock :=
      fun a v u => (clock_write8 _ _ _).trans (clock_write8 a _ u)
    split
    · exact hb
    · simp only [answer_env, insertBinary, writeSlots, hw, clock_writeBytes]
      exact hb
    · exact hb
  case irqreg n => cases h; split <;> rfl
  case irqasr n => cases h; exact hd _ _
  case irqdea n => cases h; exact hd _ _
  case irqrcp => cases h; rw [answer_env, recompute_env]
  case irqget => cases h; rfl
  case fdclk pct n => cases h; rfl
  case run n => exact absurd rfl (hr n)
  case prun n =>
    obtain ⟨-, -, rfl⟩ := execPrun_eq h
    rw [answer_env, clock_frameStep, clock_audioStep, clock_runDevice, clock_runDevice]
  case reset => exact absurd rfl hz
  case togmode => cases h; rfl
  case togrec =>
    cases h
    split
    · rfl
    · exact clock_callDevice .clearRecordBuffer s
  case health => cases h; rfl
  case takeframe => cases h; rfl
  case stats => cases h; rfl

/-- RESET sets the CPU's clock to 0 (00_scope.md R9). -/
theorem clock_execReset {s t : State} (h : execReset s = .next t) : t.env.clock = 0 := by
  have key : ∀ u : State, (cpuReset u).env.clock = 0 := fun u => by
    have ht : (takeResetOps (record .cpuReset (withClock 0 u))).2.env.clock = 0 := by
      unfold takeResetOps; split <;> rfl
    have hf : ∀ (ops : List CpuOp) (v : State), (ops.foldl cpuOp v).env.clock = v.env.clock := by
      intro ops
      induction ops with
      | nil => exact fun v => rfl
      | cons o rest ih => exact fun v => (ih _).trans (congrArg Env.clock (rest_cpuOp v o) :)
    exact (hf _ _).trans ht
  rw [execReset_eq] at h
  rw [← Host.Outcome.next.inj h, raise_env, resetAgents, key]

/-- RUN takes the CPU's clock on by the cycles its loop consumed, and no further than its range. -/
theorem clock_execRun {n : Nat} {s t : State} (h : execRun n s = .next t) :
    t.env.clock = s.env.clock + (ciaCycles t - ciaCycles s) ∧
      (s.env.clock ≤ clockMax → t.env.clock ≤ clockMax) := by
  obtain ⟨-, e, he, -, rfl⟩ := execRun_eq h
  have hs : (settleRun (s.cpuBalance + n) e).env.clock = e.state.env.clock := by
    unfold settleRun; split <;> rfl
  have hf : (finishRun (s.cpuBalance + n) e).env.clock = e.state.env.clock := by
    rw [finishRun, retimeRun, answer_env, clock_frameStep, clock_audioStep, hs]
  have hc := clock_runLoop he
  have hr := (ranCycles_runLoop (d := .cia) he).1
  have hk : ciaCycles (finishRun (s.cpuBalance + n) e) = ciaCycles s + e.consumed := by
    rw [ciaCycles, ranCycles_finishRun (by decide), hr]
    simp [ciaCycles]
  rw [hk, hf]
  exact ⟨by simpa using hc.1, hc.2⟩

end Sys2Proof.Machine
end

