-- ==== Sys2Proof/Laws/PerInstr.lean ====
section
/-! SUPPORT. A fact of every command, one lemma per constructor: the word `encode` writes lies in the row of
the opcode map (30_encoding.md R73) that stands for the command. -/

namespace Sys2Proof.Laws.EncodesInRow

/-- The row is one of the table's, and the encoded word has the row's fixed bits. -/
def Statement (i : Instr) : Prop :=
  i.wf = true → i.row ∈ opcodeTable ∧ (encode i).cw &&& i.row.mask = i.row.pattern

theorem row_mem (i : Instr) : i.row ∈ opcodeTable := by
  cases i <;> simp [Instr.row, opcodeTable]

/-- A word masked by all ones above its low `k` bits keeps what stands above them. -/
theorem and_high_mask (w m p : Word) (k : Nat) (hk : k ≤ 32) (hm : m.toNat = 2 ^ 32 - 2 ^ k)
    (hp : w.toNat / 2 ^ k * 2 ^ k = p.toNat) : w &&& m = p := by
  apply BitVec.eq_of_getLsbD_eq
  intro i hi
  have h1 : m = BitVec.allOnes 32 <<< k := by
    apply BitVec.eq_of_toNat_eq
    rw [hm, BitVec.toNat_shiftLeft, BitVec.toNat_allOnes, Nat.shiftLeft_eq]
    have := Nat.pow_le_pow_right (n := 2) (by decide) hk
    have := Nat.two_pow_pos k
    have h2 : (2 ^ 32 - 1) * 2 ^ k = 2 ^ 32 * (2 ^ k - 1) + (2 ^ 32 - 2 ^ k) := by
      generalize 2 ^ k = x at *
      omega
    rw [h2, Nat.mul_add_mod, Nat.mod_eq_of_lt]
    omega
  have h2 : p = (w >>> k) <<< k := by
    apply BitVec.eq_of_toNat_eq
    rw [← hp, BitVec.toNat_shiftLeft, BitVec.toNat_ushiftRight, Nat.shiftLeft_eq,
      Nat.shiftRight_eq_div_pow, Nat.mod_eq_of_lt]
    exact Nat.lt_of_le_of_lt (Nat.div_mul_le_self _ _) w.isLt
  rw [h1, h2]
  simp only [BitVec.getLsbD_and, BitVec.getLsbD_shiftLeft, BitVec.getLsbD_allOnes,
    BitVec.getLsbD_ushiftRight]
  by_cases h : i < k
  · simp [h]
  · have e : k + (i - k) = i := by omega
    have h3 : i - k < 32 := by omega
    simp [hi, h, e, h3]

theorem in_row {a : BitVec 24} {u o : BitVec 4} {m p : Word} (k : Nat) (hk : k ≤ 24)
    (hm : m.toNat = 2 ^ 32 - 2 ^ k) (ha : a.toNat < 2 ^ k)
    (hp : u.toNat * 2 ^ 28 + o.toNat * 2 ^ 24 = p.toNat) : commandWord u o a &&& m = p := by
  refine and_high_mask _ _ _ k (by omega) hm ?_
  rw [commandWord_toNat, ← hp]
  obtain ⟨j, hj⟩ : 2 ^ k ∣ 2 ^ 24 := pow_dvd_pow 2 hk
  have e : u.toNat * 2 ^ 28 + o.toNat * 2 ^ 24 = 2 ^ k * (u.toNat * 2 ^ 4 * j + o.toNat * j) := by
    rw [show 2 ^ 28 = 2 ^ 4 * 2 ^ 24 by rfl, hj]
    ring
  rw [e, Nat.mul_add_div (Nat.two_pow_pos k), Nat.div_eq_of_lt ha, Nat.add_zero, Nat.mul_comm]

theorem ofNat_lt {x k : Nat} (hk : k ≤ 24) (h : x < 2 ^ k) : (BitVec.ofNat 24 x).toNat < 2 ^ k := by
  have := Nat.pow_le_pow_right (n := 2) (by decide) hk
  rw [BitVec.toNat_ofNat, Nat.mod_eq_of_lt (by omega)]
  exact h

theorem rd8 (a) : Statement (.rd8 a) := fun _ => ⟨row_mem _, in_row 24 (by decide) rfl a.isLt rfl⟩
theorem rd16 (a) : Statement (.rd16 a) := fun _ => ⟨row_mem _, in_row 24 (by decide) rfl a.isLt rfl⟩
theorem wr8 (a v) : Statement (.wr8 a v) := fun _ => ⟨row_mem _, in_row 24 (by decide) rfl a.isLt rfl⟩
theorem wr16 (a v) : Statement (.wr16 a v) := fun _ => ⟨row_mem _, in_row 24 (by decide) rfl a.isLt rfl⟩
theorem ldrom : Statement .ldrom := fun _ => by decide
theorem insbin (f) : Statement (.insbin f) := fun _ => ⟨row_mem _, (by decide : commandWord 1 5 0 &&& 0xFFFFFFFF#32 = 0x15000000#32)⟩
theorem irqreg (l) : Statement (.irqreg l) := fun h =>
  ⟨row_mem _, in_row 3 (by decide) rfl (ofNat_lt (by decide) (by simpa [Instr.wf] using h)) rfl⟩
theorem irqasr (h) : Statement (.irqasr h) := fun w =>
  ⟨row_mem _, in_row 8 (by decide) rfl (ofNat_lt (by decide) (by simpa [Instr.wf] using w)) rfl⟩
theorem irqdea (h) : Statement (.irqdea h) := fun w =>
  ⟨row_mem _, in_row 8 (by decide) rfl (ofNat_lt (by decide) (by simpa [Instr.wf] using w)) rfl⟩
theorem irqrcp : Statement .irqrcp := fun _ => by decide
theorem irqget : Statement .irqget := fun _ => by decide
theorem fdclk (p n) : Statement (.fdclk p n) := fun w =>
  ⟨row_mem _, in_row 8 (by decide) rfl
    (ofNat_lt (by decide) (by have := w; simp [Instr.wf] at this; exact this.1)) rfl⟩
theorem run (n) : Statement (.run n) := fun _ => ⟨row_mem _,
    (by decide : commandWord 4 0 0 &&& 0xFFFFFFFF#32 = 0x40000000#32)⟩
theorem prun (n) : Statement (.prun n) := fun _ => ⟨row_mem _,
    (by decide : commandWord 4 1 0 &&& 0xFFFFFFFF#32 = 0x41000000#32)⟩
theorem reset : Statement .reset := fun _ => by decide
theorem togmode : Statement .togmode := fun _ => by decide
theorem togrec : Statement .togrec := fun _ => by decide
theorem health : Statement .health := fun _ => by decide
theorem takeframe : Statement .takeframe := fun _ => by decide
theorem stats : Statement .stats := fun _ => by decide

end Sys2Proof.Laws.EncodesInRow
end

