-- ==== Sys2Proof/Laws/Step.lean ====
section
/-! SUPPORT. What one step is, and the invariant as two parts: the block's own fields, and what nested
operations of external agents can touch. -/

namespace Sys2Proof.Machine

/-- Where a step answers a next state: nothing was presented, or a decoded command was performed, or a
reserved one was answered with E_ENC. -/
theorem step_cases {s t : State} (h : step s = .next t) :
    (s.commands = [] ∧ t = s) ∨ ∃ c rest s', s.commands = c :: rest ∧
      s' = { s with commands := rest, status := .ok, result := .none, trace := [] } ∧
      ((∃ i, decode c = .ok i ∧ exec i s' = .next t) ∨
        ((∀ i, decode c ≠ .ok i) ∧ t = raise (.eEnc c.cw c.d) s')) := by
  unfold step takeCommand at h
  cases hc : s.commands with
  | nil =>
    rw [hc] at h
    exact .inl ⟨rfl, (Host.Outcome.next.inj h).symm⟩
  | cons c rest =>
    rw [hc] at h
    dsimp only at h
    refine .inr ⟨c, rest, _, rfl, rfl, ?_⟩
    cases hd : decode c with
    | ok i =>
      rw [hd] at h
      exact .inl ⟨i, rfl, h⟩
    | error r =>
      rw [hd] at h
      exact .inr ⟨nofun, (Host.Outcome.next.inj h).symm⟩

/-! ## The invariant -/

/-- The invariant's part about the block's own fields. -/
structure OwnInv (s : State) : Prop where
  cfg_wf : s.cfg.wf
  rom_wf : s.rom.wf
  rom_below : s.rom.below romSize
  count_le : s.irqLines.length ≤ irqCapacity
  level_lt : ∀ l ∈ s.levels, l < 8
  cpu_ge : balanceMin ≤ s.cpuBalance
  cpu_le : s.cpuBalance ≤ balanceMax
  frame_ge : 0 ≤ s.frameBalance
  frame_le : s.frameBalance ≤ balanceMax
  under_ge : s.lapUnder ≤ s.underrun
  equal_ge : s.lapEqual ≤ s.equalrun
  over_ge : s.lapOver ≤ s.overrun
  rem_lt : s.divRem < 100 * s.cfg.cpuHz

theorem levels_own (s : State) : s.own.levels = s.levels := by
  simp [State.own, State.levels, Function.comp_def]

theorem levels_of_own_lines {s t : State} (h : t.own.irqLines = s.own.irqLines) : t.levels = s.levels := by
  rw [← levels_own t, ← levels_own s, State.levels, State.levels, h]

theorem inv_iff (s : State) : s.Inv ↔ OwnInv s.own ∧ SharedInv s ∧ s.env.clock ≤ clockMax := by
  have n : s.own.irqLines.length = s.irqLines.length := by simp [State.own]
  constructor
  · intro h
    refine ⟨⟨h.cfg_wf, h.rom_wf, h.rom_below, n ▸ h.count_le, ?_, h.cpu_ge, h.cpu_le, h.frame_ge,
      h.frame_le, h.under_ge, h.equal_ge, h.over_ge, h.rem_lt⟩, ⟨h.vram_wf, h.vram_below, h.ipl_eq⟩, h.clock_le⟩
    rw [levels_own]
    intro l hl
    obtain ⟨line, hm, rfl⟩ := List.mem_map.mp hl
    exact h.level_lt line hm
  · rintro ⟨h, hs, hc⟩
    refine ⟨h.cfg_wf, h.rom_wf, h.rom_below, hs.vram_wf, hs.vram_below, ?_, ?_, hs.ipl_eq, h.cpu_ge,
      h.cpu_le, h.frame_ge, h.frame_le, h.under_ge, h.equal_ge, h.over_ge, h.rem_lt, hc⟩
    · have := h.count_le
      rwa [n] at this
    · intro line hm
      have := h.level_lt
      rw [levels_own] at this
      exact this _ (List.mem_map_of_mem hm)

theorem OwnInv.ports {s : State} (h : OwnInv s) (st : Status) (r : Result) :
    OwnInv { s with status := st, result := r } :=
  ⟨h.cfg_wf, h.rom_wf, h.rom_below, h.count_le, h.level_lt, h.cpu_ge, h.cpu_le, h.frame_ge, h.frame_le,
    h.under_ge, h.equal_ge, h.over_ge, h.rem_lt⟩

theorem inv_of_block {s t : State} (h : s.Inv) (hb : t.block = s.block)
    (hc : t.env.clock ≤ clockMax) : t.Inv := by
  have f : s.block.Inv := ⟨h.cfg_wf, h.rom_wf, h.rom_below, h.vram_wf, h.vram_below, h.count_le,
    h.level_lt, h.ipl_eq, h.cpu_ge, h.cpu_le, h.frame_ge, h.frame_le, h.under_ge,
    h.equal_ge, h.over_ge, h.rem_lt, Nat.zero_le _⟩
  rw [← hb] at f
  exact ⟨f.cfg_wf, f.rom_wf, f.rom_below, f.vram_wf, f.vram_below, f.count_le, f.level_lt, f.ipl_eq,
    f.cpu_ge, f.cpu_le, f.frame_ge, f.frame_le, f.under_ge, f.equal_ge, f.over_ge, f.rem_lt, hc⟩

/-- A line registered released does not raise the level (41_irq_encoder.md R111). -/
theorem aggregateLevel_append_released (lines : List IrqLine) (level : Nat) :
    aggregateLevel (lines ++ [{ level := level, asserted := false }]) = aggregateLevel lines := by
  simp [aggregateLevel, raiseLevel]

end Sys2Proof.Machine
end

