-- ==== Sys2Proof/Tests/Slice0.lean ====
section
/-! SUPPORT. Tests. Expected results are the words of 30_encoding.md R73 and R79 and the vectors V<n> of
95_test_vectors.md over the reference instance of 92_eei_decisions.md D41; then, for each obligation with
hypotheses, a state and operands that meet them together. -/

namespace Sys2Proof.Tests

open Sys2Proof.Machine

/-! ## Decoding: a word of each row, written out from R73 -/

theorem test_decode_rd8 : decode ⟨0x10FF0010#32, 0⟩ = .ok (.rd8 0xFF0010#24) := by decide
theorem test_decode_rd16 : decode ⟨0x11FFFFFF#32, 7⟩ = .ok (.rd16 0xFFFFFF#24) := by decide
theorem test_decode_wr8 : decode ⟨0x12000003#32, 0x77⟩ = .ok (.wr8 0x000003#24 0x77#8) := by decide
theorem test_decode_wr16 :
    decode ⟨0x13001000#32, 0xBEEF⟩ = .ok (.wr16 0x001000#24 0xBEEF#16) := by decide
theorem test_decode_ldrom : decode ⟨0x14000000#32, 0⟩ = .ok .ldrom := by decide
theorem test_decode_insbin : decode ⟨0x15000000#32, 0x80000001⟩ = .ok (.insbin 0x80000001#32) := by
  decide
theorem test_decode_irqreg : decode ⟨0x20000005#32, 0⟩ = .ok (.irqreg 5) := by decide
theorem test_decode_irqasr : decode ⟨0x210000FF#32, 0⟩ = .ok (.irqasr 255) := by decide
theorem test_decode_irqdea : decode ⟨0x22000080#32, 0⟩ = .ok (.irqdea 128) := by decide
theorem test_decode_irqrcp : decode ⟨0x23000000#32, 0⟩ = .ok .irqrcp := by decide
theorem test_decode_irqget : decode ⟨0x24000000#32, 0⟩ = .ok .irqget := by decide
theorem test_decode_fdclk : decode ⟨0x30000069#32, 0x3E8⟩ = .ok (.fdclk 105 1000) := by decide
theorem test_decode_run : decode ⟨0x40000000#32, 0xFFFFFFFF⟩ = .ok (.run 4294967295) := by decide
theorem test_decode_prun : decode ⟨0x41000000#32, 0x14⟩ = .ok (.prun 20) := by decide
theorem test_decode_reset : decode ⟨0x42000000#32, 0⟩ = .ok .reset := by decide
theorem test_decode_togmode : decode ⟨0x43000000#32, 0⟩ = .ok .togmode := by decide
theorem test_decode_togrec : decode ⟨0x44000000#32, 0⟩ = .ok .togrec := by decide
theorem test_decode_health : decode ⟨0x45000000#32, 0⟩ = .ok .health := by decide
theorem test_decode_takeframe : decode ⟨0x46000000#32, 0⟩ = .ok .takeframe := by decide
theorem test_decode_stats : decode ⟨0x47000000#32, 0⟩ = .ok .stats := by decide

/-- Reserved words (R74): a reserved unit, a reserved OP of each unit, must-be-zero bits, wide data. -/
theorem test_reserved_words :
    decode ⟨0x00000000#32, 0⟩ = .error .reservedUnit ∧
    decode ⟨0x50000000#32, 0⟩ = .error .reservedUnit ∧
    decode ⟨0x16000000#32, 0⟩ = .error .reservedOp ∧
    decode ⟨0x25000000#32, 0⟩ = .error .reservedOp ∧
    decode ⟨0x31000000#32, 0⟩ = .error .reservedOp ∧
    decode ⟨0x48000000#32, 0⟩ = .error .reservedOp ∧
    decode ⟨0x20000008#32, 0⟩ = .error .mustBeZero ∧
    decode ⟨0x30000100#32, 0⟩ = .error .mustBeZero ∧
    decode ⟨0x42000001#32, 0⟩ = .error .mustBeZero ∧
    decode ⟨0x12002000#32, 0x100⟩ = .error .dataTooWide ∧
    decode ⟨0x13002000#32, 0x10000⟩ = .error .dataTooWide := by decide

theorem test_decode_table_word :
    decodeTableWord 32 0x20000005 = some (.irqreg 5) ∧
    decodeTableWord 64 0x0000BEEF13001000 = some (.wr16 0x001000#24 0xBEEF#16) ∧
    decodeTableWord 32 0x20000008 = none := by decide

/-! ## Well-formedness: an ill-formed term for each check -/

theorem test_ill_formed :
    Instr.wf (.irqreg 8) = false ∧ Instr.wf (.irqasr 256) = false ∧ Instr.wf (.irqdea 256) = false ∧
    Instr.wf (.fdclk 256 0) = false ∧ Instr.wf (.fdclk 0 4294967296) = false ∧
    Instr.wf (.run 4294967296) = false ∧ Instr.wf (.prun 4294967296) = false := by decide

theorem test_well_formed :
    Instr.wf (.irqreg 7) = true ∧ Instr.wf (.irqasr 255) = true ∧ Instr.wf (.irqdea 255) = true ∧
    Instr.wf (.fdclk 255 4294967295) = true ∧ Instr.wf (.run 4294967295) = true := by decide

theorem test_assembly : Instr.assembly (.fdclk 105 1000) = "FDCLK 1000, 105" := by decide

theorem test_rd32 : Pseudo.expand (.wr32 0xFFFFFE#24 0x12345678#32) =
    [.wr16 0xFFFFFE#24 0x1234#16, .wr16 0#24 0x5678#16] := by decide

/-! ## The reference instance (D41) -/

/-- The parameters of D41, with the default ROM and fonts of 95_test_vectors.md. -/
def refConfig : Config where
  ioBase := 0xFB0000
  subpageMap := [.blitIo, .timerIo, .ciaIo, .soundIo 0, .soundIo 1, .soundIo 2] ++
    List.replicate 10 .unmapped
  blitCtxBase := 0xFC0000
  romMirrorBase := 0xFF0000
  font0Base := 0xFD0000
  font1Base := 0xFE0000
  fontIndexMask := 0x7FF
  font0 := (List.range 2048).map fun i => BitVec.ofNat 16 (0x1000 + i)
  font1 := (List.range 2048).map fun i => BitVec.ofNat 16 (0x2000 + i)
  defaultRom := [0, 0, 0x80, 0, 0, 0, 4, 0] ++ List.replicate 8 0 ++ [0x4E] ++
    List.replicate 65518 0 ++ [0x99]
  loadStartSlot := 0xF8
  loadEndSlot := 0xFA
  cpuHz := 8000000
  soundHz := 2000000
  frameBudget := 100
  audioTarget := 1000
  initialMode := .running
  cpuAttached := true

theorem refConfig_wf : refConfig.wf := by
  refine ⟨by decide, by decide, by decide, by decide, by decide, by decide, by decide, by decide,
    ⟨11, by decide, by decide⟩, by rw [refConfig, List.length_map, List.length_range]; rfl,
    by rw [refConfig, List.length_map, List.length_range]; rfl, ?_, by decide, by decide,
    by decide, by decide⟩
  rw [refConfig, List.length_append, List.length_append, List.length_append, List.length_append,
    List.length_replicate, List.length_replicate]
  rfl

/-- The bytes of DEFAULT_ROM the vectors read. -/
def refRom : Memory :=
  ⟨[(0, 0), (1, 0), (2, 0x80), (3, 0), (4, 0), (5, 0), (6, 4), (7, 0), (16, 0x4E), (65535, 0x99)]⟩

/-- The start of the vectors: the reference instance with `rom` as DEFAULT_ROM. -/
def ref : State := { State.powerOn refConfig with rom := refRom }

/-- `n` device answers that answer byte `v` and nest nothing. -/
def quiet (n : Nat) (v : Byte) : List DevReply := List.replicate n ⟨v, [], []⟩

/-- The reference state with lines of these levels, pulled or not, the level up to date. -/
def withLines (lines : List IrqLine) : State :=
  { ref with irqLines := lines, ipl := aggregateLevel lines }

/-- The reference state with a CPU script, device answers, occupancies and blitter answers. -/
def scripted (script : List ScriptedInstr) (occ : Nat) : State :=
  { ref with env := { Env.empty with
      execs := script.map ScriptedInstr.reply
      devs := quiet 9 0
      occupancies := [occ, occ]
      blits := [.ran [] false] } }

/-- An instruction of `d` cycles. -/
def cycles (d : Nat) : ScriptedInstr := ⟨[], BitVec.ofNat 64 d, false⟩

/-- A view of the next state, none where there is none. -/
def view {α : Type} (i : Instr) (s : State) (f : State → α) : Option α :=
  match exec i s with
  | .next t => some (f t)
  | .fault _ => none
  | .refused _ => none

/-- Commands one after the other, then a view. -/
def viewAll {α : Type} (l : List Instr) (s : State) (f : State → α) : Option α := (execAll l s).map f

/-! ## Vectors: the bus -/

/-- V10 to V30. -/
theorem test_select_read :
    selectRead refConfig 7 = .vec 7 ∧ selectRead refConfig 8 = .vram 8 ∧
    selectRead refConfig 0xFB01FF = .io .timer 0xFF ∧ selectRead refConfig 0xFB0210 = .io .cia 0x10 ∧
    selectRead refConfig 0xFB0505 = .io .sound 0x205 ∧
    selectRead refConfig 0xFB0600 = .vram 0xFB0600 ∧ selectRead refConfig 0xFC1234 = .ctx 0x1234 ∧
    selectRead refConfig 0xFFFFFF = .romMirror 0xFFFF ∧
    selectRead refConfig 0xFD1003 = .font .font0 1 true ∧
    selectRead refConfig (maskAddress 0x01FB0000) = .io .blitter 0 := by decide

theorem test_select_write :
    selectWrite refConfig 3 = .drop ∧ selectWrite refConfig 8 = .vram 8 ∧
    selectWrite refConfig 0xFB0405 = .io .sound 0x105 ∧
    selectWrite refConfig 0xFC1234 = .ctx 0x1234 ∧
    selectWrite refConfig 0xFF0004 = .vram 0xFF0004 ∧
    selectWrite refConfig 0xFD0000 = .vram 0xFD0000 := by decide

/-- V31. -/
theorem test_rd8 : view (.rd8 0xFF0010) ref State.result = some (.word 0x4E) := by decide
/-- V28. -/
theorem test_rd8_font : view (.rd8 0xFE0002) ref State.result = some (.word 0x20) := by decide +kernel
/-- V35: the wrap to address 0. -/
theorem test_rd16_wrap : view (.rd16 0xFFFFFF) ref State.result = some (.word 0x9900) := by decide
/-- V39 with a byte of video memory written first. -/
theorem test_rd16_device :
    viewAll [.wr8 0xFB0600 0, .rd16 0xFB05FF]
      { ref with env := { Env.empty with devs := quiet 1 0xA5 } } (fun t => (t.result, t.trace)) =
      some (.word 0xA500, [.device (.ioRead .sound 0x2FF)]) := by decide
/-- V32: the write lands in video memory, the read still gives ROM. -/
theorem test_wr8_under_rom :
    viewAll [.wr8 0xFF0010 0x55, .rd8 0xFF0010] ref
      (fun t => (t.result, t.vram.get? 0xFF0010)) = some (.word 0x4E, some 0x55) := by decide
/-- V33: a write to a vector byte is dropped. -/
theorem test_wr8_dropped : view (.wr8 3 0x77) ref State.vram = some ⟨[]⟩ := by decide
/-- V36, V37. -/
theorem test_wr16_split :
    view (.wr16 7 0xABCD) ref State.vram = some ⟨[(8, 0xCD)]⟩ ∧
    view (.wr16 0xFFFFFF 0x1234) ref State.vram = some ⟨[(0xFFFFFF, 0x12)]⟩ := by decide
/-- V38: two devices, the high byte first. -/
theorem test_wr16_devices :
    view (.wr16 0xFB01FF 0x1234) { ref with env := { Env.empty with devs := quiet 2 0 } } State.trace =
      some [.device (.ioWrite .timer 0xFF 0x12), .device (.ioWrite .cia 0 0x34)] := by decide
/-- V43: the status of the fallback. -/
theorem test_ldrom_missing :
    view .ldrom { ref with env := { Env.empty with romFiles := [.missing] } } State.status =
      some .wRomFallback := by decide
/-- V42. -/
theorem test_ldrom_default :
    view .ldrom { ref with env := { Env.empty with romFiles := [.notConfigured] } } State.status =
      some .ok := by decide
/-- V1. -/
theorem test_insbin :
    view (.insbin 1) { ref with env := { Env.empty with
      binaries := [.file [0x10, 0x00, 0xAA, 0xBB]] } } (fun t => (t.status, t.vram)) =
      some (.ok, ⟨[(0xF8, 0x10), (0xF9, 0x00), (0xFA, 0x10), (0xFB, 0x02), (0x1000, 0xAA),
        (0x1001, 0xBB)]⟩) := by decide
/-- V48: the end address wraps at 16 bits, the data addresses do not. -/
theorem test_insbin_wrap :
    view (.insbin 1) { ref with env := { Env.empty with
      binaries := [.file [0xFF, 0xFF, 0x01, 0x02]] } } State.vram =
      some ⟨[(0xF8, 0xFF), (0xF9, 0xFF), (0xFA, 0x00), (0xFB, 0x01), (0xFFFF, 0x01),
        (0x10000, 0x02)]⟩ := by decide

/-! ## Vectors: the encoder -/

/-- V3: the second registration. -/
theorem test_irqreg : viewAll [.irqreg 1, .irqreg 2] ref (fun t => (t.result, t.levels)) =
    some (.word 1, [1, 2]) := by decide
/-- V51. -/
theorem test_irqreg_full :
    view (.irqreg 3) (withLines (List.replicate 256 ⟨1, false⟩)) State.status =
      some (.eIrqFull 3) := by decide +kernel
/-- V57: pulled again, the level is pushed again. -/
theorem test_irqasr_again :
    view (.irqasr 0) (withLines [⟨4, true⟩]) (fun t => (t.ipl, t.trace)) =
      some (4, [.setIpl 4]) := by decide
/-- V52. -/
theorem test_irqasr_bad :
    view (.irqasr 2) (withLines [⟨1, false⟩, ⟨2, false⟩]) (fun t => (t.status, t.trace)) =
      some (.eBadHandle 2, []) := by decide
/-- V4: the other line of the level keeps it. -/
theorem test_irqdea :
    view (.irqdea 1) (withLines [⟨3, true⟩, ⟨6, true⟩, ⟨6, true⟩]) State.ipl = some 6 := by decide
theorem test_irqdea_drops :
    view (.irqdea 2) (withLines [⟨3, true⟩, ⟨6, false⟩, ⟨6, true⟩]) State.ipl = some 3 := by decide
/-- A level out of date (a state no run reaches) is recomputed from the table (R114). -/
theorem test_irqrcp :
    view .irqrcp { withLines [⟨2, true⟩, ⟨5, true⟩] with ipl := 0 } (fun t => (t.ipl, t.trace)) =
      some (5, [.setIpl 5]) := by decide
/-- V56: no push without a CPU. -/
theorem test_irqget :
    viewAll [.irqasr 0, .irqget]
      { withLines [⟨7, false⟩] with cfg := { refConfig with cpuAttached := false } }
      (fun t => (t.result, t.trace)) = some (.word 7, []) := by decide

/-! ## Vectors: the divider -/

/-- V64, V65. -/
theorem test_fdclk :
    view (.fdclk 105 1000) ref (fun t => (t.result, t.divRem)) = some (.cycles 262, 400000000) ∧
    view (.fdclk 105 1000) { ref with divRem := 400000000 } (fun t => (t.result, t.divRem)) =
      some (.cycles 263, 0) := by decide
/-- V60, V62: S = 3, T = 2. -/
theorem test_fdclk_thirds :
    view (.fdclk 100 1) { ref with cfg := { refConfig with cpuHz := 3, soundHz := 2 } }
      (fun t => (t.result, t.divRem)) = some (.cycles 0, 200) ∧
    view (.fdclk 100 1) { ref with divRem := 100, cfg := { refConfig with cpuHz := 3, soundHz := 2 } }
      (fun t => (t.result, t.divRem)) = some (.cycles 1, 0) := by decide

/-! ## Vectors: the scheduler -/

/-- V71. -/
theorem test_run :
    view (.run 20) (scripted [cycles 8, cycles 12, cycles 4] 800)
      (fun t => (t.cpuBalance, t.frameBalance, t.trace)) =
      some (0, 20, [.cpuExecute, .device (.run .cia 8), .device (.run .timer 8), .cpuExecute,
        .device (.run .cia 12), .device (.run .timer 12), .audioQueueBytes, .device (.run .sound 5),
        .audioQueueBytes, .startAudio]) := by decide
/-- V75. -/
theorem test_run_breakpoint :
    view (.run 100) (scripted [cycles 8, ⟨[], 12, true⟩] 800)
      (fun t => (t.cpuBalance, t.frameBalance, t.mode, t.result)) =
      some (0, 20, .paused, .run .breakpointHit) := by decide
/-- V83. -/
theorem test_prun :
    view (.prun 20) { scripted [] 800 with frameBalance := 90, cpuBalance := -3 }
      (fun t => (t.cpuBalance, t.frameBalance, t.frameDone, t.equalrun)) =
      some (-3, 10, true, 1) := by decide
/-- V83: no sound, no blitter. -/
theorem test_prun_calls :
    view (.prun 20) { scripted [] 700 with frameBalance := 90 } State.trace =
      some [.device (.run .cia 20), .device (.run .timer 20), .audioQueueBytes, .audioQueueBytes] := by
  decide
/-- R200's example. -/
theorem test_reset :
    view .reset { ref with
      cpuBalance := -6, frameBalance := 57, underrun := 9
      env := { Env.empty with romFiles := [.missing], devs := quiet 4 0, cpuResets := [[]] } }
      (fun t => (t.cpuBalance, t.frameBalance, t.underrun, t.status)) =
      some (0, 0, 0, .wRomFallback) := by decide
/-- V59: lines stay registered, and pulled unless their device releases them. -/
theorem test_reset_lines :
    view .reset { withLines [⟨3, true⟩, ⟨5, true⟩] with
      env := { Env.empty with
        romFiles := [.notConfigured], devs := ⟨0, [], [.irqDeassert 1, .irqAssert 0]⟩ :: quiet 3 0
        cpuResets := [[]] } }
      (fun t => (t.irqLines, t.ipl)) = some ([⟨3, true⟩, ⟨5, false⟩], 3) := by decide
/-- The CPU's operations in a reset: the ends of the vectors, by words and bytes, and what is passed over. -/
def resetOps : List CpuOp :=
  [.rd16 0x00000002, .wr8 0x00001000 1, .rd16 0xFF000006, .rd8 7, .rd16 7, .rd8 8, .irqGet]

/-- R201: the vectors 00008000 and 00000400 of DEFAULT_ROM's first bytes. -/
theorem test_reset_vectors :
    view .reset { ref with
      env := { Env.empty with
        romFiles := [.notConfigured], devs := quiet 4 0, cpuResets := [resetOps] } }
      (fun t => t.trace.drop 5) = some [.cpuReset, .reply .ok (.word 0x8000),
        .reply .ok (.word 0x0400), .reply .ok (.word 0)] := by decide
/-- V87. -/
theorem test_togmode :
    view .togmode ref State.mode = some .paused ∧
    viewAll [.togmode, .togmode] ref State.mode = some .running := by decide
/-- V88. -/
theorem test_togrec :
    viewAll [.togrec, .togrec] { ref with env := { Env.empty with devs := quiet 1 0 } }
      (fun t => (t.recording, t.trace)) =
      some (false, [.device .clearRecordBuffer, .recordOpen, .recordClose]) := by decide
/-- V84, V85. -/
theorem test_health :
    view .health { ref with underrun := 3, lapUnder := 2, overrun := 1, lapOver := 1 }
      (fun t => (t.result, t.lapUnder)) = some (.bool false, 3) ∧
    view .health { ref with equalrun := 5, lapEqual := 4 } (fun t => (t.result, t.lapEqual)) =
      some (.bool true, 5) := by decide
/-- V86. -/
theorem test_takeframe :
    view .takeframe { ref with frameDone := true } (fun t => (t.result, t.frameDone)) =
      some (.bool true, false) := by decide
/-- V89. -/
theorem test_stats :
    view .stats { ref with underrun := 4 } State.result =
      some (.stats .running false 4 0 0) := by decide

/-- V53, as a step: a reserved command is answered with E_ENC. -/
theorem test_step_reserved :
    (match step { ref with commands := [⟨0x20000008, 0⟩] } with
      | .next t => t.status.code
      | _ => 99) = 1 := by decide

/-- A command placed by its word runs as the first step after power-on. -/
theorem test_fetch_word :
    (match step (State.reset.withFetchWord 32 0x20000005) with
      | .next t => t.levels
      | _ => []) = [5] := by decide

/-! ## Witnesses: for each obligation with hypotheses, a state and operands that meet them

Named after the obligation; the clauses of one statement have their own conjunct, at a boundary of its
range. -/

/-- The reference state with a command on the port. -/
def presenting (c : Command) : State := { ref with commands := [c] }

/-- The reference state with these device answers. -/
def answering (l : List DevReply) : State := { ref with env := { Env.empty with devs := l } }

/-- The reference state with these binary files. -/
def inserting (l : List BinFile) : State := { ref with env := { Env.empty with binaries := l } }

/-- The reference state with these ROM files. -/
def loading (l : List RomFile) : State := { ref with env := { Env.empty with romFiles := l } }

theorem witness_CommandWordsDecodeToTheirRowOrAnswerEEnc :
    (0x20000007#32 &&& 0xFFFFFFF8#32 = 0x20000000#32 ∧
      ⟨"IRQREG", 0x20000000#32, 0xFFFFFFF8#32⟩ ∈ opcodeTable) ∧
    decode ⟨0x120000FF#32, 255⟩ = .ok (.wr8 255#24 255#8) ∧
    (∃ r ∈ opcodeTable, r.mnemonic = "WR16" ∧ 0x13FFFFFF#32 &&& r.mask = r.pattern ∧
      (65535#32).toNat < 65536) ∧
    ((presenting ⟨0, 0⟩).commands = [⟨0, 0⟩] ∧ ∀ i, decode ⟨0, 0⟩ ≠ .ok i) :=
  ⟨by decide, by decide, by decide, rfl, fun i h => by
    have hd : decode ⟨0, 0⟩ = .error .reservedUnit := by decide
    rw [hd] at h
    cases h⟩

theorem witness_DecodingAnEncodedCommandGivesItBack :
    Instr.wf (.irqreg 7) = true ∧ Instr.wf (.fdclk 255 4294967295) = true := by decide

theorem witness_EncodingADecodedCommandGivesItsWords :
    decode ⟨0x300000FF#32, 0xFFFFFFFF#32⟩ = .ok (.fdclk 255 4294967295) ∧
    Instr.readsData (.fdclk 255 4294967295) = true ∧ decode ⟨0x47000000#32, 7⟩ = .ok .stats ∧
    Instr.readsData .stats = false := by decide

theorem witness_StepPerformsTheDecodedCommand :
    ((presenting ⟨0x47000000#32, 0⟩).commands = [⟨0x47000000#32, 0⟩] ∧
      decode ⟨0x47000000#32, 0⟩ = .ok .stats) ∧ ref.commands = [] := by decide

theorem witness_EncodedCommandsArePerformed :
    Instr.wf (.irqasr 255) = true ∧
    (presenting (encode (.irqasr 255))).commands = [encode (.irqasr 255)] := by decide

theorem witness_OnlyRunAndPrunCanStop :
    step { ref with
      commands := [⟨0x40000000#32, 1⟩], env := { Env.empty with execs := [.stalled] } } =
      .fault .runStuck := rfl

theorem witness_FailedCommandsChangeNothing :
    ∃ t, (presenting ⟨0x21000000#32, 0⟩).commands ≠ [] ∧ step (presenting ⟨0x21000000#32, 0⟩) = .next t ∧
      t.status.performed = false := ⟨_, by decide, rfl, rfl⟩

theorem witness_CpuAddressesAreMaskedTo24Bits :
    (0x01FFFFFF#32).toNat % 16777216 = (0xFFFFFFFF#32).toNat % 16777216 := by decide

/-- An instruction that writes video memory at a masked address. -/
def writingState : State :=
  { ref with env := { Env.empty with
      execs := [.ran [.wr8 0xFF002000 0x55] 4 false], devs := quiet 5 0, occupancies := [800, 800]
      blits := [.ran [] false] } }

theorem witness_CpuAddressesAreMaskedTo24Bits_run :
    writingState.env.execs = .ran [.wr8 0xFF002000 0x55] 4 false :: [] ∧
    (∃ t, exec (.run 4) writingState = .next t) ∧
    writingState.cpuBalance + (4 : Nat) ≤ (4 : Quad).toNat ∧
    quietReplies 5 ([CpuOp.wr8 0xFF002000 0x55].foldl cpuOp { writingState with
      trace := writingState.trace ++ [.cpuExecute], env := { writingState.env with execs := [] } }) = true ∧
    writingState.env.blits = .ran [] false :: [] ∧
    view (.run 4) writingState State.vram = some ⟨[(0x2000, 0x55)]⟩ :=
  ⟨rfl, ⟨_, rfl⟩, by decide, by decide, rfl, by decide⟩

theorem witness_Rd8AnswersTheSelectedByte :
    selectRead ref.cfg 7 = .vec 7 ∧ selectRead ref.cfg 0xFFFFFF = .romMirror 65535 ∧
    selectRead ref.cfg 0xFEFFFF = .font .font1 0x7FF true ∧ selectRead ref.cfg 8 = .vram 8 ∧
    (answering (quiet 1 5)).env.devs = [⟨5, [], []⟩] ∧ selectRead ref.cfg 0xFB05FF = .io .sound 0x2FF ∧
    selectRead ref.cfg 0xFCFFFF = .ctx 0xFFFF := by decide

theorem witness_Rd16JoinsTwoByteReads :
    (readsDevice ref 0xFFFFFF = false ∧ readsDevice ref (0xFFFFFF + 1#24) = false) ∧
    (readCall ref.cfg 0xFB05FF = some (.ioRead .sound 0x2FF) ∧
      readsDevice ref (0xFB05FF + 1#24) = false ∧
      (answering (quiet 1 5)).env.devs = [⟨5, [], []⟩]) ∧
    (readsDevice ref 0xFBFFFF = false ∧ readCall ref.cfg (0xFBFFFF + 1#24) = some (.ctxRead 0)) ∧
    (readCall ref.cfg 0xFB01FF = some (.ioRead .timer 0xFF) ∧
      readCall ref.cfg (0xFB01FF + 1#24) = some (.ioRead .cia 0) ∧
      (answering (quiet 2 5)).env.devs = [⟨5, [], []⟩, ⟨5, [], []⟩]) := by decide

theorem witness_Rd16JoinsTwoByteReads_parts :
    ∃ t u x y, exec (.rd8 7) ref = .next t ∧ t.result = .word x ∧ exec (.rd8 (7 + 1#24)) t = .next u ∧
      u.result = .word y := ⟨_, _, _, _, rfl, rfl, rfl, rfl⟩

theorem witness_ReadsChangeNoFieldOfTheBlock :
    (∃ t, exec (.rd16 7) (answering (quiet 2 5)) = .next t) ∧
    readsDevice (answering (quiet 2 5)) 7 = false ∧
    readsDevice (answering (quiet 2 5)) (7 + 1#24) = false ∧
    quietReplies 2 (answering (quiet 2 5)) = true := ⟨⟨_, rfl⟩, by decide, by decide, by decide⟩

theorem witness_Wr8WritesTheSelectedTarget :
    selectWrite ref.cfg 7 = .drop ∧ selectWrite ref.cfg 0xFFFFFF = .vram 0xFFFFFF ∧
    selectWrite ref.cfg 0xFB05FF = .io .sound 0x2FF ∧ selectWrite ref.cfg 0xFCFFFF = .ctx 0xFFFF ∧
    (answering (quiet 1 5)).env.devs = [⟨5, [], []⟩] := by decide

theorem witness_Wr16WritesTwoBytes :
    (writesDevice ref 0xFFFFFF = false ∧ writesDevice ref (0xFFFFFF + 1#24) = false) ∧
    (writeCall ref.cfg 0xFCFFFF 0x12 = some (.ctxWrite 0xFFFF 0x12) ∧
      writesDevice ref (0xFCFFFF + 1#24) = false ∧
      (answering (quiet 1 5)).env.devs = [⟨5, [], []⟩]) ∧
    (writesDevice ref 0xFAFFFF = false ∧
      writeCall ref.cfg (0xFAFFFF + 1#24) 0x34 = some (.ioWrite .blitter 0 0x34)) ∧
    (writeCall ref.cfg 0xFB01FF 0x12 = some (.ioWrite .timer 0xFF 0x12) ∧
      writeCall ref.cfg (0xFB01FF + 1#24) 0x34 = some (.ioWrite .cia 0 0x34) ∧
      (answering (quiet 2 5)).env.devs = [⟨5, [], []⟩, ⟨5, [], []⟩]) := by decide

theorem witness_Wr16WritesTwoBytes_parts :
    ∃ t u, exec (.wr8 7 0xAB) ref = .next t ∧ exec (.wr8 (7 + 1#24) 0xCD) t = .next u :=
  ⟨_, _, rfl, rfl⟩

theorem witness_VideoMemoryRoundTrips :
    selectRead ref.cfg 8 = .vram 8 ∧ selectWrite ref.cfg 8 = .vram 8 ∧
    selectRead ref.cfg (8 + 1#24) = .vram (8 + 1#24) ∧
    selectWrite ref.cfg (8 + 1#24) = .vram (8 + 1#24) := by decide

theorem witness_WritesDoNotShowInRomAndFontReads :
    (∃ t, exec (.wr8 0xFF0010 0x55) ref = .next t) ∧ selectRead ref.cfg 0xFF0010 = .romMirror 16 ∧
    selectRead ref.cfg 7 = .vec 7 ∧ selectRead ref.cfg 0xFD0001 = .font .font0 0 true :=
  ⟨⟨_, rfl⟩, by decide, by decide, by decide⟩

theorem witness_LdromReplacesTheImage :
    ref.cfg.wf ∧ (loading [.missing]).env.romFiles = [.missing] ∧
    65536 ≤ (List.replicate 65536 (0 : Byte)).length ∧ (List.replicate 65535 (0 : Byte)).length < 65536 := by
  refine ⟨refConfig_wf, rfl, ?_, ?_⟩
  · rw [List.length_replicate]
  · rw [List.length_replicate]; decide

theorem witness_OnlyLdromAndResetWriteTheRom :
    (∃ t, exec (.wr8 0xFF0010 0x55) ref = .next t) ∧ Instr.wr8 0xFF0010 0x55 ≠ .ldrom ∧
    Instr.wr8 0xFF0010 0x55 ≠ .reset := ⟨⟨_, rfl⟩, by decide, by decide⟩

theorem witness_InsbinRefusesBadFiles :
    (inserting [.cannotOpen]).env.binaries = [.cannotOpen] ∧
    (inserting [.file [0x10]]).env.binaries = [.file [0x10]] ∧ [(0x10 : Byte)].length < 2 := by decide

/-- The four slot bytes reach no device, stand apart, and are video memory. -/
theorem witness_InsbinWritesDataThenSlots_slots :
    refConfig.loadStartSlot = 0xF8#24 ∧ refConfig.loadEndSlot = 0xFA#24 ∧
    [0xF8#24, 0xF8#24 + 1#24, 0xFA#24, 0xFA#24 + 1#24] = [0xF8#24, 0xF9#24, 0xFA#24, 0xFB#24] ∧
    selectWrite refConfig 0xF8 = .vram 0xF8 ∧ selectWrite refConfig 0xF9 = .vram 0xF9 ∧
    selectWrite refConfig 0xFA = .vram 0xFA ∧ selectWrite refConfig 0xFB = .vram 0xFB := by decide

theorem witness_InsbinWritesDataThenSlots :
    let s := inserting [.file (0xFF :: 0xFF :: [1, 2])]
    s.env.binaries = [.file (0xFF :: 0xFF :: [1, 2])] ∧ [(1 : Byte), 2].length ≤ 16777216 ∧
    (∀ k < [(1 : Byte), 2].length,
      writesDevice s (BitVec.ofNat 24 (256 * (0xFF : Byte).toNat + (0xFF : Byte).toNat + k)) = false) ∧
    (∀ x ∈ [s.cfg.loadStartSlot, s.cfg.loadStartSlot + 1#24, s.cfg.loadEndSlot,
      s.cfg.loadEndSlot + 1#24], writesDevice s x = false) ∧
    selectWrite refConfig (BitVec.ofNat 24 65536) = .vram (BitVec.ofNat 24 65536) ∧
    selectWrite refConfig 7 = .drop := by
  refine ⟨rfl, by decide, fun k hk => ?_, fun x hx => ?_, by decide, by decide⟩
  · rw [List.length_cons, List.length_cons, List.length_nil] at hk
    obtain rfl | rfl : k = 0 ∨ k = 1 := by omega
    · decide
    · decide
  · rw [List.mem_cons, List.mem_cons, List.mem_cons, List.mem_singleton] at hx
    obtain rfl | rfl | rfl | rfl := hx
    · decide
    · decide
    · decide
    · decide

/-- A file whose data bytes are device writes: the calls, in order. -/
def insertingAtSound : State :=
  { ref with
    cfg := { refConfig with ioBase := 0x001000 }
    env := { Env.empty with binaries := [.file [0x12, 0xFF, 1, 2]], devs := quiet 6 0 } }

theorem witness_InsbinWritesDataThenSlots_devices :
    quietReplies ([(1 : Byte), 2].length + 4) insertingAtSound = true ∧
    insertingAtSound.env.binaries = .file (0x12 :: 0xFF :: [1, 2]) :: [] ∧
    view (.insbin 1) insertingAtSound State.trace = some [.openBinary 1,
      .device (.ioWrite .cia 0xFF 1), .device (.ioWrite .sound 0 2)] := by decide

theorem witness_LevelZeroLinesRequestNothing :
    [IrqLine.mk 0 false, IrqLine.mk 7 true][0]? = some ⟨0, false⟩ := by decide

theorem witness_IrqregAppendsAReleasedLine :
    (withLines (List.replicate 255 ⟨1, false⟩)).irqLines.length < 256 ∧
    (withLines (List.replicate 256 ⟨1, false⟩)).irqLines.length = 256 := by
  simp only [withLines, List.length_replicate]
  decide

theorem witness_IrqasrAndIrqdeaDriveALine :
    1 < (withLines [⟨3, false⟩, ⟨6, true⟩]).irqLines.length ∧
    (withLines [⟨3, false⟩, ⟨6, true⟩]).irqLines.length ≤ 2 := by decide

theorem witness_TheLevelForgetsTheOrderOfAsserts :
    [(1, true), (0, false)] ≠ [] ∧
    ∀ d ∈ [(1, true), (0, false)], d.1 < (withLines [⟨3, true⟩, ⟨6, false⟩]).irqLines.length := by
  decide

theorem witness_HandlesAreDense : ref.irqLines = [] ∧ (List.replicate 255 7).length < 256 := by
  rw [List.length_replicate]
  decide

theorem witness_RegisteredLinesKeepTheirHandleAndLevel :
    ∃ t, exec (.irqreg 7) (withLines [⟨3, true⟩]) = .next t := ⟨_, rfl⟩

/-- The blitter is told of a refresh and answers by these operations. -/
def refreshing (ops : List DevOp) : State :=
  { withLines [⟨3, false⟩, ⟨5, true⟩] with env := { Env.empty with devs := [⟨0, [], ops⟩] } }

theorem witness_ADeviceAssertIsPushedAtOnce :
    0 < (refreshing [.irqAssert 0]).irqLines.length ∧ ref.cfg.cpuAttached = true ∧
    DevCall.notifyScreenRefresh.allows (.irqAssert 0) = true ∧
    (DevCall.ioWrite .timer 0 1).allows (.irqAssert 0) = true ∧
    (refreshing [.irqAssert 0]).env.devs = [⟨0, [], [.irqAssert 0]⟩] ∧
    { ref with env := { Env.empty with blits := [.ran [.vramWrite 8 1] true] } }.env.blits =
      [.ran [.vramWrite 8 1] true] ∧
    readCall ref.cfg 0xFCFFFF = some (.ctxRead 0xFFFF) ∧
    writeCall ref.cfg 0xFB01FF 0x34 = some (.ioWrite .timer 0xFF 0x34) := by decide

/-- R8, R113, R61: a handle past the table, a release that drops the level, and a byte the blitter writes. -/
theorem test_nested_operations :
    let t := (callDevice .notifyScreenRefresh
      (refreshing [.irqAssert 2, .irqDeassert 1, .vramWrite 0xFFFFFF 7, .vramRead 0xFFFFFF])).2
    t.trace = [.device .notifyScreenRefresh, .reply (.eBadHandle 2) .none, .setIpl 0, .reply .ok .none,
      .reply .ok .none, .reply .ok (.word 7)] ∧
    t.irqLines = [⟨3, false⟩, ⟨5, false⟩] ∧ vramByte t 0xFFFFFF = 7 := by decide

/-- R8, R37: the timer reaches no video memory, and no reset pulls a line. -/
theorem test_nested_operations_passed_over :
    (runDevice .timer 1 (refreshing [.vramWrite 8 1])).vram = ref.vram ∧
    (callDevice (.reset .cia) (refreshing [.irqAssert 0])).2.ipl = 5 := by decide

theorem witness_FdclkAnswersTheQuotient :
    (4294967295 * 255 * ref.cfg.soundHz + ref.divRem) / (100 * ref.cfg.cpuHz) < 2 ^ 64 := by decide

theorem witness_TheDividerDoesNotDrift :
    0 < ref.cfg.cpuHz ∧ ref.divRem < 100 * ref.cfg.cpuHz ∧ ref.divRem = 0 ∧
    (∀ c ∈ [(3, 100), (4294967295, 100)],
      c.1 * c.2 * ref.cfg.soundHz / (100 * ref.cfg.cpuHz) + 1 < 2 ^ 64 ∧ c.2 = 100) := by decide

theorem witness_TheDividerForgetsTheGranularity :
    0 < ref.cfg.cpuHz ∧ ref.divRem < 100 * ref.cfg.cpuHz ∧
    (3 + 5) * 105 * ref.cfg.soundHz / (100 * ref.cfg.cpuHz) + 1 < 2 ^ 64 := by decide

theorem witness_OnlyFdclkAndRunChangeTheRemainder :
    (∃ t, exec (.prun 20) (scripted [] 800) = .next t) ∧ (∀ pct n, Instr.prun 20 ≠ .fdclk pct n) ∧
    (∀ n, Instr.prun 20 ≠ .run n) := ⟨⟨_, rfl⟩, nofun, nofun⟩

/-- V71's script: the first instruction leaves the balance short, the second reaches it. -/
theorem witness_RunPerformsItsInstructions :
    let s := scripted [cycles 8, cycles 12] 800
    execAnswers s = [cycles 8].map ScriptedInstr.reply ++ (cycles 12).reply :: Config.freeExecs 0 ∧
    (∀ i ∈ [cycles 8], i.breakpoint = false ∧ i.ops = []) ∧
    (∀ k, 0 < k → k ≤ [cycles 8].length →
      (scriptCycles ([cycles 8].take k) : Int) < s.cpuBalance + (20 : Nat)) ∧
    s.cpuBalance + (20 : Nat) ≤ (scriptCycles [cycles 8] + (cycles 12).delta.toNat : Nat) ∧
    s.cpuBalance + (20 : Nat) ≤ balanceMax ∧
    s.frameBalance + (scriptCycles [cycles 8] + (cycles 12).delta.toNat : Nat) ≤ balanceMax ∧
    s.env.clock + (scriptCycles [cycles 8] + (cycles 12).delta.toNat : Nat) ≤ clockMax ∧
    balanceMin ≤ s.cpuBalance + (20 : Nat) - (scriptCycles [cycles 8] + (cycles 12).delta.toNat : Nat) ∧
    s.frameBalance + (scriptCycles [cycles 8] + (cycles 12).delta.toNat : Nat) ≤ s.cfg.frameBudget ∧
    drainHangs s.env.blits = false ∧ s.tallyHasRoom = true :=
  ⟨rfl, by decide, fun k h1 h2 => by
    obtain rfl : k = 1 := by
      simp only [List.length_cons, List.length_nil] at h2
      omega
    decide, by decide, by decide, by decide, by decide, by decide, by decide, by decide, by decide⟩

theorem witness_RunPerformsItsInstructions_breakpoint :
    execAnswers (scripted [⟨[], 12, true⟩] 800) =
      [].map ScriptedInstr.reply ++ .ran [] 12 true :: Config.freeExecs 0 := rfl

theorem power_on_inv (c : Config) (h : c.wf) : (State.powerOn c).Inv where
  cfg_wf := h
  rom_wf := List.Pairwise.nil
  rom_below := nofun
  vram_wf := List.Pairwise.nil
  vram_below := nofun
  count_le := Nat.zero_le _
  level_lt := nofun
  ipl_eq := rfl
  cpu_ge := show balanceMin ≤ 0 by decide
  cpu_le := show 0 ≤ balanceMax by decide
  frame_ge := Int.le_refl 0
  frame_le := show 0 ≤ balanceMax by decide
  under_ge := BitVec.le_refl _
  equal_ge := BitVec.le_refl _
  over_ge := BitVec.le_refl _
  rem_lt := by
    have := h.2.2.2.2.2.2.2.2.2.2.2.2.1
    show 0 < 100 * c.cpuHz
    omega
  clock_le := Nat.zero_le _

theorem witness_IrqrcpAndIrqgetGiveTheLevel : (State.powerOn refConfig).Inv :=
  power_on_inv _ refConfig_wf

/-- The CPU answers 8 cycles and then stalls. -/
def stallingAt8 : State :=
  { ref with env := { Env.empty with execs := [(cycles 8).reply, .stalled] } }

/-- Below the balance 20. -/
theorem witness_RunHangsAreNamed_stuck :
    (∀ i ∈ [cycles 8], i.breakpoint = false) ∧ stallingAt8.cpuBalance + (20 : Nat) ≤ balanceMax ∧
    stallingAt8.frameBalance + scriptCycles [cycles 8] ≤ balanceMax ∧
    stallingAt8.env.clock + scriptCycles [cycles 8] ≤ clockMax ∧
    (∀ k, k ≤ [cycles 8].length →
      (scriptCycles ([cycles 8].take k) : Int) < stallingAt8.cpuBalance + (20 : Nat)) ∧
    execAnswers stallingAt8 = [cycles 8].map ScriptedInstr.reply ++ .stalled :: Config.freeExecs 0 :=
  ⟨by decide, by decide, by decide, by decide, by decide, rfl⟩

/-- One instruction of 101 cycles crosses the frame budget, and the blitter's queue never empties. -/
def endlessAt101 : State :=
  { ref with env := { Env.empty with execs := [(cycles 101).reply], blits := [.ran [] true, .endless] } }

theorem witness_RunHangsAreNamed_drain :
    execAnswers endlessAt101 =
      ([] : List ScriptedInstr).map ScriptedInstr.reply ++ (cycles 101).reply :: Config.freeExecs 0 ∧
    endlessAt101.cpuBalance + (101 : Nat) ≤ scriptCycles [] + (cycles 101).delta.toNat ∧
    endlessAt101.frameBalance + scriptCycles [] + (cycles 101).delta.toNat ≤ balanceMax ∧
    endlessAt101.env.clock + scriptCycles [] + (cycles 101).delta.toNat ≤ clockMax ∧
    balanceMin ≤ endlessAt101.cpuBalance + (101 : Nat) - scriptCycles [] - (cycles 101).delta.toNat ∧
    endlessAt101.cfg.frameBudget < endlessAt101.frameBalance + scriptCycles [] + (cycles 101).delta.toNat ∧
    namesEndless endlessAt101.env.blits = true ∧ endlessAt101.tallyHasRoom = true :=
  ⟨rfl, by decide, by decide, by decide, by decide, by decide, by decide, by decide⟩

def stallingAtMinus5 : State :=
  { ref with cpuBalance := -5, env := { Env.empty with execs := [.stalled] } }

theorem witness_RunOfAStalledCpuEndsOnAnEmptyBalance :
    execAnswers stallingAtMinus5 = .stalled :: Config.freeExecs 0 ∧
    stallingAtMinus5.cpuBalance + (5 : Nat) ≤ 0 ∧
    stallingAtMinus5.frameBalance ≤ stallingAtMinus5.cfg.frameBudget ∧ stallingAtMinus5.tallyHasRoom = true :=
  ⟨rfl, by decide, by decide, by decide⟩

/-- One instruction of `d` cycles from these balances and clock. -/
def atEdge (balance frame : Int) (clock d : Nat) : State :=
  { ref with
    cpuBalance := balance, frameBalance := frame
    env := { Env.empty with clock := clock, execs := [(cycles d).reply] } }

theorem witness_RunStopsWhereABalanceLeavesItsRange :
    balanceMax < (atEdge balanceMax 0 0 1).cpuBalance + (1 : Nat) ∧
    (∀ b f c d, execAnswers (atEdge b f c d) =
      ([] : List ScriptedInstr).map ScriptedInstr.reply ++ (cycles d).reply :: Config.freeExecs 0) ∧
    clockMax < (atEdge 0 0 clockMax 1).env.clock + (scriptCycles [] + (cycles 1).delta.toNat) ∧
    balanceMax < (atEdge 0 balanceMax 0 1).frameBalance + (scriptCycles [] + (cycles 1).delta.toNat : Nat) ∧
    (atEdge (-5) 0 0 9223372036854775804).cpuBalance + (0 : Nat) -
      (scriptCycles [] + (cycles 9223372036854775804).delta.toNat : Nat) < balanceMin ∧
    (atEdge (-5) 0 0 9223372036854775804).frameBalance +
      (scriptCycles [] + (cycles 9223372036854775804).delta.toNat : Nat) ≤ balanceMax :=
  ⟨by decide, fun _ _ _ _ => rfl, by decide, by decide, by decide, by decide⟩

/-- The underrun tally at its last value, one instruction of 10 cycles and occupancies of `occ`. -/
def fullUnder (occ : Nat) : State := { scripted [cycles 10] occ with underrun := BitVec.allOnes 64 }

/-- The last clause: an occupancy of 49.9% raises the tally that is full. -/
theorem witness_RunStopsWhereABalanceLeavesItsRange_tally :
    execAnswers (fullUnder 499) =
      ([] : List ScriptedInstr).map ScriptedInstr.reply ++ (cycles 10).reply :: Config.freeExecs 0 ∧
    (fullUnder 499).cpuBalance + (10 : Nat) ≤ (scriptCycles [] + (cycles 10).delta.toNat : Nat) ∧
    (fullUnder 499).env.occupancies = 499 :: [499] ∧
    ((fullUnder 499).tallyFor 499).toNat = 2 ^ 64 - 1 := ⟨rfl, by decide, rfl, by decide⟩

/-- U14, D21: RUN and PRUN stop where the tally of the band is full, and go on where it is another's. -/
theorem test_tally_overflow :
    exec (.run 10) (fullUnder 499) = .fault .tallyOverflow ∧
    exec (.prun 10) (fullUnder 499) = .fault .tallyOverflow ∧
    view (.run 10) (fullUnder 500) State.equalrun = some 1 ∧
    view (.prun 10) (fullUnder 500) State.equalrun = some 1 := ⟨rfl, rfl, by decide, by decide⟩

/-- Each end of the loop that stops RUN, at its edge. -/
theorem test_run_stops :
    exec (.run 1) (atEdge balanceMax 0 0 1) = .fault .balanceOverflow ∧
    exec (.run 1) (atEdge 0 0 clockMax 1) = .fault .clockOverflow ∧
    exec (.run 0) (atEdge (-5) 0 0 9223372036854775804) = .fault .balanceOverflow ∧
    exec (.run 20) stallingAt8 = .fault .runStuck ∧
    exec (.run 101) { endlessAt101 with env := { endlessAt101.env with
      devs := quiet 5 0, occupancies := [800, 800] } } = .fault .drainStuck :=
  ⟨rfl, rfl, rfl, rfl, rfl⟩

/-- A run of V72 and a breakpoint after it. -/
theorem witness_RunCyclesAreAccountedFor :
    (runAll [10] (scripted [cycles 8, cycles 12] 800)).map (fun p => (p.1, p.2.1)) = some (20, 0) ∧
    (runAll [100] (scripted [cycles 8, ⟨[], 12, true⟩] 800)).map (fun p => (p.1, p.2.1)) =
      some (20, 80) ∧
    view (.run 10) (scripted [cycles 8, cycles 12] 800) State.result = some (.run .stepped) := by decide

theorem witness_EachSchedulerStepCountsOneBand :
    (∃ t, exec (.run 10) (scripted [cycles 10] 499) = .next t) ∧
    (scripted [cycles 10] 499).env.occupancies = 499 :: [499] := ⟨⟨_, rfl⟩, rfl⟩

/-- The boundary values of the bands (V80), and a recording state. -/
theorem witness_SoundIsRunAtTheRateOfTheBand :
    (∃ t, exec (.run 4) (scripted [cycles 4] 2001) = .next t) ∧
    (scripted [cycles 4] 2001).env.occupancies = 2001 :: [2001] ∧ ref.recording = false ∧
    { ref with recording := true }.recording = true ∧
    100 * 499 < 50 * ref.cfg.audioTarget ∧ 50 * ref.cfg.audioTarget ≤ 100 * 500 ∧
    100 * 1199 < 120 * ref.cfg.audioTarget ∧ 120 * ref.cfg.audioTarget ≤ 100 * 1200 ∧
    100 * 2000 ≤ 200 * ref.cfg.audioTarget ∧ 200 * ref.cfg.audioTarget < 100 * 2001 :=
  ⟨⟨_, rfl⟩, by decide⟩

/-- A queue of three operations. The other hypotheses are those of `witness_RunPerformsItsInstructions`. -/
def queuedThree : State :=
  { scripted [cycles 8, cycles 12] 800 with
    env := { (scripted [cycles 8, cycles 12] 800).env with
      blits := [.ran [] true, .ran [] true, .ran [] false] } }

theorem witness_RunCallsItsAgentsInOrder :
    execAnswers queuedThree =
      [cycles 8].map ScriptedInstr.reply ++ (cycles 12).reply :: Config.freeExecs 0 ∧
    (∀ i ∈ [cycles 8], i.breakpoint = false ∧ i.ops = []) ∧ (cycles 12).ops = [] ∧
    queuedThree.env.occupancies = 800 :: 800 :: [] ∧
    queuedThree.env.blits = List.replicate 2 (.ran [] true) ++ .ran [] false :: [] ∧
    quietReplies (2 * [cycles 8].length + 5) queuedThree = true ∧ queuedThree.tallyHasRoom = true :=
  ⟨rfl, by decide, rfl, rfl, rfl, by decide, by decide⟩

theorem witness_PrunRunsCiaAndTimerOnly :
    balanceMax < { ref with frameBalance := balanceMax }.frameBalance + (1 : Nat) ∧
    { ref with frameBalance := balanceMax - 1 }.frameBalance + (1 : Nat) ≤ balanceMax ∧
    (fullUnder 499).frameBalance + (10 : Nat) ≤ balanceMax ∧
    (fullUnder 499).env.occupancies = 499 :: 499 :: [] ∧
    ((fullUnder 499).tallyFor 499).toNat = 2 ^ 64 - 1 ∧ (fullUnder 500).tallyHasRoom = true ∧
    quietReplies 2 (scripted [] 800) = true ∧
    (scripted [] 800).env.occupancies = 800 :: 800 :: [] := by decide

theorem witness_AStepTakesAtMostOneFrameBoundary :
    (∃ t, exec (.run 101) (scripted [cycles 101] 800) = .next t) ∧
    0 ≤ (scripted [cycles 101] 800).frameBalance ∧
    view (.run 101) (scripted [cycles 101] 800) State.frameBalance = some 1 :=
  ⟨⟨_, rfl⟩, by decide, by decide⟩

theorem witness_FrameBoundariesOverASequence :
    ref.frameBalance = 0 ∧ (∀ n ∈ [100, 1, 99], n ≤ ref.cfg.frameBudget) ∧ 0 < [100, 1, 99].sum ∧
    2 * (ref.cfg.frameBudget : Int) ≤ balanceMax ∧
    ref.underrun.toNat + [100, 1, 99].length < 2 ^ 64 ∧ ref.equalrun.toNat + [100, 1, 99].length < 2 ^ 64 ∧
    ref.overrun.toNat + [100, 1, 99].length < 2 ^ 64 ∧ ref.frameDone = false := by decide

/-- `scripted` with inputs for three steps. -/
def stepping (script : List ScriptedInstr) : State :=
  { scripted script 800 with
    env := { (scripted script 800).env with devs := quiet 15 0, occupancies := List.replicate 6 800 } }

/-- A RUN of 101 cycles, then a PRUN of none: one boundary each way of counting (R152). -/
theorem witness_FrameBoundariesOverASequence_steps :
    (∀ i ∈ [Instr.run 101, .prun 0], ∃ n, i = .run n ∨ i = .prun n) ∧
    (stepping [cycles 101]).frameBalance = 0 ∧ (stepping [cycles 101]).frameDone = false ∧
    (framesAll [.run 101, .prun 0] (stepping [cycles 101])).map (fun p => (p.1, p.2.1)) =
      some ([101, 0], 1) := by
  refine ⟨fun i hi => ?_, rfl, rfl, by decide⟩
  obtain rfl | rfl : i = .run 101 ∨ i = .prun 0 := by simpa using hi
  · exact ⟨101, .inl rfl⟩
  · exact ⟨0, .inr rfl⟩

/-- Steps of at most FRAME_BUDGET from 0: 201 cycles cross it twice. -/
theorem witness_FrameBoundariesOverASequence_small :
    (framesAll [.run 100, .prun 1, .prun 100] (stepping [cycles 100])).map
      (fun p => (p.1, p.2.1, p.2.2.frameBalance)) = some ([100, 1, 100], 2, 1) := by decide

theorem witness_OnlyTogmodeAndBreakpointsChangeTheMode :
    (∃ t, exec .togmode ref = .next t ∧ t.mode ≠ ref.mode) ∧
    view (.run 100) (scripted [⟨[], 12, true⟩] 800) State.result = some (.run .breakpointHit) :=
  ⟨⟨_, rfl, by decide⟩, by decide⟩

theorem witness_TogmodeFlipsTheMode :
    ref.mode = .running ∧ { ref with mode := .paused }.mode = .paused := by decide

theorem witness_TogrecOpensAndCloses :
    ref.recording = false ∧ { ref with recording := true }.recording = true := by decide

theorem witness_TalliesAndLapsHaveTheirWriters :
    (∃ t, exec .takeframe ref = .next t) ∧ Instr.takeframe ≠ .reset ∧ Instr.takeframe ≠ .health ∧
    (∀ n, Instr.takeframe ≠ .run n) ∧ (∀ n, Instr.takeframe ≠ .prun n) :=
  ⟨⟨_, rfl⟩, by decide, by decide, nofun, nofun⟩

theorem witness_TalliesStayAboveTheirLaps :
    let s := { presenting ⟨0x41000000#32, 20⟩ with underrun := 3, lapUnder := 3 }
    (∃ t, step s = .next t) ∧ s.lapUnder ≤ s.underrun ∧ s.lapEqual ≤ s.equalrun ∧ s.lapOver ≤ s.overrun ∧
    (∃ t, exec (.prun 20) s = .next t) ∧ Instr.prun 20 ≠ .reset :=
  ⟨⟨_, rfl⟩, by decide, by decide, by decide, ⟨_, rfl⟩, by decide⟩

theorem witness_NoCommandWritesTheConfiguration : ∃ t, exec .health ref = .next t := ⟨_, rfl⟩

theorem witness_ResetZeroesAndReloads :
    ref.cfg.wf ∧ (loading [.notConfigured]).env.romFiles = [.notConfigured] ∧
    ref.ipl = aggregateLevel ref.irqLines := ⟨refConfig_wf, rfl, rfl⟩

theorem witness_ResetCallsItsAgentsInOrder :
    let s := { ref with
      env := { Env.empty with romFiles := [.missing], devs := quiet 4 0, cpuResets := [resetOps] } }
    quietReplies 4 s = true ∧ s.env.cpuResets = resetOps :: [] ∧ s.cfg.wf ∧
    s.env.romFiles = [.missing] ∧ resetOps.filterMap (vectorAnswer ref) =
      [.reply .ok (.word 0x8000), .reply .ok (.word 0x0400), .reply .ok (.word 0)] :=
  ⟨by decide, rfl, refConfig_wf, rfl, by decide⟩

theorem witness_EveryStepKeepsTheInvariant :
    ∃ s t, s.Inv ∧ s.commands ≠ [] ∧ step s = .next t := by
  have h := power_on_inv refConfig refConfig_wf
  exact ⟨{ State.powerOn refConfig with commands := [⟨0x41000000#32, 20⟩] }, _,
    ⟨h.cfg_wf, h.rom_wf, h.rom_below, h.vram_wf, h.vram_below, h.count_le, h.level_lt, h.ipl_eq, h.cpu_ge,
      h.cpu_le, h.frame_ge, h.frame_le, h.under_ge, h.equal_ge, h.over_ge, h.rem_lt, h.clock_le⟩, by decide,
    rfl⟩

end Sys2Proof.Tests
end

section
/-! The step (00_scope.md R6): what it answers for a presented command, and that a command presented by
its encoded words is the one decoded. -/

namespace Sys2Proof

/-! ## The decoder on a command word, unit by unit (30_encoding.md R73) -/

theorem decode_busWord (op : BitVec 4) (a : BitVec 24) (d : Word) :
    decode ⟨commandWord 1 op a, d⟩ = decodeBus op.toNat a d := by simp [decode]

theorem decode_irqWord (op : BitVec 4) (a : BitVec 24) (d : Word) :
    decode ⟨commandWord 2 op a, d⟩ = decodeIrq op.toNat a := by simp [decode]

theorem decode_fdivWord (op : BitVec 4) (a : BitVec 24) (d : Word) :
    decode ⟨commandWord 3 op a, d⟩ = decodeFdiv op.toNat a d := by simp [decode]

theorem decode_schedWord (op : BitVec 4) (a : BitVec 24) (d : Word) :
    decode ⟨commandWord 4 op a, d⟩ = decodeSched op.toNat a d := by simp [decode]

/-! ## Each operand form reads back what the encoder wrote (R72) -/

theorem decodePlain_zero (i : Instr) : decodePlain 0 i = .ok i := decodePlain_eq.mpr ⟨rfl, rfl⟩

theorem decodeLow_ofNat {k n : Nat} (hk : k ≤ 24) (h : n < 2 ^ k) (make : Nat → Instr) :
    decodeLow k (BitVec.ofNat 24 n) make = .ok (make n) := by
  have hn : (BitVec.ofNat 24 n).toNat = n :=
    Nat.mod_eq_of_lt (Nat.lt_of_lt_of_le h (Nat.pow_le_pow_right (by decide) hk))
  exact decodeLow_eq.mpr ⟨hn.symm ▸ h, by rw [hn]⟩

theorem decodeWr8_setWidth (a : BitVec 24) (v : Byte) : decodeWr8 a (v.setWidth 32) = .ok (.wr8 a v) := by
  have hv : (v.setWidth 32).toNat = v.toNat := BitVec.toNat_setWidth_of_le (by decide)
  exact decodeWr8_eq.mpr ⟨hv ▸ v.isLt,
    by rw [BitVec.extractLsb'_setWidth_of_le (by decide), BitVec.extractLsb'_eq_self]⟩

theorem decodeWr16_setWidth (a : BitVec 24) (v : Half) :
    decodeWr16 a (v.setWidth 32) = .ok (.wr16 a v) := by
  have hv : (v.setWidth 32).toNat = v.toNat := BitVec.toNat_setWidth_of_le (by decide)
  exact decodeWr16_eq.mpr ⟨hv ▸ v.isLt,
    by rw [BitVec.extractLsb'_setWidth_of_le (by decide), BitVec.extractLsb'_eq_self]⟩

/-- The decoder gives back a well-formed command from its words. -/
theorem decode_encode {i : Instr} (h : i.wf = true) : decode (encode i) = .ok i := by
  have cycles : ∀ {n : Nat}, n < 2 ^ 32 → (BitVec.ofNat 32 n).toNat = n := fun hn => Nat.mod_eq_of_lt hn
  cases i with
  | rd8 a => exact decode_busWord 0 a 0
  | rd16 a => exact decode_busWord 1 a 0
  | wr8 a v => exact (decode_busWord 2 a _).trans (decodeWr8_setWidth a v)
  | wr16 a v => exact (decode_busWord 3 a _).trans (decodeWr16_setWidth a v)
  | ldrom => exact (decode_busWord 4 0 0).trans (decodePlain_zero _)
  | insbin f => exact (decode_busWord 5 0 f).trans (decodePlain_zero _)
  | irqreg l =>
    exact (decode_irqWord 0 _ 0).trans
      (decodeLow_ofNat (k := 3) (by decide) (of_decide_eq_true h) _)
  | irqasr n =>
    exact (decode_irqWord 1 _ 0).trans
      (decodeLow_ofNat (k := 8) (by decide) (of_decide_eq_true h) _)
  | irqdea n =>
    exact (decode_irqWord 2 _ 0).trans
      (decodeLow_ofNat (k := 8) (by decide) (of_decide_eq_true h) _)
  | irqrcp => exact (decode_irqWord 3 0 0).trans (decodePlain_zero _)
  | irqget => exact (decode_irqWord 4 0 0).trans (decodePlain_zero _)
  | fdclk pct n =>
    obtain ⟨hp, hn⟩ : pct < 2 ^ 8 ∧ n < 2 ^ 32 := by simpa [Instr.wf] using h
    have hlow := decodeLow_ofNat (by decide) hp fun p => .fdclk p (BitVec.ofNat 32 n).toNat
    exact (decode_fdivWord 0 _ _).trans (hlow.trans (by rw [cycles hn]))
  | run n =>
    exact (decode_schedWord 0 0 _).trans ((decodePlain_zero _).trans (by rw [cycles (of_decide_eq_true h)]))
  | prun n =>
    exact (decode_schedWord 1 0 _).trans ((decodePlain_zero _).trans (by rw [cycles (of_decide_eq_true h)]))
  | reset => exact (decode_schedWord 2 0 0).trans (decodePlain_zero _)
  | togmode => exact (decode_schedWord 3 0 0).trans (decodePlain_zero _)
  | togrec => exact (decode_schedWord 4 0 0).trans (decodePlain_zero _)
  | health => exact (decode_schedWord 5 0 0).trans (decodePlain_zero _)
  | takeframe => exact (decode_schedWord 6 0 0).trans (decodePlain_zero _)
  | stats => exact (decode_schedWord 7 0 0).trans (decodePlain_zero _)

end Sys2Proof

namespace Sys2Proof.Machine

theorem step_of_decode {s : State} {c : Command} {rest : List Command} {i : Instr}
    (hc : s.commands = c :: rest) (hd : decode c = .ok i) :
    step s = exec i { s with commands := rest, status := .ok, result := .none, trace := [] } := by
  simp only [step, takeCommand, hc, hd]

theorem step_of_none {s : State} (hc : s.commands = []) : step s = .next s := by
  simp only [step, takeCommand, hc]

/-- Settles O5: a step takes the command off the port, then decodes and performs it. -/
theorem stepPerformsTheDecodedCommand : Obligations.StepPerformsTheDecodedCommand :=
  ⟨fun _ _ _ _ => step_of_decode, fun _ => step_of_none⟩

/-- Settles O6: the words decode to the command they encode. -/
theorem encodedCommandsArePerformed : Obligations.EncodedCommandsArePerformed :=
  fun _ _ _ hwf hc => step_of_decode hc (decode_encode hwf)

end Sys2Proof.Machine
end

section
/-! No command writes the configuration (00_scope.md R14) or the queue of commands (10_state.md R20): both
are in the `own` part of the state, and what a command leaves of that part names neither. -/

namespace Sys2Proof.Machine

theorem cfg_commands_of_own {s t u : State} (h : t.own = u) (hc : u.cfg = s.cfg)
    (hq : u.commands = s.commands) : t.cfg = s.cfg ∧ t.commands = s.commands :=
  ⟨(congrArg State.cfg h).trans hc, (congrArg State.commands h).trans hq⟩

/-- IRQREG appends a line or answers that the table is full. -/
theorem execIrqreg_cases {level : Nat} {s t : State} (h : execIrqreg level s = .next t) :
    (s.irqCount = irqCapacity ∧ t = raise (.eIrqFull level) s) ∨
    (s.irqCount ≠ irqCapacity ∧ t = answer (.word (zext32 s.irqCount))
      { s with irqLines := s.irqLines ++ [{ level := level, asserted := false }] }) := by
  have ht := (Host.Outcome.next.inj h).symm
  split at ht
  · exact .inl ⟨‹_›, ht⟩
  · exact .inr ⟨‹_›, ht⟩

theorem exec_cfg_commands {i : Instr} {s t : State} (h : exec i s = .next t) :
    t.cfg = s.cfg ∧ t.commands = s.commands := by
  by_cases hi : leavesOwn i = true
  · exact cfg_commands_of_own (own_exec hi h) rfl rfl
  · cases i <;> simp only [leavesOwn, not_true_eq_false] at hi
    case ldrom =>
      obtain ⟨_, ho⟩ := own_execLdrom h
      exact cfg_commands_of_own ho rfl rfl
    case irqreg level =>
      obtain ⟨-, rfl⟩ | ⟨-, rfl⟩ := execIrqreg_cases h
      · exact ⟨rfl, rfl⟩
      · exact ⟨rfl, rfl⟩
    case fdclk pct n => exact cfg_commands_of_own (own_execFdclk h) rfl rfl
    case run n =>
      obtain ⟨_, _, -, -, -, -, ho⟩ := own_execRun h
      exact cfg_commands_of_own ho rfl rfl
    case prun n =>
      obtain ⟨-, _, -, -, ho⟩ := own_execPrun h
      exact cfg_commands_of_own ho rfl rfl
    case reset =>
      obtain ⟨_, ho⟩ := own_execReset h
      exact cfg_commands_of_own ho rfl rfl
    case togmode => exact cfg_commands_of_own (own_execTogmode h) rfl rfl
    case togrec => exact cfg_commands_of_own (own_execTogrec h) rfl rfl
    case health => exact cfg_commands_of_own (own_execHealth h) rfl rfl
    case takeframe => exact cfg_commands_of_own (own_execTakeframe h) rfl rfl

/-- Settles O55, command by command. -/
theorem noCommandWritesTheConfiguration : Obligations.NoCommandWritesTheConfiguration :=
  fun _ _ _ => exec_cfg_commands

end Sys2Proof.Machine
end

section
/-! Where RUN stops (00_scope.md R15, 93_implementation_defined.md U14): the loop of R144 at one answer of the
CPU, in the order it looks at its limits, and the fault it makes of RUN. -/

namespace Sys2Proof.Machine

/-! ## The loop of RUN at one instruction -/

section
variable {bal frame : Int} {i : ScriptedInstr} {rest : List ExecReply} {consumed : Nat} {s : State}

theorem runLoop_clockOverflow (hc : clockMax < s.env.clock + i.delta.toNat) :
    runLoop bal frame (i.reply :: rest) consumed s = .error .clockOverflow := by
  simp only [ScriptedInstr.reply, runLoop]
  rw [if_pos hc]

theorem runLoop_frameOverflow (hc : s.env.clock + i.delta.toNat ≤ clockMax)
    (hf : balanceMax < frame + (consumed + i.delta.toNat : Nat)) :
    runLoop bal frame (i.reply :: rest) consumed s = .error .balanceOverflow := by
  simp only [ScriptedInstr.reply, runLoop]
  rw [if_neg (by omega), if_pos hf]

theorem runLoop_balanceUnderflow (hc : s.env.clock + i.delta.toNat ≤ clockMax)
    (hf : frame + (consumed + i.delta.toNat : Nat) ≤ balanceMax) (hbp : i.breakpoint = false)
    (hm : bal - (consumed + i.delta.toNat : Nat) < balanceMin) :
    runLoop bal frame (i.reply :: rest) consumed s = .error .balanceOverflow := by
  simp only [ScriptedInstr.reply, runLoop]
  rw [if_neg (by omega), if_neg (by omega), if_neg (by simp [hbp]), if_pos hm]

/-- An instruction that reaches a breakpoint or the balance, and no limit, ends the loop. -/
theorem runLoop_ends (hc : s.env.clock + i.delta.toNat ≤ clockMax)
    (hf : frame + (consumed + i.delta.toNat : Nat) ≤ balanceMax)
    (he : i.breakpoint = true ∨ bal ≤ (consumed + i.delta.toNat : Nat))
    (hm : i.breakpoint = false → balanceMin ≤ bal - (consumed + i.delta.toNat : Nat)) :
    runLoop bal frame (i.reply :: rest) consumed s =
      .ok ⟨consumed + i.delta.toNat, i.breakpoint, loopBody i.ops i.delta.toNat (takeExec s)⟩ := by
  simp only [ScriptedInstr.reply, runLoop]
  rw [if_neg (by omega), if_neg (by omega)]
  cases hbp : i.breakpoint with
  | true => rw [if_pos rfl]
  | false =>
    have hle : bal ≤ (consumed + i.delta.toNat : Nat) := he.resolve_left (by simp [hbp])
    have hge := hm hbp
    rw [if_neg Bool.false_ne_true, if_neg (by omega), if_pos hle]

end

/-- The loop of a RUN goes through instructions that reach neither a breakpoint nor the balance. -/
theorem runLoop_execAnswers {s : State} {bal : Int} {before : List ScriptedInstr} {tail : List ExecReply}
    (ha : execAnswers s = before.map ScriptedInstr.reply ++ tail) (hb : ∀ i ∈ before, i.breakpoint = false)
    (hk : ∀ k, 0 < k → k ≤ before.length → (scriptCycles (before.take k) : Int) < bal)
    (hf : s.frameBalance + scriptCycles before ≤ balanceMax)
    (hc : s.env.clock + scriptCycles before ≤ clockMax) :
    runLoop bal s.frameBalance (execAnswers s) 0 { s with cpuBalance := bal } =
      runLoop bal s.frameBalance tail (scriptCycles before)
        (scriptState before { s with cpuBalance := bal }) := by
  have h := runLoop_script (frame := s.frameBalance) (tail := tail) before 0 { s with cpuBalance := bal } hb
    (by simpa using hk) hc (by simpa using hf)
  rwa [Nat.zero_add, ← ha] at h

/-! ## The faults of RUN -/

section
variable {n : Nat} {s : State}

theorem execRun_requestOverflow (h : balanceMax < s.cpuBalance + n) :
    execRun n s = .fault .balanceOverflow := by
  simp only [execRun, if_pos h]

variable (hbal : s.cpuBalance + n ≤ balanceMax)
include hbal

theorem execRun_of_loop_error {f : Fault}
    (h : runLoop (s.cpuBalance + n) s.frameBalance (execAnswers s) 0
      { s with cpuBalance := s.cpuBalance + n } = .error f) : execRun n s = .fault f := by
  simp only [execRun, if_neg (Int.not_lt.mpr hbal), h]

theorem execRun_tallyOverflow {e : LoopEnd}
    (h : runLoop (s.cpuBalance + n) s.frameBalance (execAnswers s) 0
      { s with cpuBalance := s.cpuBalance + n } = .ok e)
    (hfull : countOverflows (nextBand (settleRun (s.cpuBalance + n) e)) s = true) :
    execRun n s = .fault .tallyOverflow := by
  simp only [execRun, if_neg (Int.not_lt.mpr hbal), h, if_pos hfull]

end

/-- The band a RUN counts is that of the occupancy listed before it. -/
theorem bandOf_run {n : Nat} {s : State} {e : LoopEnd}
    (h : runLoop (s.cpuBalance + n) s.frameBalance (execAnswers s) 0
      { s with cpuBalance := s.cpuBalance + n } = .ok e) :
    BandOf s (nextBand (settleRun (s.cpuBalance + n) e)) := by
  obtain ⟨ho, henv⟩ := runLoop_outside h
  exact (own_finishRun ho (congrArg Env.occupancies henv :)).1

/-- Settles O40: past the instructions before it, the loop stands at the last one, which meets the first limit
it would pass. -/
theorem runStopsWhereABalanceLeavesItsRange : Obligations.RunStopsWhereABalanceLeavesItsRange := by
  intro s n before last rest bal total
  refine ⟨execRun_requestOverflow, fun hbal ha hb hk hf hc => ?_⟩
  have hloop := runLoop_execAnswers ha hb hk hf hc
  have hclock : (scriptState before { s with cpuBalance := bal }).env.clock + last.delta.toNat =
      s.env.clock + total := by
    rw [clock_scriptState, Nat.add_assoc]
  refine ⟨fun h => ?_, fun h1 h => ?_, fun h1 h2 hbp h => ?_, fun h1 h2 hend hmin occ occs hocc hfull => ?_⟩
  · exact execRun_of_loop_error hbal (hloop.trans (runLoop_clockOverflow (hclock ▸ h)))
  · exact execRun_of_loop_error hbal (hloop.trans (runLoop_frameOverflow (hclock ▸ h1) h))
  · exact execRun_of_loop_error hbal (hloop.trans (runLoop_balanceUnderflow (hclock ▸ h1) h2 hbp h))
  · have hok := hloop.trans (runLoop_ends (hclock ▸ h1) h2 hend hmin)
    refine execRun_tallyOverflow hbal hok ?_
    rw [(bandOf_run hok).countOverflows hocc, beq_iff_eq]
    exact BitVec.eq_of_toNat_eq hfull

end Sys2Proof.Machine
end

section
/-! What a command can do to the block's own fields (10_state.md R33), said once, and what follows for the
ROM image (R23), the interrupt table (R25), the tallies and the laps (R31). -/

namespace Sys2Proof.Machine

/-- What a command can leave of the block's own fields of `s`, by the fields it writes. -/
inductive OwnStep (s : State) : Instr → State → Prop
  /-- the ports, the mode, the two flags and the remainder at most -/
  | minor (i : Instr) (st : Status) (r : Result) (mode : Mode) (recording done : Bool) (rem : Nat) :
    OwnStep s i { s.own with
      status := st, result := r, mode := mode, recording := recording, frameDone := done, divRem := rem }
  | ldrom (rom : Memory) (st : Status) :
    OwnStep s .ldrom { s.own with rom := rom, status := st, result := .none }
  | irqreg (level : Nat) (r : Result) :
    OwnStep s (.irqreg level) { s.own with
      status := .ok, result := r
      irqLines := s.own.irqLines ++ [{ level := level, asserted := false }] }
  | health (r : Result) :
    OwnStep s .health { s.own with
      status := .ok, result := r
      lapUnder := s.underrun, lapEqual := s.equalrun, lapOver := s.overrun }
  /-- RUN and PRUN: the one tally of a band that has room, beside the balances and what `minor` writes -/
  | timed (i : Instr) (hi : (∃ n, i = .run n) ∨ ∃ n, i = .prun n) (band : Band)
      (room : countOverflows band s = false) (r : Result) (cpu frame : Int) (mode : Mode) (done : Bool)
      (rem : Nat) :
    OwnStep s i { s.own with
      status := .ok, result := r, mode := mode, frameDone := done, divRem := rem
      cpuBalance := cpu, frameBalance := frame
      underrun := s.underrun + band.increments.1
      equalrun := s.equalrun + band.increments.2.1
      overrun := s.overrun + band.increments.2.2 }
  | reset (rom : Memory) (st : Status) :
    OwnStep s .reset { (clearScheduler s).own with rom := rom, status := st, result := .none }

/-- Every command leaves the block's own fields as `OwnStep` says. -/
theorem exec_ownStep {i : Instr} {s t : State} (h : exec i s = .next t) : OwnStep s i t.own := by
  by_cases hi : leavesOwn i = true
  · rw [own_exec hi h]
    exact .minor ..
  · cases i <;> simp only [leavesOwn, not_true_eq_false] at hi
    case ldrom =>
      obtain ⟨_, ho⟩ := own_execLdrom h
      exact ho ▸ .ldrom ..
    case irqreg level =>
      obtain ⟨-, rfl⟩ | ⟨-, rfl⟩ := execIrqreg_cases h
      · exact .minor ..
      · have hs := OwnStep.irqreg (s := s) level (.word (zext32 s.irqCount))
        simpa [State.own] using hs
    case fdclk pct n =>
      rw [own_execFdclk h]
      exact .minor ..
    case run n =>
      obtain ⟨_, band, -, room, -, -, ho⟩ := own_execRun h
      rw [ho]
      exact .timed _ (.inl ⟨n, rfl⟩) band room ..
    case prun n =>
      obtain ⟨-, band, -, room, ho⟩ := own_execPrun h
      rw [ho]
      exact .timed _ (.inr ⟨n, rfl⟩) band room ..
    case reset =>
      obtain ⟨_, ho⟩ := own_execReset h
      exact ho ▸ .reset ..
    case togmode =>
      rw [own_execTogmode h]
      exact .minor ..
    case togrec =>
      rw [own_execTogrec h]
      exact .minor ..
    case health =>
      rw [own_execHealth h]
      exact .health _
    case takeframe =>
      rw [own_execTakeframe h]
      exact .minor ..

namespace OwnStep

variable {s u : State} {i : Instr}

theorem rom (h : OwnStep s i u) (hl : i ≠ .ldrom) (hr : i ≠ .reset) : u.rom = s.rom := by
  cases h with
  | ldrom => exact absurd rfl hl
  | reset => exact absurd rfl hr
  | _ => rfl

theorem levels (h : OwnStep s i u) :
    u.levels = s.levels ∨ ∃ level, i = .irqreg level ∧ u.levels = s.levels ++ [level] := by
  cases h with
  | irqreg level => exact .inr ⟨level, rfl, by rw [← levels_own s]; simp [State.levels]⟩
  | _ => exact .inl (levels_own s)

theorem tallies (h : OwnStep s i u) (hz : i ≠ .reset) (hr : ∀ n, i ≠ .run n) (hp : ∀ n, i ≠ .prun n) :
    u.underrun = s.underrun ∧ u.equalrun = s.equalrun ∧ u.overrun = s.overrun := by
  cases h with
  | timed _ hi =>
    obtain ⟨n, rfl⟩ | ⟨n, rfl⟩ := hi
    · exact absurd rfl (hr n)
    · exact absurd rfl (hp n)
  | reset => exact absurd rfl hz
  | _ => exact ⟨rfl, rfl, rfl⟩

theorem laps (h : OwnStep s i u) (hz : i ≠ .reset) (hh : i ≠ .health) :
    u.lapUnder = s.lapUnder ∧ u.lapEqual = s.lapEqual ∧ u.lapOver = s.lapOver := by
  cases h with
  | health => exact absurd rfl hh
  | reset => exact absurd rfl hz
  | _ => exact ⟨rfl, rfl, rfl⟩

theorem tallies_ge (h : OwnStep s i u) (hz : i ≠ .reset) :
    s.underrun ≤ u.underrun ∧ s.equalrun ≤ u.equalrun ∧ s.overrun ≤ u.overrun := by
  cases h with
  | timed _ _ _ room => exact le_counted room
  | reset => exact absurd rfl hz
  | _ => exact ⟨BitVec.le_refl _, BitVec.le_refl _, BitVec.le_refl _⟩

/-- HEALTH and RESET set each lap to its tally; the other commands keep the laps and take no tally down. -/
theorem laps_le_tallies (h : OwnStep s i u) :
    (s.lapUnder ≤ s.underrun → u.lapUnder ≤ u.underrun) ∧
    (s.lapEqual ≤ s.equalrun → u.lapEqual ≤ u.equalrun) ∧
    (s.lapOver ≤ s.overrun → u.lapOver ≤ u.overrun) := by
  cases h with
  | timed _ _ _ room =>
    obtain ⟨hu, he, ho⟩ := le_counted room
    exact ⟨(BitVec.le_trans · hu), (BitVec.le_trans · he), (BitVec.le_trans · ho)⟩
  | health => exact ⟨fun _ => BitVec.le_refl _, fun _ => BitVec.le_refl _, fun _ => BitVec.le_refl _⟩
  | reset => exact ⟨fun _ => BitVec.le_refl _, fun _ => BitVec.le_refl _, fun _ => BitVec.le_refl _⟩
  | _ => exact ⟨id, id, id⟩

end OwnStep

/-- Settles O20: LDROM and RESET are the only commands that write the image. -/
theorem onlyLdromAndResetWriteTheRom : Obligations.OnlyLdromAndResetWriteTheRom :=
  fun _ _ _ h => (exec_ownStep h).rom

/-- Settles O30: IRQREG appends a level, the other commands keep them all. -/
theorem registeredLinesKeepTheirHandleAndLevel : Obligations.RegisteredLinesKeepTheirHandleAndLevel := by
  intro i s t h
  have hlevels := (exec_ownStep h).levels
  rw [levels_own] at hlevels
  obtain heq | ⟨level, rfl, happ⟩ := hlevels
  · exact ⟨heq ▸ List.prefix_refl _, fun _ => heq⟩
  · exact ⟨happ ▸ List.prefix_append _ _, fun hne => absurd rfl (hne level)⟩

/-- Settles O53: only the steps `timed` and `reset` write a tally, only `health` and `reset` a lap. -/
theorem talliesAndLapsHaveTheirWriters : Obligations.TalliesAndLapsHaveTheirWriters :=
  fun _ _ _ h hz => ⟨(exec_ownStep h).tallies hz, (exec_ownStep h).laps hz⟩

/-- Settles O54: a step performs a command, or changes the ports alone. -/
theorem talliesStayAboveTheirLaps : Obligations.TalliesStayAboveTheirLaps := by
  refine ⟨fun _ _ _ h => (exec_ownStep h).tallies_ge, fun s t h => ?_⟩
  obtain ⟨-, rfl⟩ | ⟨_, _, _, -, rfl, ⟨_, -, hexec⟩ | ⟨-, rfl⟩⟩ := step_cases h
  · exact ⟨id, id, id⟩
  · exact (exec_ownStep hexec).laps_le_tallies
  · exact ⟨id, id, id⟩

end Sys2Proof.Machine
end

section
/-! Power-on (10_state.md R36). -/

namespace Sys2Proof.Machine

/-- Settles O58: each is the value `State.powerOn` gives the field. -/
theorem powerOnState : Obligations.PowerOnState :=
  ⟨rfl, rfl, rfl, rfl, rfl, rfl, rfl, rfl, rfl, rfl, rfl, rfl, rfl, rfl, fun _ => rfl, fun _ => rfl⟩

theorem cpuHz_pos {c : Config} (h : c.wf) : 0 < c.cpuHz := by
  obtain ⟨-, -, -, -, -, -, -, -, -, -, -, -, hz, -⟩ := h
  exact hz

theorem ownInv_powerOn {c : Config} (h : c.wf) : OwnInv (State.powerOn c).own where
  cfg_wf := h
  rom_wf := .nil
  rom_below := nofun
  count_le := Nat.zero_le _
  level_lt := nofun
  cpu_ge := (by decide : balanceMin ≤ 0)
  cpu_le := (by decide : 0 ≤ balanceMax)
  frame_ge := Int.le_refl 0
  frame_le := (by decide : 0 ≤ balanceMax)
  under_ge := BitVec.le_refl 0
  equal_ge := BitVec.le_refl 0
  over_ge := BitVec.le_refl 0
  rem_lt := Nat.mul_pos (by decide) (cpuHz_pos h)

theorem sharedInv_powerOn (c : Config) : SharedInv (State.powerOn c) :=
  ⟨.nil, nofun, rfl⟩

/-- Settles O59: the free parameters meet R14 by `machine_wf`, and every other field is empty or 0. -/
theorem theInvariantHoldsAtPowerOn : Obligations.TheInvariantHoldsAtPowerOn :=
  (inv_iff _).mpr ⟨ownInv_powerOn machine_wf, sharedInv_powerOn _, Nat.zero_le _⟩

end Sys2Proof.Machine
end

section
/-! Every step keeps the invariant (10_state.md R38): each command keeps the three parts of `inv_iff`, the
block's own fields, what nested operations touch, and the CPU's clock. -/

namespace Sys2Proof.Machine

/-! ## What nested operations touch -/

namespace SharedInv

variable {s : State} (h : SharedInv s)
include h

theorem answer (r : Result) : SharedInv (Machine.answer r s) := h.of_eq rfl rfl rfl

theorem raise (st : Status) : SharedInv (Machine.raise st s) := h.of_eq rfl rfl rfl

theorem loadRom : SharedInv (Machine.loadRom s).2 := by
  obtain ⟨_, u, hb, -, he, -⟩ := loadRom_eq s
  rw [he]
  exact (h.of_block hb).of_eq rfl rfl rfl

theorem resetAgents : SharedInv (Machine.resetAgents s) :=
  ((((h.callDevice _).callDevice _).callDevice _).callDevice _).cpuReset

theorem execInsbin {f : Word} {t : State} (he : Machine.execInsbin f s = .next t) : SharedInv t := by
  have hb : SharedInv (takeBinFile (Machine.record (.openBinary f) s)).2 :=
    (h.record _).of_block (block_takeBinFile _)
  rw [← Host.Outcome.next.inj he]
  split
  · exact hb.raise _
  · exact (((hb.writeBytes _ _).write16 _ _).write16 _ _).answer _
  · exact hb.raise _

theorem execIrqreg {level : Nat} {t : State} (he : Machine.execIrqreg level s = .next t) :
    SharedInv t := by
  obtain ⟨-, rfl⟩ | ⟨-, rfl⟩ := execIrqreg_cases he
  · exact h.raise _
  · exact ⟨h.vram_wf, h.vram_below, h.ipl_eq.trans (aggregateLevel_append_released _ _).symm⟩

theorem execPrun {n : Nat} {t : State} (he : Machine.execPrun n s = .next t) : SharedInv t := by
  obtain ⟨-, -, rfl⟩ := execPrun_eq he
  exact ((((h.runDevice _ _).runDevice _ _).audioStep _ _).frameStep _ _).answer _

theorem execReset {t : State} (he : Machine.execReset s = .next t) : SharedInv t := by
  have hc : SharedInv (clearScheduler s) := h.of_eq rfl rfl rfl
  rw [execReset_eq] at he
  rw [← Host.Outcome.next.inj he]
  exact hc.loadRom.resetAgents.raise _

theorem execTogrec {t : State} (he : Machine.execTogrec s = .next t) : SharedInv t := by
  rw [← Host.Outcome.next.inj he]
  split
  · exact h.of_eq rfl rfl rfl
  · exact (h.callDevice .clearRecordBuffer).of_eq rfl rfl rfl

end SharedInv

theorem loopFacts_of_inv {n : Nat} {s : State} {e : LoopEnd} (h : s.Inv)
    (hloop : runLoop (s.cpuBalance + n) s.frameBalance (execAnswers s) 0
      { s with cpuBalance := s.cpuBalance + n } = .ok e) :
    LoopFacts (s.cpuBalance + n) s.frameBalance { s with cpuBalance := s.cpuBalance + n } 0 e := by
  have hcpu := h.cpu_ge
  have hframe := h.frame_le
  exact runLoop_facts hloop (by omega) (by omega)

theorem SharedInv.finishRun {bal : Int} {e : LoopEnd} (h : SharedInv e.state) :
    SharedInv (finishRun bal e) :=
  ((h.settleRun.audioStep _ _).frameStep _ _).answer _

theorem sharedInv_execRun {n : Nat} {s t : State} (h : s.Inv) (hs : SharedInv s)
    (he : execRun n s = .next t) : SharedInv t := by
  obtain ⟨-, e, hloop, -, rfl⟩ := execRun_eq he
  exact ((loopFacts_of_inv h hloop).shared (hs.of_eq rfl rfl rfl)).finishRun

/-- Video memory stays canonical and the level up to date under every command. -/
theorem sharedInv_exec {i : Instr} {s t : State} (h : s.Inv) (he : exec i s = .next t) :
    SharedInv t := by
  obtain ⟨-, hs, -⟩ := (inv_iff s).mp h
  cases i <;> simp only [exec] at he
  case rd8 a => cases he; exact (hs.read8 a).answer _
  case rd16 a => cases he; exact (hs.read16 a).answer _
  case wr8 a v => cases he; exact (hs.write8 a v).answer _
  case wr16 a v => cases he; exact (hs.write16 a v).answer _
  case ldrom => cases he; exact hs.loadRom.raise _
  case insbin f => exact hs.execInsbin he
  case irqreg level => exact hs.execIrqreg he
  case irqasr n => cases he; exact (hs.driveLine n true).raise _
  case irqdea n => cases he; exact (hs.driveLine n false).raise _
  case irqrcp => cases he; exact (hs.recompute s.irqLines).answer _
  case irqget => cases he; exact hs.answer _
  case fdclk pct n => cases he; exact hs.of_eq rfl rfl rfl
  case run n => exact sharedInv_execRun h hs he
  case prun n => exact hs.execPrun he
  case reset => exact hs.execReset he
  case togmode => cases he; exact hs.of_eq rfl rfl rfl
  case togrec => exact hs.execTogrec he
  case health => cases he; exact hs.of_eq rfl rfl rfl
  case takeframe => cases he; exact hs.of_eq rfl rfl rfl
  case stats => cases he; exact hs.answer _

/-! ## The block's own fields -/

theorem remAfter_lt {s : State} (h : s.cfg.wf) (c pct : Nat) : remAfter s c pct < 100 * s.cfg.cpuHz :=
  Nat.mod_lt _ (Nat.mul_pos (by decide) (cpuHz_pos h))

theorem remDriven_lt {s : State} (h : s.cfg.wf) (hr : s.divRem < 100 * s.cfg.cpuHz) (c : Nat)
    (band : Band) : remDriven s c band < 100 * s.cfg.cpuHz := by
  unfold remDriven
  split
  · exact hr
  · exact remAfter_lt h _ _

/-- A frame boundary is taken only above the budget, so what it carries is not negative (R152). -/
theorem carried_range {budget : Nat} {x : Int} (h0 : 0 ≤ x) (hx : x ≤ balanceMax) :
    0 ≤ (if frameExceeded budget x then x - budget else x) ∧
      (if frameExceeded budget x then x - budget else x) ≤ balanceMax := by
  split
  · have hb : (budget : Int) < x := of_decide_eq_true ‹_›
    omega
  · exact ⟨h0, hx⟩

/-- The CPU's balance after a RUN: flushed at a breakpoint, else overdrawn by less than its range (R144). -/
theorem settled_range {bal frame : Int} {s : State} {consumed : Nat} {e : LoopEnd}
    (f : LoopFacts bal frame s consumed e) :
    balanceMin ≤ (if e.breakpoint then 0 else bal - e.consumed) ∧
      (if e.breakpoint then 0 else bal - e.consumed) ≤ balanceMax := by
  cases hb : e.breakpoint with
  | true => exact (by decide : balanceMin ≤ 0 ∧ 0 ≤ balanceMax)
  | false =>
    obtain ⟨hmin, hle⟩ := f.stopped hb
    have hmax : 0 ≤ balanceMax := by decide
    simp only [Bool.false_eq_true, if_false]
    omega

/-- LDROM's image, from the file or the default, has 65,536 bytes (R14, R96). -/
theorem loadRom_rom {s : State} (h : s.cfg.wf) :
    (loadRom s).2.rom.wf ∧ (loadRom s).2.rom.below romSize := by
  obtain ⟨image, _, -, -, he, -, himage⟩ := loadRom_eq s
  obtain ⟨-, -, -, -, -, -, -, -, -, -, -, hdefault, -⟩ := h
  have hlen : image.length = romSize := himage.elim (· ▸ hdefault) id
  rw [he]
  exact ⟨ofBytes_wf image, ofBytes_below hlen.le⟩

namespace OwnInv

variable {s t : State} (h : OwnInv s.own)
include h

theorem loadRom : OwnInv (Machine.loadRom s).2.own := by
  obtain ⟨image, ho⟩ := own_loadRom s
  obtain ⟨hwf, hbelow⟩ := loadRom_rom (s := s) h.cfg_wf
  have hrom : (Machine.loadRom s).2.rom = Memory.ofBytes image := congrArg State.rom ho
  rw [hrom] at hwf hbelow
  rw [ho]
  exact { h with rom_wf := hwf, rom_below := hbelow }

theorem clearScheduler : OwnInv (Machine.clearScheduler s).own :=
  { h with
    cpu_ge := (by decide : balanceMin ≤ 0)
    cpu_le := (by decide : 0 ≤ balanceMax)
    frame_ge := Int.le_refl 0
    frame_le := (by decide : 0 ≤ balanceMax)
    under_ge := BitVec.le_refl 0
    equal_ge := BitVec.le_refl 0
    over_ge := BitVec.le_refl 0 }

theorem raise (st : Status) : OwnInv (Machine.raise st s).own := h.ports st .none

theorem execLdrom (he : Machine.execLdrom s = .next t) : OwnInv t.own := by
  rw [execLdrom_eq] at he
  rw [← Host.Outcome.next.inj he]
  exact h.loadRom.raise _

theorem execReset (he : Machine.execReset s = .next t) : OwnInv t.own := by
  have hagents := h.clearScheduler.loadRom
  rw [← own_resetAgents] at hagents
  rw [execReset_eq] at he
  rw [← Host.Outcome.next.inj he]
  exact hagents.raise _

theorem execIrqreg {level : Nat} (hl : level < 8) (he : Machine.execIrqreg level s = .next t) :
    OwnInv t.own := by
  obtain ⟨-, rfl⟩ | ⟨hroom, rfl⟩ := execIrqreg_cases he
  · exact h.raise _
  · refine { h with count_le := ?_, level_lt := ?_ }
    · have hcount : s.irqCount ≤ irqCapacity := by
        simpa [State.own, State.irqCount] using h.count_le
      simpa [State.own, State.irqCount] using Nat.lt_of_le_of_ne hcount hroom
    · have hold := h.level_lt
      rw [levels_own] at hold ⊢
      intro l hmem
      obtain hmem | rfl : l ∈ s.levels ∨ l = level := by simpa [State.levels] using hmem
      · exact hold l hmem
      · exact hl

theorem execFdclk {pct n : Nat} (he : Machine.execFdclk pct n s = .next t) : OwnInv t.own := by
  rw [own_execFdclk he]
  exact { h with rem_lt := remAfter_lt (s := s) h.cfg_wf _ _ }

theorem execPrun {n : Nat} (he : Machine.execPrun n s = .next t) : OwnInv t.own := by
  obtain ⟨hle, band, -, room, ho⟩ := own_execPrun he
  obtain ⟨hunder, hequal, hover⟩ := le_counted room
  obtain ⟨hfmin, hfmax⟩ := carried_range (budget := s.cfg.frameBudget)
    (Int.add_nonneg h.frame_ge (Int.natCast_nonneg n)) hle
  rw [ho]
  exact { h with
    frame_ge := hfmin
    frame_le := hfmax
    under_ge := BitVec.le_trans h.under_ge hunder
    equal_ge := BitVec.le_trans h.equal_ge hequal
    over_ge := BitVec.le_trans h.over_ge hover }

theorem execRun {n : Nat} (hs : s.Inv) (he : Machine.execRun n s = .next t) : OwnInv t.own := by
  obtain ⟨e, band, -, room, hloop, -, ho⟩ := own_execRun he
  have f := loopFacts_of_inv hs hloop
  obtain ⟨hunder, hequal, hover⟩ := le_counted room
  obtain ⟨hcmin, hcmax⟩ := settled_range f
  obtain ⟨hfmin, hfmax⟩ := carried_range (budget := s.cfg.frameBudget)
    (Int.add_nonneg h.frame_ge (Int.natCast_nonneg e.consumed)) f.frame_le
  rw [ho]
  exact { h with
    cpu_ge := hcmin
    cpu_le := hcmax
    frame_ge := hfmin
    frame_le := hfmax
    under_ge := BitVec.le_trans h.under_ge hunder
    equal_ge := BitVec.le_trans h.equal_ge hequal
    over_ge := BitVec.le_trans h.over_ge hover
    rem_lt := remDriven_lt (s := s) h.cfg_wf h.rem_lt _ _ }

theorem execHealth (he : Machine.execHealth s = .next t) : OwnInv t.own := by
  rw [own_execHealth he]
  exact { h with
    under_ge := BitVec.le_refl _
    equal_ge := BitVec.le_refl _
    over_ge := BitVec.le_refl _ }

end OwnInv

/-- The block's own fields stay in their ranges under every command. -/
theorem ownInv_exec {i : Instr} {s t : State} (h : s.Inv) (hl : ∀ level, i = .irqreg level → level < 8)
    (he : exec i s = .next t) : OwnInv t.own := by
  obtain ⟨ho, -, -⟩ := (inv_iff s).mp h
  by_cases hi : leavesOwn i = true
  · rw [own_exec hi he]
    exact ho.ports _ _
  · cases i <;> simp only [leavesOwn, not_true_eq_false] at hi
    case ldrom => exact ho.execLdrom he
    case irqreg level => exact ho.execIrqreg (hl level rfl) he
    case fdclk pct n => exact ho.execFdclk he
    case run n => exact ho.execRun h he
    case prun n => exact ho.execPrun he
    case reset => exact ho.execReset he
    case togmode => rw [own_execTogmode he]; exact { ho with }
    case togrec => rw [own_execTogrec he]; exact { ho with }
    case health => exact ho.execHealth he
    case takeframe => rw [own_execTakeframe he]; exact { ho with }

/-! ## The CPU's clock, and the step -/

theorem clock_exec_le {i : Instr} {s t : State} (h : s.env.clock ≤ clockMax)
    (he : exec i s = .next t) : t.env.clock ≤ clockMax := by
  by_cases hr : ∃ n, i = .run n
  · obtain ⟨n, rfl⟩ := hr
    exact (clock_execRun he).2 h
  · by_cases hz : i = .reset
    · subst hz
      rw [clock_execReset he]
      exact Nat.zero_le _
    · rw [clock_exec he (fun n hn => hr ⟨n, hn⟩) hz]
      exact h

theorem inv_exec {i : Instr} {s t : State} (h : s.Inv) (hl : ∀ level, i = .irqreg level → level < 8)
    (he : exec i s = .next t) : t.Inv :=
  (inv_iff t).mpr ⟨ownInv_exec h hl he, sharedInv_exec h he, clock_exec_le h.clock_le he⟩

/-- A decoded level has three bits (30_encoding.md R72). -/
theorem level_lt_of_decode {c : Command} {level : Nat} (h : decode c = .ok (.irqreg level)) :
    level < 8 := by
  obtain ⟨-, h⟩ | ⟨-, h⟩ | ⟨-, h⟩ | ⟨-, h⟩ := decode_cases h
  · unfold decodeBus at h
    split at h <;> simp [decodePlain_eq, decodeWr8_eq, decodeWr16_eq] at h
  · unfold decodeIrq at h
    split at h
    · obtain ⟨hlt, hi⟩ := decodeLow_eq.mp h
      exact Instr.irqreg.inj hi ▸ hlt
    all_goals simp [decodePlain_eq, decodeLow_eq] at h
  · unfold decodeFdiv at h
    split at h <;> simp [decodeLow_eq] at h
  · unfold decodeSched at h
    split at h <;> simp [decodePlain_eq] at h

/-- Settles O60: taking the command off the port changes the ports alone, and each command keeps the
invariant. -/
theorem everyStepKeepsTheInvariant : Obligations.EveryStepKeepsTheInvariant := by
  intro s t h hstep
  obtain ⟨-, rfl⟩ | ⟨c, rest, s', -, hs', hcases⟩ := step_cases hstep
  · exact h
  · have htaken : s'.Inv := inv_of_block h (hs' ▸ rfl) (hs' ▸ h.clock_le)
    obtain ⟨i, hd, he⟩ | ⟨-, rfl⟩ := hcases
    · exact inv_exec htaken (fun _ hi => level_lt_of_decode (hi ▸ hd)) he
    · exact inv_of_block htaken rfl htaken.clock_le

end Sys2Proof.Machine
end

section
/-! Device select (20_memory.md R41 to R44) in arithmetic of the address. -/

namespace Sys2Proof.Machine

/-! ## The fields of an address (R41) -/

theorem regionField_toNat (a : Addr) : (regionField a).toNat = a.toNat / 65536 := by
  rw [regionField, BitVec.extractLsb'_toNat, Nat.shiftRight_eq_div_pow]
  exact Nat.mod_eq_of_lt (by omega)

theorem rangeField_toNat (a : Addr) : (rangeField a).toNat = a.toNat / 4096 := by
  rw [rangeField, BitVec.extractLsb'_toNat, Nat.shiftRight_eq_div_pow]
  exact Nat.mod_eq_of_lt (by omega)

theorem subpageField_toNat (a : Addr) : (subpageField a).toNat = a.toNat / 256 % 16 := by
  rw [subpageField, BitVec.extractLsb'_toNat, Nat.shiftRight_eq_div_pow]

theorem offsetField_toNat (a : Addr) : (offsetField a).toNat = a.toNat % 256 := by
  rw [offsetField, BitVec.extractLsb'_toNat, Nat.shiftRight_zero]

theorem low16Field_toNat (a : Addr) : (low16Field a).toNat = a.toNat % 65536 := by
  rw [low16Field, BitVec.extractLsb'_toNat, Nat.shiftRight_zero]

theorem low16Field_eq (a : Addr) : low16Field a = BitVec.ofNat 16 a.toNat :=
  BitVec.eq_of_toNat_eq (low16Field_toNat a)

theorem fontIndex_eq (c : Config) (a : Addr) :
    fontIndex c a = BitVec.ofNat 15 (a.toNat / 2) &&& c.fontIndexMask := by
  rw [fontIndex, BitVec.extractLsb', Nat.shiftRight_eq_div_pow]

theorem halfField_eq (a : Addr) : halfField a = (a.toNat % 2 == 1) := by
  rw [halfField, BitVec.getLsbD, Nat.testBit_zero]
  rfl

/-! ## The regions (R42) -/

theorem inVec_iff (a : Addr) : inVec a = true ↔ a.toNat < 8 := decide_eq_true_iff

theorem regionField_beq (a b : Addr) :
    (regionField a == regionField b) = true ↔ a.toNat / 65536 = b.toNat / 65536 := by
  rw [beq_iff_eq, ← BitVec.toNat_inj, regionField_toNat, regionField_toNat]

theorem inIo_iff (c : Config) (a : Addr) : inIo c a = true ↔ a.toNat / 4096 = c.ioBase.toNat / 4096 := by
  rw [inIo, beq_iff_eq, ← BitVec.toNat_inj, rangeField_toNat, rangeField_toNat]

theorem inCtx_iff (c : Config) (a : Addr) :
    inCtx c a = true ↔ a.toNat / 65536 = c.blitCtxBase.toNat / 65536 := regionField_beq _ _

theorem inRomMirror_iff (c : Config) (a : Addr) :
    inRomMirror c a = true ↔ a.toNat / 65536 = c.romMirrorBase.toNat / 65536 := regionField_beq _ _

theorem inFont0_iff (c : Config) (a : Addr) :
    inFont0 c a = true ↔ a.toNat / 65536 = c.font0Base.toNat / 65536 := regionField_beq _ _

theorem inFont1_iff (c : Config) (a : Addr) :
    inFont1 c a = true ↔ a.toNat / 65536 = c.font1Base.toNat / 65536 := regionField_beq _ _

/-! ## Device select (R43, R44) -/

theorem offsetField_setWidth (a : Addr) : (offsetField a).setWidth 10 = BitVec.ofNat 10 (a.toNat % 256) := by
  rw [← offsetField_toNat, BitVec.ofNat_toNat]

/-- The sound device's register offset: its sub-page, then `a[7:0]`. -/
theorem soundOffset_eq (k : Fin 3) (a : Addr) :
    BitVec.ofNat 2 k.val ++ offsetField a = BitVec.ofNat 10 (256 * k.val + a.toNat % 256) := by
  apply BitVec.eq_of_toNat_eq
  rw [BitVec.toNat_append, ← Nat.shiftLeft_add_eq_or_of_lt (offsetField a).isLt, Nat.shiftLeft_eq,
    offsetField_toNat, BitVec.toNat_ofNat, BitVec.toNat_ofNat]
  omega

theorem selectIo_eq (c : Config) (a : Addr) : selectIo c a =
    match c.subpageMap.getD (a.toNat / 256 % 16) .unmapped with
    | .blitIo => .io .blitter (BitVec.ofNat 10 (a.toNat % 256))
    | .timerIo => .io .timer (BitVec.ofNat 10 (a.toNat % 256))
    | .ciaIo => .io .cia (BitVec.ofNat 10 (a.toNat % 256))
    | .soundIo k => .io .sound (BitVec.ofNat 10 (256 * k.val + a.toNat % 256))
    | .unmapped => .vram a := by
  rw [selectIo, subpageOf, subpageField_toNat, offsetField_setWidth]
  cases c.subpageMap.getD (a.toNat / 256 % 16) .unmapped with
  | soundIo k => exact congrArg (Target.io .sound) (soundOffset_eq k a)
  | _ => rfl

/-- R43 with each region as a range of addresses. -/
theorem selectRead_eq (c : Config) (a : Addr) : selectRead c a =
    if a.toNat < 8 then .vec a.toNat
    else if a.toNat / 4096 = c.ioBase.toNat / 4096 then selectIo c a
    else if a.toNat / 65536 = c.blitCtxBase.toNat / 65536 then .ctx (BitVec.ofNat 16 a.toNat)
    else if a.toNat / 65536 = c.romMirrorBase.toNat / 65536 then .romMirror (a.toNat % 65536)
    else if a.toNat / 65536 = c.font0Base.toNat / 65536 then
      .font .font0 (BitVec.ofNat 15 (a.toNat / 2) &&& c.fontIndexMask) (a.toNat % 2 == 1)
    else if a.toNat / 65536 = c.font1Base.toNat / 65536 then
      .font .font1 (BitVec.ofNat 15 (a.toNat / 2) &&& c.fontIndexMask) (a.toNat % 2 == 1)
    else .vram a := by
  rw [selectRead, low16Field_toNat]
  simp only [inVec_iff, inIo_iff, inCtx_iff, inRomMirror_iff, inFont0_iff, inFont1_iff, low16Field_eq,
    fontIndex_eq, halfField_eq]

/-- R44 with each region as a range of addresses. -/
theorem selectWrite_eq (c : Config) (a : Addr) : selectWrite c a =
    if a.toNat < 8 then .drop
    else if a.toNat / 4096 = c.ioBase.toNat / 4096 then selectIo c a
    else if a.toNat / 65536 = c.blitCtxBase.toNat / 65536 then .ctx (BitVec.ofNat 16 a.toNat)
    else .vram a := by
  simp only [selectWrite, inVec_iff, inIo_iff, inCtx_iff, low16Field_eq]

theorem write8_of_vector {a : Addr} (h : a.toNat < 8) (v : Byte) (s : State) : write8 a v s = s := by
  rw [write8, selectWrite_eq, if_pos h]

/-- Settles O9: each region test and each field of the address is its arithmetic form. -/
theorem readDecodeFollowsItsPrecedence : Obligations.ReadDecodeFollowsItsPrecedence := by
  intro c a
  have h := selectRead_eq c a
  rw [selectIo_eq] at h
  exact h

/-- Settles O10, as for reads; the target of a write to a vector is none. -/
theorem writeDecodeFollowsItsPrecedence : Obligations.WriteDecodeFollowsItsPrecedence := by
  refine ⟨fun c a => ?_, fun s a v h => write8_of_vector h v s⟩
  have h := selectWrite_eq c a
  rw [selectIo_eq] at h
  exact h

end Sys2Proof.Machine
end

section
/-! Writes do not show in reads of the ROM image and the fonts (20_memory.md R59, R206): those reads depend
on the configuration and the image alone, and no bus command writes either. -/

namespace Sys2Proof.Machine

variable {s t : State}

theorem romByte_of_rom (h : t.rom = s.rom) (i : Nat) : romByte t i = romByte s i := by
  rw [romByte, romByte, h]

theorem memoryByte_of_rom {x : Addr} {i : Nat} (hcfg : t.cfg = s.cfg) (hrom : t.rom = s.rom)
    (hx : selectRead s.cfg x = .vec i ∨ selectRead s.cfg x = .romMirror i) :
    memoryByte t x = memoryByte s x := by
  unfold memoryByte
  rw [hcfg]
  obtain hx | hx := hx
  · rw [hx]
    exact romByte_of_rom hrom i
  · rw [hx]
    exact romByte_of_rom hrom i

theorem memoryByte_of_font {x : Addr} {f : FontTable} {i : BitVec 15} {low : Bool} (hcfg : t.cfg = s.cfg)
    (hx : selectRead s.cfg x = .font f i low) : memoryByte t x = memoryByte s x := by
  unfold memoryByte
  rw [hcfg, hx]

/-- Settles O18: WR8 leaves the configuration and the image as they are. -/
theorem writesDoNotShowInRomAndFontReads : Obligations.WritesDoNotShowInRomAndFontReads := by
  intro s t a x v h
  have hcfg : t.cfg = s.cfg := (exec_cfg_commands h).1
  have hrom : t.rom = s.rom := onlyLdromAndResetWriteTheRom _ _ _ h nofun nofun
  have hsel : selectRead t.cfg x = selectRead s.cfg x := by rw [hcfg]
  exact ⟨fun _ hx => ⟨hsel, memoryByte_of_rom hcfg hrom hx⟩,
    fun _ _ _ hx => ⟨hsel, memoryByte_of_font hcfg hx⟩⟩

end Sys2Proof.Machine
end

section
/-! The operations the CPU nests (00_scope.md R8, 20_memory.md R40): each is the command of its name at the
masked address, and in a RUN those of the first instruction come before everything else (43_scheduler.md
R154). -/

namespace Sys2Proof.Machine

/-! ## One nested operation -/

theorem maskAddress_congr {a b : Word} (h : a.toNat % 16777216 = b.toNat % 16777216) :
    maskAddress a = maskAddress b :=
  BitVec.eq_of_toNat_eq (by rw [maskAddress_toNat, maskAddress_toNat, h])

/-- An operation on the bus is recorded with the answer its command ends with; the ports stay. -/
theorem record_reply_of_own {s u : State} (h : u.own = s.own) (r : Result) :
    record (.reply .ok r) u = { answer r u with
      status := s.status, result := s.result
      trace := (answer r u).trace ++ [.reply .ok (answer r u).result] } := by
  rw [← status_of_own h, ← result_of_own h]
  rfl

/-- A nested operation is its command, with the answer recorded in place of the ports. -/
theorem cpuOp_of_exec (s : State) (op : CpuOp) : ∃ t, exec (commandOf op) s = .next t ∧ cpuOp s op =
    { t with status := s.status, result := s.result, trace := t.trace ++ [.reply .ok t.result] } := by
  cases op with
  | rd8 a => exact ⟨_, rfl, record_reply_of_own (own_read8 _ s) _⟩
  | rd16 a => exact ⟨_, rfl, record_reply_of_own (own_read16 _ s) _⟩
  | wr8 a v => exact ⟨_, rfl, record_reply_of_own (own_write8 _ v s) _⟩
  | wr16 a v => exact ⟨_, rfl, record_reply_of_own (own_write16 _ v s) _⟩
  | irqGet => exact ⟨_, rfl, rfl⟩

/-! ## The CPU balance is nothing to a nested operation

RUN raises the balance before its loop (R144 step 1), so its first instruction meets the state with
the balance raised. -/

/-- The state with the CPU balance at `b`. -/
def withBalance (b : Int) (s : State) : State := { s with cpuBalance := b }

section
variable (b : Int) (s : State)

theorem recompute_withBalance : recompute (withBalance b s) = withBalance b (recompute s) := by
  cases h : s.cfg.cpuAttached <;> simp [recompute, withBalance, record, h]

theorem driveLine_withBalance (h : Nat) (p : Bool) : driveLine h p (withBalance b s) =
    ((driveLine h p s).1, withBalance b (driveLine h p s).2) := by
  by_cases hh : h < s.irqCount
  · have h1 : driveLine h p s = (.ok, recompute { s with irqLines := setLine s.irqLines h p }) := if_pos hh
    have h2 : driveLine h p (withBalance b s) =
      (.ok, recompute (withBalance b { s with irqLines := setLine s.irqLines h p })) := if_pos hh
    rw [h1, h2, recompute_withBalance]
  · have h1 : driveLine h p s = (.eBadHandle h, s) := if_neg hh
    have h2 : driveLine h p (withBalance b s) = (.eBadHandle h, withBalance b s) := if_neg hh
    rw [h1, h2]

theorem devOp_withBalance (op : DevOp) : devOp (withBalance b s) op = withBalance b (devOp s op) := by
  cases op with
  | irqAssert h =>
    simp only [devOp, driveLine_withBalance]
    rfl
  | irqDeassert h =>
    simp only [devOp, driveLine_withBalance]
    rfl
  | vramRead a => rfl
  | vramWrite a v => rfl

/-- A function that commutes with setting the balance does so along a list. -/
theorem foldl_withBalance {α : Type} {f : State → α → State}
    (hf : ∀ s a, f (withBalance b s) a = withBalance b (f s a)) (l : List α) :
    l.foldl f (withBalance b s) = withBalance b (l.foldl f s) := by
  induction l generalizing s with
  | nil => rfl
  | cons a rest ih => rw [List.foldl_cons, hf, ih, List.foldl_cons]

theorem takeDevReply_withBalance : takeDevReply (withBalance b s) =
    ((takeDevReply s).1, withBalance b (takeDevReply s).2) := by
  cases h : s.env.devs <;> simp [takeDevReply, withBalance, countDraw, h]

theorem callDevice_withBalance (call : DevCall) : callDevice call (withBalance b s) =
    ((callDevice call s).1, withBalance b (callDevice call s).2) := by
  have h : record (.device call) (withBalance b s) = withBalance b (record (.device call) s) := rfl
  simp only [callDevice, h, takeDevReply_withBalance, devOps, foldl_withBalance _ _ (devOp_withBalance b)]

theorem read8_withBalance (a : Addr) :
    read8 a (withBalance b s) = ((read8 a s).1, withBalance b (read8 a s).2) := by
  have h : (withBalance b s).cfg = s.cfg := rfl
  simp only [read8, h, callDevice_withBalance]
  cases selectRead s.cfg a <;> rfl

theorem write8_withBalance (a : Addr) (v : Byte) :
    write8 a v (withBalance b s) = withBalance b (write8 a v s) := by
  have h : (withBalance b s).cfg = s.cfg := rfl
  simp only [write8, h, callDevice_withBalance]
  cases selectWrite s.cfg a <;> rfl

theorem cpuOp_withBalance (op : CpuOp) : cpuOp (withBalance b s) op = withBalance b (cpuOp s op) := by
  cases op with
  | rd8 a =>
    simp only [cpuOp, read8_withBalance]
    rfl
  | rd16 a =>
    simp only [cpuOp, read16, read8_withBalance]
    rfl
  | wr8 a v =>
    simp only [cpuOp, write8_withBalance]
    rfl
  | wr16 a v =>
    simp only [cpuOp, write16, write8_withBalance]
    rfl
  | irqGet => rfl

theorem cpuExecute_withBalance (ops : List CpuOp) :
    cpuExecute ops (withBalance b s) = withBalance b (cpuExecute ops s) :=
  foldl_withBalance b (record .cpuExecute s) (cpuOp_withBalance b) ops

end

/-! ## What a stretch of device calls leaves -/

/-- The part of the block that nested operations can change (00_scope.md R8). -/
def State.shared (s : State) : Memory × List IrqLine × Nat := (s.vram, s.irqLines, s.ipl)

/-- `t` comes after `s` with at most `k` device calls between, and no answer of the blitter's queue taken: the
record grew at its end, and where the next `k` device answers nest no operation the shared part stayed. -/
structure Calls (k : Nat) (s t : State) : Prop where
  trace : s.trace <+: t.trace
  blits : t.env.blits = s.env.blits
  quiet : ∀ n, quietReplies (n + k) s = true → t.shared = s.shared ∧ quietReplies n t = true

theorem shared_of_block {s t : State} (h : t.block = s.block) : t.shared = s.shared := by
  rw [State.shared, vram_of_block h, irqLines_of_block h, ipl_of_block h, State.shared]

theorem quietReplies_of_devs {s t : State} (h : t.env.devs = s.env.devs) (n : Nat) :
    quietReplies n t = quietReplies n s := by
  rw [quietReplies, quietReplies, h]

namespace Calls

variable {k m : Nat} {s t u : State}

theorem trans (h1 : Calls k s t) (h2 : Calls m t u) : Calls (k + m) s u where
  trace := h1.trace.trans h2.trace
  blits := h2.blits.trans h1.blits
  quiet n hq := by
    obtain ⟨e1, q1⟩ := h1.quiet (n + m) (by rwa [Nat.add_assoc, Nat.add_comm m k])
    obtain ⟨e2, q2⟩ := h2.quiet n q1
    exact ⟨e2.trans e1, q2⟩

theorem mono (h : Calls k s t) (hkm : k ≤ m) : Calls m s t where
  trace := h.trace
  blits := h.blits
  quiet n hq := h.quiet n (quietReplies_mono hq (Nat.add_le_add_left hkm n))

/-- A step that calls no device. -/
theorem idle (ht : s.trace <+: t.trace) (hs : t.shared = s.shared) (hd : t.env.devs = s.env.devs)
    (hb : t.env.blits = s.env.blits) : Calls 0 s t where
  trace := ht
  blits := hb
  quiet n hq := ⟨hs, (quietReplies_of_devs hd n).trans hq⟩

theorem record (e : Event) (s : State) : Calls 0 s (record e s) :=
  idle (List.prefix_append _ _) rfl rfl rfl

theorem callDevice (call : DevCall) (s : State) : Calls 1 s (callDevice call s).2 where
  trace := by
    obtain ⟨l, hl, -⟩ := trace_callDevice call s
    exact ⟨_, hl.symm⟩
  blits := (congrArg Env.blits (rest_callDevice call s) :)
  quiet n hq := by
    obtain ⟨hb, hq⟩ := quietReplies_callDevice (call := call) hq
    exact ⟨shared_of_block hb, hq⟩

/-- The calls of a loop body after the instruction: CIA and timer. -/
theorem loopBody (ops : List CpuOp) (d : Nat) (s : State) :
    Calls 2 (cpuExecute ops s) (loopBody ops d s) :=
  have clock : Calls 0 (cpuExecute ops s) (withClock (s.env.clock + d) (cpuExecute ops s)) :=
    idle (List.prefix_refl _) rfl rfl rfl
  (clock.trans (callDevice _ _)).trans (callDevice _ _)

/-! ### The audio step (43_scheduler.md R142) -/

theorem settleRun (bal : Int) (e : LoopEnd) : Calls 0 e.state (settleRun bal e) := by
  unfold Machine.settleRun
  split
  · have flushed : Calls 0 e.state { e.state with cpuBalance := 0, mode := .paused } :=
      idle (List.prefix_refl _) rfl rfl rfl
    exact flushed.trans (record _ _)
  · exact idle (List.prefix_refl _) rfl rfl rfl

theorem sampleOccupancy (s : State) : Calls 0 s (sampleOccupancy s).2 := by
  obtain ⟨l, hl, -⟩ := extends_sampleOccupancy s
  have hr := rest_takeOccupancy (Machine.record .audioQueueBytes s)
  exact idle ⟨l, hl.symm⟩ (shared_of_block (block_takeOccupancy _))
    (congrArg Env.devs hr :) (congrArg Env.blits hr :)

theorem countBand (band : Band) (s : State) : Calls 0 s (countBand band s) := by
  cases band <;> exact idle (List.prefix_refl _) rfl rfl rfl

theorem soundRun (c pct : Nat) (s : State) : Calls 1 s (soundRun c pct s) :=
  have rem : Calls 0 s (clock c pct s).2 := idle (List.prefix_refl _) rfl rfl rfl
  rem.trans (callDevice _ _)

theorem drainRecord (s : State) : Calls 1 s (drainRecord s) := (callDevice _ s).trans (record _ _)

theorem driveSound (c : Nat) (band : Band) (s : State) : Calls 2 s (driveSound c band s) := by
  unfold Machine.driveSound
  cases soundPercent s.recording band with
  | none => exact (idle (List.prefix_refl _) rfl rfl rfl).mono (by decide)
  | some pct =>
    dsimp only
    split
    · exact (soundRun c pct s).trans (drainRecord _)
    · exact (soundRun c pct s).mono (by decide)

theorem startTest (s : State) : Calls 0 s (startTest s) := by
  unfold Machine.startTest
  dsimp only
  split
  · exact (sampleOccupancy s).trans (record _ _)
  · exact sampleOccupancy s

theorem audioStep (c : Nat) (s : State) : Calls 2 s (audioStep c true s) :=
  (((sampleOccupancy s).trans (countBand _ _)).trans (driveSound c _ _)).trans (startTest _)

theorem retimeRun (bal : Int) (e : LoopEnd) : Calls 2 e.state (retimeRun bal e) :=
  (settleRun bal e).trans (audioStep _ _)

/-! ### The frame step (43_scheduler.md R143) -/

theorem withFrameBalance (x : Int) (s : State) : Calls 0 s { s with frameBalance := x } :=
  idle (List.prefix_refl _) rfl rfl rfl

theorem withFrameDone (s : State) : Calls 0 s { s with frameDone := true } :=
  idle (List.prefix_refl _) rfl rfl rfl

/-- A frame boundary of a RUN calls the blitter once, then drains its queue. -/
theorem frameBoundary (s : State) :
    ∃ t, Calls 1 s t ∧ frameBoundary true s = drainBlitter (blitAnswers s) t :=
  ⟨_, ((withFrameDone s).trans (callDevice .notifyScreenRefresh _)).trans (withFrameBalance _ _), rfl⟩

theorem frameStep (c : Nat) (s : State) : ∃ t, Calls 1 s t ∧
    (frameStep c true s = t ∨ frameStep c true s = drainBlitter (blitAnswers s) t) := by
  have accrued := withFrameBalance (s.frameBalance + c) s
  obtain ⟨t, ht, hdrain⟩ := frameBoundary { s with frameBalance := s.frameBalance + c }
  unfold Machine.frameStep
  dsimp only
  split
  · exact ⟨t, accrued.trans ht, .inr hdrain⟩
  · exact ⟨_, accrued.mono (Nat.zero_le 1), .inl rfl⟩

end Calls

theorem trace_drainBlitter (l : List BlitReply) (s : State) : s.trace <+: (drainBlitter l s).trace := by
  induction l generalizing s with
  | nil => exact List.prefix_refl _
  | cons r rest ih =>
    cases r with
    | endless => exact List.prefix_refl _
    | ran ops more =>
      have h : s.trace <+: (devOps .runNextOperation ops
          (takeBlit (record (.device .runNextOperation) s))).trace := by
        obtain ⟨l, hl, -⟩ := extends_devOps .runNextOperation ops
          (takeBlit (record (.device .runNextOperation) s))
        rw [hl, trace_takeBlit, record_trace, List.append_assoc]
        exact List.prefix_append _ _
      simp only [drainBlitter]
      split
      · exact h.trans (ih _)
      · exact h

/-- A drain that finds the queue empty, with no operation nested. -/
theorem shared_drainBlitter_empty (l : List BlitReply) (s : State) :
    (drainBlitter (.ran [] false :: l) s).shared = s.shared :=
  shared_of_block (block_takeBlit (record (.device .runNextOperation) s))

/-! ## RUN after its loop -/

theorem trace_finishRun (bal : Int) (e : LoopEnd) : e.state.trace <+: (finishRun bal e).trace := by
  obtain ⟨t, ht, h⟩ := Calls.frameStep e.consumed (retimeRun bal e)
  have hpre := ((Calls.retimeRun bal e).trans ht).trace
  unfold finishRun
  rw [answer_trace]
  obtain h | h := h
  · rwa [h]
  · rw [h]
    exact hpre.trans (trace_drainBlitter _ t)

theorem shared_finishRun {bal : Int} {e : LoopEnd} {replies : List BlitReply}
    (hq : quietReplies 3 e.state = true) (hb : e.state.env.blits = .ran [] false :: replies) :
    (finishRun bal e).shared = e.state.shared := by
  have hr := Calls.retimeRun bal e
  obtain ⟨t, ht, h⟩ := Calls.frameStep e.consumed (retimeRun bal e)
  obtain ⟨hs, -⟩ := (hr.trans ht).quiet 0 hq
  refine Eq.trans ?_ hs
  show (frameStep e.consumed true (retimeRun bal e)).shared = t.shared
  obtain h | h := h
  · rw [h]
  · rw [h, blitAnswers, hr.blits, hb]
    exact shared_drainBlitter_empty _ t

/-! ## The first instruction of a RUN -/

theorem trace_takenBody (ops : List CpuOp) (d : Nat) (s : State) :
    s.trace <+: (loopBody ops d (takeExec s)).trace := by
  obtain ⟨l, hl, -⟩ := extends_cpuExecute ops (takeExec s)
  rw [trace_takeExec] at hl
  exact List.IsPrefix.trans ⟨l, hl.symm⟩ (Calls.loopBody ops d _).trace

theorem trace_runLoop {bal frame : Int} {l : List ExecReply} {consumed : Nat} {s : State} {e : LoopEnd}
    (h : runLoop bal frame l consumed s = .ok e) : s.trace <+: e.state.trace := by
  have stalled : ∀ {consumed : Nat} {s : State}, stalledLoop bal consumed s = .ok e →
      s.trace <+: e.state.trace := by
    intro consumed s h
    obtain ⟨-, rfl⟩ := stalledLoop_ok h
    exact trace_takenBody _ _ _
  induction l generalizing consumed s with
  | nil => exact stalled h
  | cons r rest ih =>
    cases r with
    | stalled => exact stalled h
    | ran ops delta bp =>
      obtain ⟨-, -, ⟨-, rfl⟩ | ⟨-, -, ⟨-, rfl⟩ | ⟨-, hr⟩⟩⟩ := runLoop_ran h
      · exact trace_takenBody _ _ _
      · exact trace_takenBody _ _ _
      · exact (trace_takenBody _ _ _).trans (ih hr)

/-- The loop of RUN starts with the first instruction, and ends with it at a breakpoint or with the balance
reached. -/
theorem runLoop_first {bal frame : Int} {ops : List CpuOp} {delta : Quad} {bp : Bool}
    {rest : List ExecReply} {s : State} {e : LoopEnd}
    (h : runLoop bal frame (.ran ops delta bp :: rest) 0 s = .ok e) :
    (loopBody ops delta.toNat (takeExec s)).trace <+: e.state.trace ∧
    (bp = true ∨ bal ≤ delta.toNat → e.state = loopBody ops delta.toNat (takeExec s)) := by
  obtain ⟨-, -, ⟨-, rfl⟩ | ⟨hbp, -, ⟨-, rfl⟩ | ⟨hgt, hr⟩⟩⟩ := runLoop_ran h
  · exact ⟨List.prefix_refl _, fun _ => rfl⟩
  · exact ⟨List.prefix_refl _, fun _ => rfl⟩
  · refine ⟨trace_runLoop hr, fun hend => ?_⟩
    obtain hend | hend := hend
    · cases hbp.symm.trans hend
    · rw [Nat.zero_add] at hgt
      exact absurd hend hgt

/-- A RUN performs the operations of its first instruction before everything else; where that instruction ends
the loop and no device nests an operation, the rest of the RUN leaves the shared part alone. -/
theorem execRun_first {s t : State} {n : Nat} {ops : List CpuOp} {d : Quad} {bp : Bool}
    {rest : List ExecReply} (hx : s.env.execs = .ran ops d bp :: rest) (h : execRun n s = .next t) :
    (cpuExecute ops (withExecs rest s)).trace <+: t.trace ∧
    (bp = true ∨ s.cpuBalance + n ≤ d.toNat →
      quietReplies 5 (cpuExecute ops (withExecs rest s)) = true →
      ∀ replies, s.env.blits = .ran [] false :: replies →
      t.shared = (cpuExecute ops (withExecs rest s)).shared) := by
  obtain ⟨-, e, he, -, rfl⟩ := execRun_eq h
  have hcpu : cpuExecute ops (takeExec { s with cpuBalance := s.cpuBalance + n }) =
      withBalance (s.cpuBalance + n) (cpuExecute ops (withExecs rest s)) := by
    rw [← cpuExecute_withBalance]
    simp only [takeExec, hx]
    rfl
  have hbody := Calls.loopBody ops d.toNat (takeExec { s with cpuBalance := s.cpuBalance + n })
  rw [execAnswers, hx, List.cons_append] at he
  obtain ⟨hpre, hend⟩ := runLoop_first he
  rw [hcpu] at hbody
  refine ⟨(hbody.trace.trans hpre).trans (trace_finishRun _ e), fun hfirst hq replies hb => ?_⟩
  obtain ⟨hs, hq⟩ := hbody.quiet 3 hq
  rw [← hend hfirst] at hs hq hbody
  have hblits : (cpuExecute ops (withExecs rest s)).env.blits = s.env.blits :=
    (congrArg Env.blits (rest_cpuExecute ops (withExecs rest s)) :)
  exact (shared_finishRun hq (hbody.blits.trans (hblits.trans hb))).trans hs

/-- Settles O11: the bus sees the masked address alone, each nested operation is its command, and a RUN starts
with those of its first instruction. -/
theorem cpuAddressesAreMaskedTo24Bits : Obligations.CpuAddressesAreMaskedTo24Bits := by
  refine ⟨maskAddress_toNat, fun s a b hab => ?_, cpuOp_of_exec, fun s t n ops d bp rest hx h => ?_⟩
  · simp [cpuOp, maskAddress_congr hab]
  · obtain ⟨⟨more, hmore⟩, hshared⟩ := execRun_first hx h
    refine ⟨⟨more, hmore.symm⟩, fun hfirst hq replies hb => ?_⟩
    have hs := hshared hfirst hq replies hb
    exact ⟨congrArg (·.1) hs, congrArg (·.2.1) hs, congrArg (·.2.2) hs⟩

end Sys2Proof.Machine
end

section
/-! The opcode map and the decoder (30_encoding.md R71 to R74, R79): which words a command is read from, and
which rows of the map a word matches. -/

namespace Sys2Proof

/-! ## The words a decoded command is read from -/

/-- `c` carries the well-formed command `i`: its words are those `encode` writes, but for a data operand that
`i` does not read (log 15). -/
structure Instr.CarriedBy (i : Instr) (c : Command) : Prop where
  wf : i.wf = true
  words : encode i = ⟨c.cw, if i.readsData then c.d else 0⟩

theorem setWidth_extractLsb'_zero {w : Nat} (hw : w ≤ 32) {d : Word} (h : d.toNat < 2 ^ w) :
    (d.extractLsb' 0 w).setWidth 32 = d := by
  apply BitVec.eq_of_toNat_eq
  rw [BitVec.toNat_setWidth_of_le hw, BitVec.extractLsb'_toNat, Nat.shiftRight_zero, Nat.mod_eq_of_lt h]

theorem toNat_lt_of_setWidth {w : Nat} (hw : w ≤ 32) (v : BitVec w) {d : Word} (h : v.setWidth 32 = d) :
    d.toNat < 2 ^ w := by
  rw [← h, BitVec.toNat_setWidth_of_le hw]
  exact v.isLt

theorem ofNat_toNat_self {w : Nat} (x : BitVec w) : BitVec.ofNat w x.toNat = x :=
  (BitVec.ofNat_toNat w x).trans (BitVec.setWidth_eq x)

section
variable {c : Command} {i : Instr}

/-! What each operand form of the decoder accepts, at OP `n` of unit `u`, is carried by the words read. -/

section
variable {u : BitVec 4} {n : Nat}

theorem carriedBy_of_fields {a : BitVec 24} {d : Word} (hu : c.unitField = u) (hn : c.opField.toNat = n)
    (ha : c.aField = a) (hd : d = if i.readsData then c.d else 0) (hwf : i.wf = true)
    (hw : encode i = ⟨commandWord u (BitVec.ofNat 4 n) a, d⟩) : i.CarriedBy c :=
  ⟨hwf, by rw [hw, commandWord_of_fields hu hn ha, hd]⟩

theorem carriedBy_of_plain {j : Instr} {d : Word} (hu : c.unitField = u) (hn : c.opField.toNat = n)
    (h : decodePlain c.aField j = .ok i) (hd : d = if j.readsData then c.d else 0) (hwf : j.wf = true)
    (hw : encode j = ⟨commandWord u (BitVec.ofNat 4 n) 0, d⟩) : i.CarriedBy c := by
  obtain ⟨ha, rfl⟩ := decodePlain_eq.mp h
  exact carriedBy_of_fields hu hn ha hd hwf hw

theorem carriedBy_of_low {k : Nat} {make : Nat → Instr} {d : Word} (hu : c.unitField = u)
    (hn : c.opField.toNat = n) (h : decodeLow k c.aField make = .ok i)
    (hd : d = if (make c.aField.toNat).readsData then c.d else 0)
    (hwf : c.aField.toNat < 2 ^ k → (make c.aField.toNat).wf = true)
    (hw : encode (make c.aField.toNat) =
      ⟨commandWord u (BitVec.ofNat 4 n) (BitVec.ofNat 24 c.aField.toNat), d⟩) : i.CarriedBy c := by
  obtain ⟨hlt, rfl⟩ := decodeLow_eq.mp h
  exact carriedBy_of_fields hu hn (ofNat_toNat_self _).symm hd (hwf hlt) hw

end

theorem carriedBy_of_decodeBus (hu : c.unitField = 1#4)
    (h : decodeBus c.opField.toNat c.aField c.d = .ok i) : i.CarriedBy c := by
  unfold decodeBus at h
  split at h
  next e => cases h; exact carriedBy_of_fields hu e rfl rfl rfl rfl
  next e => cases h; exact carriedBy_of_fields hu e rfl rfl rfl rfl
  next e =>
    obtain ⟨hd, rfl⟩ := decodeWr8_eq.mp h
    exact carriedBy_of_fields hu e rfl (setWidth_extractLsb'_zero (by decide) hd) rfl rfl
  next e =>
    obtain ⟨hd, rfl⟩ := decodeWr16_eq.mp h
    exact carriedBy_of_fields hu e rfl (setWidth_extractLsb'_zero (by decide) hd) rfl rfl
  next e => exact carriedBy_of_plain hu e h rfl rfl rfl
  next e => exact carriedBy_of_plain hu e h rfl rfl rfl
  next => cases h

theorem carriedBy_of_decodeIrq (hu : c.unitField = 2#4)
    (h : decodeIrq c.opField.toNat c.aField = .ok i) : i.CarriedBy c := by
  unfold decodeIrq at h
  split at h
  next e => exact carriedBy_of_low hu e h rfl decide_eq_true rfl
  next e => exact carriedBy_of_low hu e h rfl decide_eq_true rfl
  next e => exact carriedBy_of_low hu e h rfl decide_eq_true rfl
  next e => exact carriedBy_of_plain hu e h rfl rfl rfl
  next e => exact carriedBy_of_plain hu e h rfl rfl rfl
  next => cases h

theorem carriedBy_of_decodeFdiv (hu : c.unitField = 3#4)
    (h : decodeFdiv c.opField.toNat c.aField c.d = .ok i) : i.CarriedBy c := by
  unfold decodeFdiv at h
  split at h
  next e =>
    have hwf (hlt : c.aField.toNat < 2 ^ 8) : Instr.wf (.fdclk c.aField.toNat c.d.toNat) = true :=
      (Bool.and_eq_true _ _).mpr ⟨decide_eq_true hlt, decide_eq_true c.d.isLt⟩
    exact carriedBy_of_low hu e h (ofNat_toNat_self _) hwf rfl
  next => cases h

theorem carriedBy_of_decodeSched (hu : c.unitField = 4#4)
    (h : decodeSched c.opField.toNat c.aField c.d = .ok i) : i.CarriedBy c := by
  unfold decodeSched at h
  split at h
  next e => exact carriedBy_of_plain hu e h (ofNat_toNat_self _) (decide_eq_true c.d.isLt) rfl
  next e => exact carriedBy_of_plain hu e h (ofNat_toNat_self _) (decide_eq_true c.d.isLt) rfl
  next e => exact carriedBy_of_plain hu e h rfl rfl rfl
  next e => exact carriedBy_of_plain hu e h rfl rfl rfl
  next e => exact carriedBy_of_plain hu e h rfl rfl rfl
  next e => exact carriedBy_of_plain hu e h rfl rfl rfl
  next e => exact carriedBy_of_plain hu e h rfl rfl rfl
  next e => exact carriedBy_of_plain hu e h rfl rfl rfl
  next => cases h

/-- What decodes to a command carries it. -/
theorem carriedBy_of_decode (h : decode c = .ok i) : i.CarriedBy c := by
  obtain ⟨hu, hi⟩ | ⟨hu, hi⟩ | ⟨hu, hi⟩ | ⟨hu, hi⟩ := decode_cases h
  · exact carriedBy_of_decodeBus hu hi
  · exact carriedBy_of_decodeIrq hu hi
  · exact carriedBy_of_decodeFdiv hu hi
  · exact carriedBy_of_decodeSched hu hi

theorem Instr.CarriedBy.cw (h : i.CarriedBy c) : (encode i).cw = c.cw := by rw [h.words]

theorem Instr.CarriedBy.d (h : i.CarriedBy c) : (encode i).d = if i.readsData then c.d else 0 := by
  rw [h.words]

/-- The data operand of a WR8 is a byte, that of a WR16 a word of 16 bits. -/
theorem Instr.CarriedBy.d_lt (h : i.CarriedBy c) :
    (i.row.mnemonic = "WR8" → c.d.toNat < 256) ∧ (i.row.mnemonic = "WR16" → c.d.toNat < 65536) := by
  cases i
  case wr8 a v => exact ⟨fun _ => toNat_lt_of_setWidth (by decide) v (d := c.d) h.d, by simp [Instr.row]⟩
  case wr16 a v => exact ⟨by simp [Instr.row], fun _ => toNat_lt_of_setWidth (by decide) v (d := c.d) h.d⟩
  all_goals simp [Instr.row]

end

/-! ## The rows of the opcode map -/

/-- The encoded word of every well-formed command lies in the command's row. -/
theorem encode_in_row (i : Instr) : Laws.EncodesInRow.Statement i := by
  cases i with
  | rd8 a => exact Laws.EncodesInRow.rd8 a
  | rd16 a => exact Laws.EncodesInRow.rd16 a
  | wr8 a v => exact Laws.EncodesInRow.wr8 a v
  | wr16 a v => exact Laws.EncodesInRow.wr16 a v
  | ldrom => exact Laws.EncodesInRow.ldrom
  | insbin f => exact Laws.EncodesInRow.insbin f
  | irqreg l => exact Laws.EncodesInRow.irqreg l
  | irqasr n => exact Laws.EncodesInRow.irqasr n
  | irqdea n => exact Laws.EncodesInRow.irqdea n
  | irqrcp => exact Laws.EncodesInRow.irqrcp
  | irqget => exact Laws.EncodesInRow.irqget
  | fdclk p n => exact Laws.EncodesInRow.fdclk p n
  | run n => exact Laws.EncodesInRow.run n
  | prun n => exact Laws.EncodesInRow.prun n
  | reset => exact Laws.EncodesInRow.reset
  | togmode => exact Laws.EncodesInRow.togmode
  | togrec => exact Laws.EncodesInRow.togrec
  | health => exact Laws.EncodesInRow.health
  | takeframe => exact Laws.EncodesInRow.takeframe
  | stats => exact Laws.EncodesInRow.stats

theorem exists_row_of_mem {r : OpcodeRow} (h : r ∈ opcodeTable) : ∃ i : Instr, i.row = r := by
  have htable : opcodeTable = List.map Instr.row
      [.rd8 0, .rd16 0, .wr8 0 0, .wr16 0 0, .ldrom, .insbin 0, .irqreg 0, .irqasr 0, .irqdea 0, .irqrcp,
        .irqget, .fdclk 0 0, .run 0, .prun 0, .reset, .togmode, .togrec, .health, .takeframe, .stats] := rfl
  obtain ⟨i, -, hi⟩ := List.mem_map.mp (htable ▸ h)
  exact ⟨i, hi⟩

theorem opcodeTable_patterns_nodup : (opcodeTable.map OpcodeRow.pattern).Nodup := by decide

/-- Every row fixes the UNIT and OP fields, and its pattern has no other bit. -/
theorem opcodeTable_fixes_unit_op : ∀ r ∈ opcodeTable,
    r.mask &&& 0xFF000000#32 = 0xFF000000#32 ∧ r.pattern &&& 0xFF000000#32 = r.pattern := by decide

/-- UNIT and OP of a word are the pattern of the row it matches. -/
theorem pattern_of_match {r : OpcodeRow} (hr : r ∈ opcodeTable) {w : Word} (h : w &&& r.mask = r.pattern) :
    r.pattern = w &&& 0xFF000000#32 := by
  obtain ⟨hmask, hpat⟩ := opcodeTable_fixes_unit_op r hr
  rw [← hpat, ← h, BitVec.and_assoc, hmask]

/-- At most one row matches a word: two would have the same pattern. -/
theorem row_unique {r r' : OpcodeRow} (hr : r ∈ opcodeTable) (hr' : r' ∈ opcodeTable) {w : Word}
    (h : w &&& r.mask = r.pattern) (h' : w &&& r'.mask = r'.pattern) : r = r' :=
  List.inj_on_of_nodup_map opcodeTable_patterns_nodup hr hr'
    ((pattern_of_match hr h).trans (pattern_of_match hr' h').symm)

/-! ## A word that matches a row decodes -/

/-- The mask of a row whose operand is the low `k` bits of A. -/
def operandMask (k : Nat) : Word := commandWord 15 15 (BitVec.allOnes 24 <<< k)

theorem toNat_lt_of_and_shiftLeft {a : BitVec 24} {k : Nat} (h : a &&& BitVec.allOnes 24 <<< k = 0#24) :
    a.toNat < 2 ^ k := by
  refine Nat.lt_pow_two_of_testBit _ fun j hj => ?_
  change a.getLsbD j = false
  by_cases hj' : j < 24
  · have hbit := congrArg (·.getLsbD j) h
    have hlow : j - k < 24 := by omega
    simpa only [BitVec.getLsbD_and, BitVec.getLsbD_shiftLeft, BitVec.getLsbD_allOnes, BitVec.getLsbD_zero,
      hj', hj, hlow, not_lt_of_ge, decide_true, decide_false, Bool.not_false, Bool.and_true] using hbit
  · exact BitVec.getLsbD_of_ge a j (by omega)

theorem commandWord_and (u o u' o' : BitVec 4) (a a' : BitVec 24) :
    commandWord u o a &&& commandWord u' o' a' = commandWord (u &&& u') (o &&& o') (a &&& a') := by
  unfold commandWord
  exact BitVec.and_append.trans (congrArg (· ++ (a &&& a')) BitVec.and_append)

theorem eq_word_of_match {c : Command} {u o : BitVec 4} {k : Nat}
    (h : c.cw &&& operandMask k = commandWord u o 0) :
    c = ⟨commandWord u o c.aField, c.d⟩ ∧ c.aField.toNat < 2 ^ k := by
  have hfields : commandWord (c.unitField &&& 15) (c.opField &&& 15)
      (c.aField &&& BitVec.allOnes 24 <<< k) = commandWord u o 0 := by
    rw [← h, operandMask, ← commandWord_and, ← cw_eq_fields]
  have hand : ∀ x : BitVec 4, x &&& 15 = x := fun _ => BitVec.and_allOnes
  have hu := congrArg (fun w => Command.unitField ⟨w, 0⟩) hfields
  have ho := congrArg (fun w => Command.opField ⟨w, 0⟩) hfields
  have ha := congrArg (fun w => Command.aField ⟨w, 0⟩) hfields
  simp only [unitField_commandWord, opField_commandWord, aField_commandWord, hand] at hu ho ha
  refine ⟨?_, toNat_lt_of_and_shiftLeft ha⟩
  rw [← hu, ← ho, ← cw_eq_fields]

/-- A command whose word matches UNIT `u`, OP `o` and an operand of `k` bits decodes by the arm `arm` of the
decoder for that unit and OP. -/
theorem decode_of_fields {u o : BitVec 4} {arm : BitVec 24 → Word → Except Reject Instr} (k : Nat)
    (harm : ∀ a d, decode ⟨commandWord u o a, d⟩ = arm a d) {c : Command} {i : Instr}
    (h : c.cw &&& operandMask k = commandWord u o 0)
    (hi : c.aField.toNat < 2 ^ k → arm c.aField c.d = .ok i) : decode c = .ok i := by
  obtain ⟨hc, ha⟩ := eq_word_of_match h
  exact (congrArg decode hc).trans ((harm _ _).trans (hi ha))

theorem decodePlain_of_lt {a : BitVec 24} (i : Instr) (ha : a.toNat < 2 ^ 0) : decodePlain a i = .ok i :=
  decodePlain_eq.mpr ⟨BitVec.eq_of_toNat_eq (Nat.lt_one_iff.mp ha), rfl⟩

theorem decodeLow_of_lt {k : Nat} {a : BitVec 24} (make : Nat → Instr) (ha : a.toNat < 2 ^ k) :
    decodeLow k a make = .ok (make a.toNat) := decodeLow_eq.mpr ⟨ha, rfl⟩

/-- A word of the row of `i` decodes to a command of that row, where the data operand of a WR8 or WR16 fits. -/
theorem decode_of_match (i : Instr) {c : Command} (h : c.cw &&& i.row.mask = i.row.pattern)
    (h8 : i.row.mnemonic = "WR8" → c.d.toNat < 256) (h16 : i.row.mnemonic = "WR16" → c.d.toNat < 65536) :
    ∃ j, decode c = .ok j ∧ j.row = i.row := by
  cases i with
  | rd8 a => exact ⟨_, decode_of_fields 24 (decode_busWord 0) h fun _ => rfl, rfl⟩
  | rd16 a => exact ⟨_, decode_of_fields 24 (decode_busWord 1) h fun _ => rfl, rfl⟩
  | wr8 a v =>
    exact ⟨_, decode_of_fields 24 (decode_busWord 2) h fun _ => decodeWr8_eq.mpr ⟨h8 rfl, rfl⟩, rfl⟩
  | wr16 a v =>
    exact ⟨_, decode_of_fields 24 (decode_busWord 3) h fun _ => decodeWr16_eq.mpr ⟨h16 rfl, rfl⟩, rfl⟩
  | ldrom => exact ⟨_, decode_of_fields 0 (decode_busWord 4) h (decodePlain_of_lt _), rfl⟩
  | insbin f => exact ⟨_, decode_of_fields 0 (decode_busWord 5) h (decodePlain_of_lt _), rfl⟩
  | irqreg l => exact ⟨_, decode_of_fields 3 (decode_irqWord 0) h (decodeLow_of_lt _), rfl⟩
  | irqasr n => exact ⟨_, decode_of_fields 8 (decode_irqWord 1) h (decodeLow_of_lt _), rfl⟩
  | irqdea n => exact ⟨_, decode_of_fields 8 (decode_irqWord 2) h (decodeLow_of_lt _), rfl⟩
  | irqrcp => exact ⟨_, decode_of_fields 0 (decode_irqWord 3) h (decodePlain_of_lt _), rfl⟩
  | irqget => exact ⟨_, decode_of_fields 0 (decode_irqWord 4) h (decodePlain_of_lt _), rfl⟩
  | fdclk p n =>
    exact ⟨_, decode_of_fields 8 (decode_fdivWord 0) h (decodeLow_of_lt (.fdclk · c.d.toNat)), rfl⟩
  | run n => exact ⟨_, decode_of_fields 0 (decode_schedWord 0) h (decodePlain_of_lt _), rfl⟩
  | prun n => exact ⟨_, decode_of_fields 0 (decode_schedWord 1) h (decodePlain_of_lt _), rfl⟩
  | reset => exact ⟨_, decode_of_fields 0 (decode_schedWord 2) h (decodePlain_of_lt _), rfl⟩
  | togmode => exact ⟨_, decode_of_fields 0 (decode_schedWord 3) h (decodePlain_of_lt _), rfl⟩
  | togrec => exact ⟨_, decode_of_fields 0 (decode_schedWord 4) h (decodePlain_of_lt _), rfl⟩
  | health => exact ⟨_, decode_of_fields 0 (decode_schedWord 5) h (decodePlain_of_lt _), rfl⟩
  | takeframe => exact ⟨_, decode_of_fields 0 (decode_schedWord 6) h (decodePlain_of_lt _), rfl⟩
  | stats => exact ⟨_, decode_of_fields 0 (decode_schedWord 7) h (decodePlain_of_lt _), rfl⟩

end Sys2Proof

namespace Sys2Proof.Machine

theorem step_of_reject {s : State} {c : Command} {rest : List Command} {r : Reject}
    (hc : s.commands = c :: rest) (hd : decode c = .error r) :
    step s = .next (raise (.eEnc c.cw c.d)
      { s with commands := rest, status := .ok, result := .none, trace := [] }) := by
  simp only [step, takeCommand, hc, hd]

/-- Settles O2, by the arm of the decoder each encoded word selects. -/
theorem decodingAnEncodedCommandGivesItBack : Obligations.DecodingAnEncodedCommandGivesItBack :=
  fun _ hwf => decode_encode hwf

/-- Settles O3: a decoded command is carried by the words it was read from. -/
theorem encodingADecodedCommandGivesItsWords : Obligations.EncodingADecodedCommandGivesItsWords := by
  intro c i hd
  have h := carriedBy_of_decode hd
  exact ⟨h.wf, h.cw, fun hr => h.d.trans (if_pos hr), fun hr => h.d.trans (if_neg (by simp [hr]))⟩

/-- Settles O1: rows differ in UNIT and OP, which every row fixes; a decoded command's word is its encoded word,
which lies in its row; and a word of a row has the fields that select the row's arm of the decoder. -/
theorem commandWordsDecodeToTheirRowOrAnswerEEnc : Obligations.CommandWordsDecodeToTheirRowOrAnswerEEnc := by
  refine ⟨fun r hr r' hr' cw => row_unique hr hr', fun c i hd => ?_, fun c r hr h h8 h16 => ?_,
    fun s c rest hc hno => ?_⟩
  · have h := carriedBy_of_decode hd
    obtain ⟨hmem, hrow⟩ := encode_in_row i h.wf
    exact ⟨hmem, h.cw ▸ hrow, h.d_lt⟩
  · obtain ⟨i, rfl⟩ := exists_row_of_mem hr
    exact decode_of_match i h h8 h16
  · cases hd : decode c with
    | ok i => exact absurd hd (hno i)
    | error r => exact ⟨_, step_of_reject hc hd, rfl, rfl, rfl, rfl, rfl, rfl⟩

/-- Settles O4: each word is evaluated. -/
theorem sampleWordsOfEveryUnitDecode : Obligations.SampleWordsOfEveryUnitDecode := by
  refine ⟨?_, ?_, ?_, ?_, ?_⟩ <;> decide

end Sys2Proof.Machine
end

section
/-! The answer ports are nothing to the bus (30_encoding.md R70): an access neither reads nor writes status and
result, so a command performed as several accesses is the same with those ports set on the way or after. -/

namespace Sys2Proof.Machine

section
variable (r : Result) (s : State)

theorem answer_answer (r' : Result) : answer r' (answer r s) = answer r' s := rfl

theorem recompute_answer : recompute (answer r s) = answer r (recompute s) := by
  cases h : s.cfg.cpuAttached <;> simp [recompute, answer, record, h]

theorem driveLine_answer (h : Nat) (p : Bool) :
    driveLine h p (answer r s) = ((driveLine h p s).1, answer r (driveLine h p s).2) := by
  by_cases hh : h < s.irqCount
  · have hs : driveLine h p s = (.ok, recompute { s with irqLines := setLine s.irqLines h p }) := if_pos hh
    rw [hs, ← recompute_answer]
    exact if_pos hh
  · have hs : driveLine h p s = (.eBadHandle h, s) := if_neg hh
    rw [hs]
    exact if_neg hh

theorem devOp_answer (op : DevOp) : devOp (answer r s) op = answer r (devOp s op) := by
  cases op with
  | irqAssert h => rw [devOp, driveLine_answer]; rfl
  | irqDeassert h => rw [devOp, driveLine_answer]; rfl
  | vramRead a => rfl
  | vramWrite a v => rfl

theorem devOps_answer (call : DevCall) (ops : List DevOp) :
    devOps call ops (answer r s) = answer r (devOps call ops s) :=
  List.foldl_hom (answer r) (devOp_answer r)

theorem takeDevReply_answer :
    takeDevReply (answer r s) = ((takeDevReply s).1, answer r (takeDevReply s).2) := by
  cases h : s.env.devs <;> simp [takeDevReply, answer, countDraw, h]

theorem callDevice_answer (call : DevCall) :
    callDevice call (answer r s) = ((callDevice call s).1, answer r (callDevice call s).2) := by
  have h : record (.device call) (answer r s) = answer r (record (.device call) s) := rfl
  simp only [callDevice, h, takeDevReply_answer, devOps_answer]

theorem read8_answer (a : Addr) : read8 a (answer r s) = ((read8 a s).1, answer r (read8 a s).2) := by
  simp only [read8, answer_cfg, callDevice_answer]
  cases selectRead s.cfg a <;> rfl

theorem write8_answer (a : Addr) (v : Byte) : write8 a v (answer r s) = answer r (write8 a v s) := by
  simp only [write8, answer_cfg, callDevice_answer]
  cases selectWrite s.cfg a <;> rfl

theorem write16_answer (a : Addr) (v : Half) : write16 a v (answer r s) = answer r (write16 a v s) := by
  rw [write16, write8_answer, write8_answer, write16]

end

/-! ## Device calls that nest no operation -/

/-- The state after these device calls, where none of them nested an operation: the calls recorded, an answer taken
for each. -/
def afterCalls (calls : List DevCall) (s : State) : State :=
  { s with
    trace := s.trace ++ calls.map .device
    env := { s.env with devs := s.env.devs.drop calls.length } }

@[simp] theorem afterCalls_nil (s : State) : afterCalls [] s = s := by simp [afterCalls]

theorem afterCalls_append (l l' : List DevCall) (s : State) :
    afterCalls l' (afterCalls l s) = afterCalls (l ++ l') s := by simp [afterCalls]

@[simp] theorem cfg_afterCalls (calls : List DevCall) (s : State) : (afterCalls calls s).cfg = s.cfg := rfl

/-- `afterCalls` with the answers that are left named. -/
theorem afterCalls_of_devs {calls : List DevCall} {s : State} {rest : List DevReply}
    (h : s.env.devs.drop calls.length = rest) : afterCalls calls s =
      { s with trace := s.trace ++ calls.map .device, env := { s.env with devs := rest } } := by
  rw [afterCalls, h]

theorem callDevice_quiet {call : DevCall} {s : State} {r : DevReply} {rest : List DevReply}
    (h : s.env.devs = r :: rest) (ho : r.ops = []) : callDevice call s = (r, afterCalls [call] s) := by
  rw [callDevice_listed_quiet h ho, afterCalls_of_devs (rest := rest) (by rw [h]; rfl)]
  rfl

end Sys2Proof.Machine
end

section
/-! RD8 and RD16 (40_bus.md R90, R92, R93): what each answers, and that reads change no field of the block (R99). -/

namespace Sys2Proof.Machine

variable {s : State} {a : Addr}

/-! ## A byte read -/

theorem exec_rd8 (a : Addr) (s : State) :
    exec (.rd8 a) s = .next (answer (.word (zext32 (read8 a s).1.toNat)) (read8 a s).2) := rfl

/-- The call of a byte read is its device's register read, or a read of the blit context. -/
theorem readCall_eq_some {c : Config} {call : DevCall} : readCall c a = some call ↔
    (∃ d o, selectRead c a = .io d o ∧ call = .ioRead d o) ∨
    ∃ o, selectRead c a = .ctx o ∧ call = .ctxRead o := by
  unfold readCall
  cases selectRead c a <;> simp [eq_comm]

theorem read8_of_readCall {call : DevCall} (h : readCall s.cfg a = some call) :
    read8 a s = ((callDevice call s).1.value, (callDevice call s).2) := by
  obtain ⟨d, o, ht, rfl⟩ | ⟨o, ht, rfl⟩ := readCall_eq_some.mp h
  · rw [read8, ht]
  · rw [read8, ht]

theorem read8_of_readCall_quiet {call : DevCall} {r : DevReply} {rest : List DevReply}
    (h : readCall s.cfg a = some call) (hd : s.env.devs = r :: rest) (ho : r.ops = []) :
    read8 a s = (r.value, afterCalls [call] s) := by
  rw [read8_of_readCall h, callDevice_quiet hd ho]

theorem exec_rd8_of_memory (h : readsDevice s a = false) :
    exec (.rd8 a) s = .next (answer (.word (zext32 (memoryByte s a).toNat)) s) := by
  rw [exec_rd8, read8_of_memory h]

/-- RD8 of a target that is no device, with the byte named. -/
theorem exec_rd8_of_target {target : Target} {x : Byte} (ht : selectRead s.cfg a = target)
    (hdev : target.isDevice = false) (hx : memoryByte s a = x) :
    exec (.rd8 a) s = .next { s with status := .ok, result := .word (BitVec.ofNat 32 x.toNat) } := by
  rw [exec_rd8_of_memory (by rw [readsDevice, ht, hdev]), hx]
  rfl

/-- RD8 of a device: the call first, its answer the result. -/
theorem exec_rd8_of_readCall {call : DevCall} {r : DevReply} {rest : List DevReply}
    (h : readCall s.cfg a = some call) (hd : s.env.devs = r :: rest) : exec (.rd8 a) s =
      .next (answer (.word (zext32 r.value.toNat)) (callDevice call s).2) := by
  rw [exec_rd8, read8_of_readCall h, callDevice_listed_value hd]

/-- Settles O12: a target that is no device gives `memoryByte`, a device its answer. -/
theorem rd8AnswersTheSelectedByte : Obligations.Rd8AnswersTheSelectedByte := by
  intro s a
  refine ⟨?_, ⟨_, rfl⟩, fun i h => ?_, fun f i low h => ?_, fun b h => ?_, fun call r rest hd hcall => ?_⟩
  · exact commandWord_toNat 1 0 a
  · obtain h | h := h
    · exact exec_rd8_of_target h rfl (by rw [memoryByte, h])
    · exact exec_rd8_of_target h rfl (by rw [memoryByte, h])
  · exact exec_rd8_of_target h rfl (by rw [memoryByte, h])
  · exact exec_rd8_of_target h rfl (by rw [memoryByte, h])
  · obtain ⟨more, htrace, -⟩ := trace_callDevice call s
    refine ⟨_, exec_rd8_of_readCall (readCall_eq_some.mpr hcall) hd,
      own_answered _ (own_callDevice call s), ⟨more, htrace⟩, fun ho => ?_⟩
    rw [callDevice_listed_quiet hd ho]
    rfl

/-! ## A word read -/

theorem exec_rd16 (a : Addr) (s : State) : exec (.rd16 a) s =
    .next (answer (.word (zext32 (256 * (read8 a s).1.toNat + (read8 (a + 1#24) (read8 a s).2).1.toNat)))
      (read8 (a + 1#24) (read8 a s).2).2) := by
  rw [← append_byte_toNat]
  rfl

/-- A word on the result port from its bytes there. -/
theorem zext32_join (m n : Nat) : zext32 (256 * m + n) = 256#32 * zext32 m + zext32 n := by
  simp [zext32, BitVec.ofNat_add, BitVec.ofNat_mul]

/-- RD16 is the RD8 of the two bytes, whatever devices nest. -/
theorem exec_rd16_of_rd8 {t u : State} {x y : Word} (ht : exec (.rd8 a) s = .next t)
    (hx : t.result = .word x) (hu : exec (.rd8 (a + 1#24)) t = .next u) (hy : u.result = .word y) :
    exec (.rd16 a) s = .next { u with result := .word (256#32 * x + y) } := by
  obtain rfl := Host.Outcome.next.inj ht
  rw [exec_rd8, read8_answer, answer_answer] at hu
  obtain rfl := Host.Outcome.next.inj hu
  obtain rfl := Result.word.inj hx
  obtain rfl := Result.word.inj hy
  rw [exec_rd16, zext32_join]
  rfl

theorem exec_rd16_of_memory (h0 : readsDevice s a = false) (h1 : readsDevice s (a + 1#24) = false) :
    exec (.rd16 a) s = .next (answer
      (.word (zext32 (256 * (memoryByte s a).toNat + (memoryByte s (a + 1#24)).toNat))) s) := by
  rw [exec_rd16, read8_of_memory h0, read8_of_memory h1]

@[simp] theorem memoryByte_afterCalls (calls : List DevCall) (s : State) (a : Addr) :
    memoryByte (afterCalls calls s) a = memoryByte s a := rfl

/-- Settles O13: each byte is read from its own target, the high one first, and a call in between is nothing to a
byte of memory. -/
theorem rd16JoinsTwoByteReads : Obligations.Rd16JoinsTwoByteReads := by
  intro s a
  refine ⟨⟨_, rfl⟩, fun t u x y ht hx hu hy => exec_rd16_of_rd8 ht hx hu hy,
    fun h0 h1 => exec_rd16_of_memory h0 h1, fun call r rest hcall h1 hd ho => ?_,
    fun call r rest h0 hcall hd ho => ?_, fun call1 call2 r1 r2 rest hcall1 hcall2 hd ho1 ho2 => ?_⟩
  · have h1 : readsDevice (afterCalls [call] s) (a + 1#24) = false := h1
    rw [exec_rd16, read8_of_readCall_quiet hcall hd ho, read8_of_memory h1, memoryByte_afterCalls,
      afterCalls_of_devs (rest := rest) (by rw [hd]; rfl)]
    rfl
  · rw [exec_rd16, read8_of_memory h0, read8_of_readCall_quiet hcall hd ho,
      afterCalls_of_devs (rest := rest) (by rw [hd]; rfl)]
    rfl
  · have hd2 : (afterCalls [call1] s).env.devs = r2 :: rest := congrArg (List.drop 1) hd
    rw [exec_rd16, read8_of_readCall_quiet hcall1 hd ho1,
      read8_of_readCall_quiet (s := afterCalls [call1] s) hcall2 hd2 ho2, afterCalls_append,
      List.singleton_append, afterCalls_of_devs (calls := [call1, call2]) (rest := rest) (by rw [hd]; rfl)]
    rfl

/-! ## Reads change nothing -/

/-- Settles O14: what a read leaves of the block's own fields is that of every bus command; with no device reached,
or with devices that nest nothing, each byte read leaves the rest as well. -/
theorem readsChangeNoFieldOfTheBlock : Obligations.ReadsChangeNoFieldOfTheBlock := by
  intro s t a i hi h
  obtain rfl | rfl := hi
  · refine ⟨own_exec rfl h, fun h0 _ => ?_, fun hq => ?_⟩
    · rw [exec_rd8_of_memory h0] at h
      obtain rfl := Host.Outcome.next.inj h
      exact ⟨rfl, rfl, rfl⟩
    · obtain rfl := Host.Outcome.next.inj h
      exact (quietReplies_read8 hq).1
  · refine ⟨own_exec rfl h, fun h0 h1 => ?_, fun hq => ?_⟩
    · rw [exec_rd16_of_memory h0 h1] at h
      obtain rfl := Host.Outcome.next.inj h
      exact ⟨rfl, rfl, rfl⟩
    · obtain rfl := Host.Outcome.next.inj h
      obtain ⟨hb, hq⟩ := quietReplies_read8 (a := a) hq
      exact (quietReplies_read8 hq).1.trans hb

end Sys2Proof.Machine
end

section
/-! WR8 and WR16 (40_bus.md R91, R94, R95) as byte writes in a row, and what such a row leaves where the devices it
reaches nest no operation. -/

namespace Sys2Proof.Machine

/-! ## Byte writes in a row -/

/-- The byte writes of the list, in order. -/
def writeAll (writes : List (Addr × Byte)) (s : State) : State :=
  writes.foldl (fun u w => write8 w.1 w.2 u) s

/-- The calls that byte writes make, in order. -/
def writeCalls (c : Config) (writes : List (Addr × Byte)) : List DevCall :=
  writes.filterMap fun w => writeCall c w.1 w.2

/-- Video memory after a byte write, where the device it may reach nests no operation. -/
def setSelected (c : Config) (m : Memory) (w : Addr × Byte) : Memory :=
  match selectWrite c w.1 with
  | .vram b => m.set b.toNat w.2
  | _ => m

/-- What byte `x` of video memory is after a byte write, where it was `old` before and the device reached nests no
operation. -/
def byteAfter (c : Config) (x : Addr) (old : Byte) (w : Addr × Byte) : Byte :=
  if selectWrite c w.1 = .vram x then w.2 else old

section
variable {c : Config} {s : State} {a x : Addr} {v old : Byte} {writes : List (Addr × Byte)}

/-- The call of a byte write is its device's register write, or a write of the blit context. -/
theorem writeCall_eq_some {call : DevCall} : writeCall c a v = some call ↔
    (∃ d o, selectWrite c a = .io d o ∧ call = .ioWrite d o v) ∨
    ∃ o, selectWrite c a = .ctx o ∧ call = .ctxWrite o v := by
  unfold writeCall
  cases selectWrite c a <;> simp [eq_comm]

theorem write8_of_writeCall {call : DevCall} (h : writeCall s.cfg a v = some call) :
    write8 a v s = (callDevice call s).2 := by
  obtain ⟨d, o, ht, rfl⟩ | ⟨o, ht, rfl⟩ := writeCall_eq_some.mp h
  · rw [write8, ht]
  · rw [write8, ht]

theorem write8_of_vram {b : Addr} (h : selectWrite s.cfg a = .vram b) : write8 a v s = writeVram b v s := by
  rw [write8, h]

theorem ne_vram_of_writeCall {call : DevCall} (h : writeCall c a v = some call) (b : Addr) :
    selectWrite c a ≠ .vram b := by
  obtain ⟨d, o, ht, -⟩ | ⟨o, ht, -⟩ := writeCall_eq_some.mp h
  · rw [ht]; nofun
  · rw [ht]; nofun

theorem setSelected_of_writeCall {call : DevCall} (h : writeCall c a v = some call) (m : Memory) :
    setSelected c m (a, v) = m := by
  unfold setSelected
  split
  · exact absurd ‹_› (ne_vram_of_writeCall h _)
  · rfl

theorem byteAfter_of_writeCall {call : DevCall} (h : writeCall c a v = some call) :
    byteAfter c x old (a, v) = old := if_neg (ne_vram_of_writeCall h x)

/-- A byte write that reaches no device sets the byte of video memory it selects, if any. -/
theorem write8_of_writeCall_none (h : writeCall s.cfg a v = none) :
    write8 a v s = { s with vram := setSelected s.cfg s.vram (a, v) } := by
  unfold writeCall at h
  unfold write8 setSelected
  cases ht : selectWrite s.cfg a with
  | io d o => simp [ht] at h
  | ctx o => simp [ht] at h
  | vram b => rfl
  | vec i => rfl
  | romMirror i => rfl
  | font f i low => rfl
  | drop => rfl

theorem writeCall_of_memory (h : writesDevice s a = false) (v : Byte) : writeCall s.cfg a v = none := by
  cases hc : writeCall s.cfg a v with
  | none => rfl
  | some call =>
    unfold writesDevice at h
    obtain ⟨d, o, ht, -⟩ | ⟨o, ht, -⟩ := writeCall_eq_some.mp hc
    · rw [ht] at h; cases h
    · rw [ht] at h; cases h

/-! ## Byte writes whose devices nest no operation -/

theorem quietReplies_listed {l rest : List DevReply} (hd : s.env.devs = l ++ rest)
    (ho : ∀ r ∈ l, r.ops = []) : quietReplies l.length s = true := by
  have hlen : l.length ≤ s.env.devs.length := by simp [hd]
  rw [quietReplies, hd, List.take_left, ← hd, decide_eq_true hlen, Bool.true_and, List.all_eq_true]
  exact fun r hr => List.isEmpty_iff.mpr (ho r hr)

theorem callDevice_of_quietReplies {n : Nat} (call : DevCall) (h : quietReplies (n + 1) s = true) :
    (callDevice call s).2 = afterCalls [call] s ∧ quietReplies n (afterCalls [call] s) = true := by
  have hq := (quietReplies_callDevice (call := call) h).2
  cases hd : s.env.devs with
  | nil => simp [quietReplies, hd] at h
  | cons r rest =>
    have ho : r.ops = [] := by
      simp only [quietReplies, hd, List.take_succ_cons, List.all_cons, Bool.and_eq_true,
        List.isEmpty_iff] at h
      exact h.2.1
    rw [callDevice_quiet hd ho] at hq ⊢
    exact ⟨rfl, hq⟩

/-- What byte writes leave where the devices they reach nest no operation: the calls recorded and answered, and
video memory with each of the other bytes where it selects one. -/
theorem writeAll_quiet (h : quietReplies (writeCalls s.cfg writes).length s = true) : writeAll writes s =
    { afterCalls (writeCalls s.cfg writes) s with vram := writes.foldl (setSelected s.cfg) s.vram } := by
  induction writes generalizing s with
  | nil => rw [writeCalls, List.filterMap_nil, afterCalls_nil]; rfl
  | cons w rest ih =>
    obtain ⟨a, v⟩ := w
    cases hc : writeCall s.cfg a v with
    | none =>
      have hcalls : writeCalls s.cfg ((a, v) :: rest) = writeCalls s.cfg rest := List.filterMap_cons_none hc
      rw [hcalls] at h ⊢
      have hw := write8_of_writeCall_none hc
      have hrest := ih (s := write8 a v s) (by rw [hw]; exact h)
      rw [hw] at hrest
      exact (congrArg (writeAll rest) hw).trans hrest
    | some call =>
      have hcalls : writeCalls s.cfg ((a, v) :: rest) = call :: writeCalls s.cfg rest :=
        List.filterMap_cons_some hc
      rw [hcalls] at h ⊢
      obtain ⟨hcall, hq⟩ := callDevice_of_quietReplies call h
      have hw : write8 a v s = afterCalls [call] s := (write8_of_writeCall hc).trans hcall
      have hrest := ih (s := afterCalls [call] s) hq
      rw [cfg_afterCalls, afterCalls_append] at hrest
      refine (congrArg (writeAll rest) hw).trans (hrest.trans ?_)
      rw [List.foldl_cons, setSelected_of_writeCall hc]
      rfl

theorem vramByte_setSelected (c : Config) (w : Addr × Byte) (x : Addr) (s : State) :
    vramByte { s with vram := setSelected c s.vram w } x = byteAfter c x (vramByte s x) w := by
  unfold setSelected byteAfter
  cases selectWrite c w.1 with
  | vram b =>
    refine (vramByte_writeVram b x w.2 s).trans ?_
    simp [eq_comm]
  | _ => rfl

theorem vramByte_setAll (c : Config) (writes : List (Addr × Byte)) (x : Addr) (s : State) :
    vramByte { s with vram := writes.foldl (setSelected c) s.vram } x =
      writes.foldl (byteAfter c x) (vramByte s x) := by
  induction writes generalizing s with
  | nil => rfl
  | cons w rest ih =>
    rw [List.foldl_cons (f := byteAfter c x), ← vramByte_setSelected c w x s]
    exact ih { s with vram := setSelected c s.vram w }

/-- `writeAll_quiet` byte by byte, with the answers taken and those left named. -/
theorem writeAll_listed {calls : List DevCall} {replies rest : List DevReply}
    (hcalls : writeCalls s.cfg writes = calls) (hd : s.env.devs = replies ++ rest)
    (ho : ∀ r ∈ replies, r.ops = []) (hlen : replies.length = calls.length) :
    (∀ x, vramByte (writeAll writes s) x = writes.foldl (byteAfter s.cfg x) (vramByte s x)) ∧
    { writeAll writes s with vram := s.vram } =
      { s with trace := s.trace ++ calls.map .device, env := { s.env with devs := rest } } := by
  have hdrop : s.env.devs.drop calls.length = rest := by rw [hd, ← hlen, List.drop_left]
  rw [writeAll_quiet (by rw [hcalls, ← hlen]; exact quietReplies_listed hd ho), hcalls,
    afterCalls_of_devs hdrop]
  exact ⟨fun x => vramByte_setAll s.cfg writes x s, rfl⟩

end

/-! ## WR8 and WR16 -/

section
variable {s : State} {a : Addr}

theorem exec_wr8 (a : Addr) (v : Byte) (s : State) :
    exec (.wr8 a v) s = .next (answer .none (write8 a v s)) := rfl

theorem exec_wr16 (a : Addr) (v : Half) (s : State) : exec (.wr16 a v) s =
    .next (answer .none (write8 (a + 1#24) (lowByte v) (write8 a (highByte v) s))) := rfl

theorem exec_wr8_of_writeCall {call : DevCall} {v : Byte} (h : writeCall s.cfg a v = some call) :
    exec (.wr8 a v) s = .next (answer .none (callDevice call s).2) := by
  rw [exec_wr8, write8_of_writeCall h]

theorem exec_wr8_of_vram {v : Byte} {b : Addr} (h : selectWrite s.cfg a = .vram b) :
    exec (.wr8 a v) s = .next (answer .none (writeVram b v s)) := by rw [exec_wr8, write8_of_vram h]

/-- Settles O15: the byte goes to video memory, to the one device called, or nowhere. -/
theorem wr8WritesTheSelectedTarget : Obligations.Wr8WritesTheSelectedTarget := by
  intro s a v
  refine ⟨⟨_, rfl⟩, fun ht => ?_, fun b ht => ?_, fun call hcall => ?_⟩
  · rw [exec_wr8, write8, ht]
    rfl
  · exact ⟨_, exec_wr8_of_vram ht, fun x => vramByte_writeVram b x v s, rfl⟩
  · have hw := exec_wr8_of_writeCall (writeCall_eq_some.mpr hcall)
    obtain ⟨more, htrace, -⟩ := trace_callDevice call s
    refine ⟨_, hw, own_answered _ (own_callDevice call s), ⟨more, htrace⟩,
      fun hb => vram_callDevice hb s, fun r rest hd ho => ?_⟩
    rw [callDevice_listed_quiet hd ho]
    rfl

/-- WR16 is the WR8 of its two bytes, whatever devices nest. -/
theorem exec_wr16_of_wr8 {t u : State} {v : Half} (ht : exec (.wr8 a (highByte v)) s = .next t)
    (hu : exec (.wr8 (a + 1#24) (lowByte v)) t = .next u) : exec (.wr16 a v) s = .next u := by
  obtain rfl := Host.Outcome.next.inj ht
  rw [exec_wr8, write8_answer, answer_answer] at hu
  exact hu

/-- WR16 where the devices reached nest no operation: `writeAll_listed` at its two bytes. -/
theorem exec_wr16_listed {v : Half} {hi lo : Byte} {calls : List DevCall} {replies rest : List DevReply}
    (hhi : highByte v = hi) (hlo : lowByte v = lo)
    (hcalls : writeCalls s.cfg [(a, hi), (a + 1#24, lo)] = calls) (hd : s.env.devs = replies ++ rest)
    (ho : ∀ r ∈ replies, r.ops = []) (hlen : replies.length = calls.length) :
    ∃ t, exec (.wr16 a v) s = .next t ∧
      (∀ x, vramByte t x =
        byteAfter s.cfg x (byteAfter s.cfg x (vramByte s x) (a, hi)) (a + 1#24, lo)) ∧
      { t with vram := s.vram } = { s with
        status := .ok
        result := .none
        trace := s.trace ++ calls.map .device
        env := { s.env with devs := rest } } := by
  subst hhi hlo
  obtain ⟨hbytes, hframe⟩ := writeAll_listed hcalls hd ho hlen
  exact ⟨_, exec_wr16 a v s, hbytes, congrArg (answer .none) hframe⟩

/-- Settles O16: one clause for each choice of which of the two bytes a device takes. -/
theorem wr16WritesTwoBytes : Obligations.Wr16WritesTwoBytes := by
  intro s a v hi lo
  have hhi : highByte v = hi := highByte_eq v
  have hlo : lowByte v = lo := lowByte_eq v
  refine ⟨⟨_, rfl⟩, fun t u ht hu => ?_, fun h0 h1 => ?_, fun call r rest h0 h1 hd ho => ?_,
    fun call r rest h0 h1 hd ho => ?_, fun call1 call2 r1 r2 rest h0 h1 hd ho1 ho2 => ?_⟩
  · rw [← hhi] at ht
    rw [← hlo] at hu
    exact exec_wr16_of_wr8 ht hu
  · have hcalls : writeCalls s.cfg [(a, hi), (a + 1#24, lo)] = [] := by
      simp [writeCalls, writeCall_of_memory h0, writeCall_of_memory h1]
    obtain ⟨t, ht, hbytes, hframe⟩ := exec_wr16_listed hhi hlo hcalls rfl (replies := []) nofun rfl
    rw [List.map_nil, List.append_nil] at hframe
    exact ⟨t, ht, hbytes, hframe⟩
  · have hcalls : writeCalls s.cfg [(a, hi), (a + 1#24, lo)] = [call] := by
      simp [writeCalls, h0, writeCall_of_memory h1]
    obtain ⟨t, ht, hbytes, hframe⟩ :=
      exec_wr16_listed hhi hlo hcalls hd (replies := [r]) (by simpa using ho) rfl
    simp only [byteAfter_of_writeCall h0] at hbytes
    exact ⟨t, ht, hbytes, hframe⟩
  · have hcalls : writeCalls s.cfg [(a, hi), (a + 1#24, lo)] = [call] := by
      simp [writeCalls, h1, writeCall_of_memory h0]
    obtain ⟨t, ht, hbytes, hframe⟩ :=
      exec_wr16_listed hhi hlo hcalls hd (replies := [r]) (by simpa using ho) rfl
    simp only [byteAfter_of_writeCall h1] at hbytes
    exact ⟨t, ht, hbytes, hframe⟩
  · have hd2 : (afterCalls [call1] s).env.devs = r2 :: rest := by rw [afterCalls, hd]; rfl
    rw [exec_wr16, hhi, hlo, write8_of_writeCall h0, callDevice_quiet hd ho1,
      write8_of_writeCall (s := afterCalls [call1] s) h1, callDevice_quiet hd2 ho2, afterCalls_append,
      List.singleton_append, afterCalls_of_devs (calls := [call1, call2]) (rest := rest) (by rw [hd]; rfl)]
    rfl

/-! ## Reading back what was written -/

theorem exec_wr16_of_vram {v : Half} {b b' : Addr} (h : selectWrite s.cfg a = .vram b)
    (h' : selectWrite s.cfg (a + 1#24) = .vram b') : exec (.wr16 a v) s =
      .next (answer .none (writeVram b' (lowByte v) (writeVram b (highByte v) s))) := by
  rw [exec_wr16, write8_of_vram h, write8_of_vram (s := writeVram b _ s) h']

@[simp] theorem memoryByte_answer (r : Result) (s : State) (x : Addr) :
    memoryByte (answer r s) x = memoryByte s x := rfl

theorem memoryByte_writeVram {x : Addr} (h : selectRead s.cfg x = .vram x) (b : Addr) (v : Byte) :
    memoryByte (writeVram b v s) x = if x = b then v else memoryByte s x := by
  unfold memoryByte
  rw [writeVram_cfg, h]
  exact vramByte_writeVram b x v s

theorem readsDevice_of_vram {b : Addr} (h : selectRead s.cfg a = .vram b) : readsDevice s a = false := by
  rw [readsDevice, h]
  rfl

/-- A word is its high byte and its low byte (20_memory.md R48). -/
theorem join_high_low (v : Half) : 256 * (highByte v).toNat + (lowByte v).toNat = v.toNat := by
  rw [highByte_eq, lowByte_eq, BitVec.toNat_ofNat, BitVec.toNat_ofNat]
  omega

theorem ne_add_one (a : Addr) : a ≠ a + 1#24 := by bv_omega

/-- Settles O17: each byte read is the one last written there. -/
theorem videoMemoryRoundTrips : Obligations.VideoMemoryRoundTrips := by
  intro s a hr hw
  refine ⟨fun v => ?_, fun hr1 hw1 v => ?_⟩
  · have hbyte : memoryByte (answer .none (writeVram a v s)) a = v := by
      rw [memoryByte_answer, memoryByte_writeVram hr, if_pos rfl]
    have hread := exec_rd8_of_target (s := answer .none (writeVram a v s)) hr rfl hbyte
    exact ⟨_, _, exec_wr8_of_vram hw, hread, rfl⟩
  · have hread := exec_rd16_of_memory
      (s := answer .none (writeVram (a + 1#24) (lowByte v) (writeVram a (highByte v) s)))
      (readsDevice_of_vram hr) (readsDevice_of_vram hr1)
    rw [memoryByte_answer, memoryByte_answer, memoryByte_writeVram (s := writeVram a _ s) hr,
      memoryByte_writeVram (s := writeVram a _ s) hr1, if_neg (ne_add_one a), if_pos rfl,
      memoryByte_writeVram hr, if_pos rfl, join_high_low] at hread
    exact ⟨_, _, exec_wr16_of_vram hw hw1, hread, rfl⟩

end

end Sys2Proof.Machine
end

section
/-! LDROM (40_bus.md R96): the image the host's answer gives, and the status. -/

namespace Sys2Proof.Machine

theorem takeRomFile_listed {s : State} {f : RomFile} {rest : List RomFile}
    (h : s.env.romFiles = f :: rest) :
    takeRomFile s = (f, { s with env := { s.env with romFiles := rest } }) := by
  rw [takeRomFile, h]

/-- The status of a load: W_ROM_FALLBACK where a file is configured and cannot be used. -/
def loadStatus : RomFile → Status
  | .file b => if romSize ≤ b.length then .ok else .wRomFallback
  | .missing => .wRomFallback
  | .notConfigured => .ok

theorem defaultRom_length {c : Config} (hc : c.wf) : c.defaultRom.length = romSize := by
  obtain ⟨-, -, -, -, -, -, -, -, -, -, -, h, -⟩ := hc
  exact h

/-- An image of ROM_SIZE bytes, or the first of a longer file, byte by byte. -/
theorem romByte_ofBytes_take {image : List Byte} (hlen : romSize ≤ image.length) {i : Nat} (hi : i < romSize)
    (s : State) : romByte { s with rom := Memory.ofBytes (image.take romSize) } i = image.getD i 0 := by
  rw [romByte, get?_ofBytes, List.getElem?_take_of_lt hi, List.getElem?_eq_getElem (by omega),
    List.getD_eq_getElem?_getD, List.getElem?_eq_getElem (by omega)]
  rfl

/-- The load of the image from a listed answer of the host. -/
theorem loadRom_listed {s : State} {f : RomFile} {rest : List RomFile} (hc : s.cfg.wf)
    (h : s.env.romFiles = f :: rest) : loadRom s = (loadStatus f, { s with
      rom := Memory.ofBytes ((loadedImage s.cfg f).take romSize)
      trace := s.trace ++ [.romFile]
      env := { s.env with romFiles := rest } }) := by
  have hdefault : s.cfg.defaultRom.take romSize = s.cfg.defaultRom :=
    List.take_of_length_le (defaultRom_length hc).le
  rw [loadRom, takeRomFile_listed (s := record .romFile s) h]
  cases f with
  | notConfigured => rw [loadedImage, hdefault]; rfl
  | missing => rw [loadedImage, hdefault]; rfl
  | file b =>
    by_cases hb : romSize ≤ b.length
    · have himage : loadedImage s.cfg (.file b) = b := if_pos hb
      have hstatus : loadStatus (.file b) = .ok := if_pos hb
      dsimp only
      rw [himage, hstatus, if_pos hb]
      rfl
    · have himage : loadedImage s.cfg (.file b) = s.cfg.defaultRom := if_neg hb
      have hstatus : loadStatus (.file b) = .wRomFallback := if_neg hb
      dsimp only
      rw [himage, hstatus, if_neg hb, hdefault]
      rfl

/-- Settles O19: the image is the file's first bytes or the default, each at least ROM_SIZE long. -/
theorem ldromReplacesTheImage : Obligations.LdromReplacesTheImage := by
  refine ⟨fun d => (decode_busWord 4 0 d).trans (decodePlain_zero _),
    fun s hc => ⟨⟨_, rfl⟩, fun f rest hf => ?_⟩⟩
  have hexec : exec .ldrom s = .next (raise (loadRom s).1 (loadRom s).2) := execLdrom_eq s
  rw [loadRom_listed hc hf] at hexec
  refine ⟨_, hexec, rfl, rfl, rfl, rfl, ?_⟩
  have hdefault : ∀ i < 65536, romByte { s with
      rom := Memory.ofBytes (s.cfg.defaultRom.take romSize) } i = s.cfg.defaultRom.getD i 0 :=
    fun i hi => romByte_ofBytes_take (defaultRom_length hc).ge hi s
  cases f with
  | notConfigured => exact ⟨rfl, hdefault⟩
  | missing => exact ⟨rfl, hdefault⟩
  | file b =>
    refine ⟨fun hb => ⟨if_pos hb, fun i hi => ?_⟩, fun hb => ⟨if_neg (not_le_of_gt hb), fun i hi => ?_⟩⟩
    · rw [loadedImage, if_pos hb]
      exact romByte_ofBytes_take hb hi s
    · rw [loadedImage, if_neg (not_le_of_gt hb)]
      exact hdefault i hi

end Sys2Proof.Machine
end

section
/-! INSBIN (40_bus.md R97): the files it refuses, and what it writes as byte writes in a row. -/

namespace Sys2Proof.Machine

/-! ## The file -/

theorem takeBinFile_listed {s : State} {f : BinFile} {rest : List BinFile}
    (h : s.env.binaries = f :: rest) :
    takeBinFile s = (f, { s with env := { s.env with binaries := rest } }) := by
  rw [takeBinFile, h]

/-- The state after the host answered with a file. -/
def opened (fileref : Word) (rest : List BinFile) (s : State) : State :=
  { s with trace := s.trace ++ [.openBinary fileref], env := { s.env with binaries := rest } }

section
variable {s : State} {fileref : Word} {rest : List BinFile}

theorem exec_insbin_cannotOpen (h : s.env.binaries = .cannotOpen :: rest) :
    exec (.insbin fileref) s = .next (raise (.eBinOpen fileref) (opened fileref rest s)) := by
  rw [exec, execInsbin, takeBinFile_listed (s := record (.openBinary fileref) s) h]
  rfl

theorem exec_insbin_short {b : List Byte} (h : s.env.binaries = .file b :: rest) (hb : b.length < 2) :
    exec (.insbin fileref) s = .next (raise (.eBinShort b.length) (opened fileref rest s)) := by
  rw [exec, execInsbin, takeBinFile_listed (s := record (.openBinary fileref) s) h]
  match b, hb with
  | [], _ => rfl
  | [_], _ => rfl

theorem exec_insbin_file {b0 b1 : Byte} {data : List Byte}
    (h : s.env.binaries = .file (b0 :: b1 :: data) :: rest) : exec (.insbin fileref) s =
      .next (answer .none (insertBinary b0 b1 data (opened fileref rest s))) := by
  rw [exec, execInsbin, takeBinFile_listed (s := record (.openBinary fileref) s) h]
  rfl

/-- Settles O21, by the host's answer. -/
theorem insbinRefusesBadFiles : Obligations.InsbinRefusesBadFiles := by
  refine fun s fileref => ⟨⟨_, rfl⟩, fun f rest h => ⟨fun hf => ?_, fun b hf hb => ?_⟩⟩
  · subst hf
    exact exec_insbin_cannotOpen h
  · subst hf
    exact exec_insbin_short h hb

end

/-! ## The byte writes of an insertion -/

/-- Where a file that begins with these bytes puts its data. -/
def fileStart (b0 b1 : Byte) : Nat := 256 * b0.toNat + b1.toNat

/-- The data bytes in a row from address `start`. -/
def dataWrites (start : Nat) (data : List Byte) : List (Addr × Byte) :=
  data.mapIdx fun k b => (BitVec.ofNat 24 (start + k), b)

/-- The two slots, high byte first, with the first address of the data and the one after its last. -/
def slotWrites (c : Config) (b0 b1 : Byte) (stop : Nat) : List (Addr × Byte) :=
  [(c.loadStartSlot, b0), (c.loadStartSlot + 1#24, b1),
    (c.loadEndSlot, BitVec.ofNat 8 (stop % 65536 / 256)), (c.loadEndSlot + 1#24, BitVec.ofNat 8 stop)]

/-- All byte writes of INSBIN for the file `b0 :: b1 :: data`. -/
def insertionWrites (c : Config) (b0 b1 : Byte) (data : List Byte) : List (Addr × Byte) :=
  dataWrites (fileStart b0 b1) data ++ slotWrites c b0 b1 (fileStart b0 b1 + data.length)

theorem writeAll_append (l l' : List (Addr × Byte)) (s : State) :
    writeAll (l ++ l') s = writeAll l' (writeAll l s) := List.foldl_append ..

theorem writeAll_answer (r : Result) (writes : List (Addr × Byte)) (s : State) :
    writeAll writes (answer r s) = answer r (writeAll writes s) :=
  List.foldl_hom (answer r) fun u (w : Addr × Byte) => write8_answer r u w.1 w.2

theorem writeBytes_eq_writeAll (start : Nat) (data : List Byte) (s : State) :
    writeBytes (BitVec.ofNat 24 start) data s = writeAll (dataWrites start data) s := by
  induction data generalizing start s with
  | nil => rfl
  | cons b rest ih =>
    have hnext : nextAddress (BitVec.ofNat 24 start) = BitVec.ofNat 24 (start + 1) := (BitVec.ofNat_add ..).symm
    have hwrites : dataWrites start (b :: rest) = (BitVec.ofNat 24 start, b) :: dataWrites (start + 1) rest := by
      simp only [dataWrites, List.mapIdx_cons, Nat.add_zero, Nat.add_assoc, Nat.add_comm 1]
    rw [writeBytes, hnext, ih, hwrites]
    rfl

/-- A word from its bytes as a number. -/
theorem ofNat_join (b0 b1 : Byte) : BitVec.ofNat 16 (fileStart b0 b1) = b0 ++ b1 := by
  rw [fileStart, ← append_byte_toNat, ofNat_toNat_self]

theorem write16_ofNat (a : Addr) (n : Nat) (s : State) : write16 a (BitVec.ofNat 16 n) s =
    writeAll [(a, BitVec.ofNat 8 (n % 65536 / 256)), (a + 1#24, BitVec.ofNat 8 n)] s := by
  have hlo : lowByte (BitVec.ofNat 16 n) = BitVec.ofNat 8 n := by
    rw [lowByte_eq]
    bv_omega
  rw [write16, highByte_eq, hlo, BitVec.toNat_ofNat]
  rfl

/-- A word of the two bytes is written as them. -/
theorem write16_join (a : Addr) (b0 b1 : Byte) (s : State) :
    write16 a (b0 ++ b1) s = writeAll [(a, b0), (a + 1#24, b1)] s := by
  have hhi : highByte (b0 ++ b1) = b0 := BitVec.extractLsb'_append_eq_left
  have hlo : lowByte (b0 ++ b1) = b1 := BitVec.extractLsb'_append_eq_right
  rw [write16, hhi, hlo]
  rfl

/-- The two WR16 of the slots. -/
theorem writeSlots_eq_writeAll (c : Config) (b0 b1 : Byte) (n : Nat) (s : State) :
    write16 c.loadEndSlot (BitVec.ofNat 16 (fileStart b0 b1 + n))
      (write16 c.loadStartSlot (b0 ++ b1) s) =
    writeAll (slotWrites c b0 b1 (fileStart b0 b1 + n)) s := by
  rw [write16_join, write16_ofNat]
  rfl

theorem insertBinary_eq_writeAll (b0 b1 : Byte) (data : List Byte) (s : State) :
    insertBinary b0 b1 data s = writeAll (insertionWrites s.cfg b0 b1 data) s := by
  have hstart : (b0 ++ b1).setWidth 24 = BitVec.ofNat 24 (fileStart b0 b1) := by
    rw [fileStart, ← append_byte_toNat, BitVec.ofNat_toNat]
  have hstop : b0 ++ b1 + BitVec.ofNat 16 data.length =
      BitVec.ofNat 16 (fileStart b0 b1 + data.length) := by
    rw [BitVec.ofNat_add, ofNat_join]
  have hcfg : (writeBytes ((b0 ++ b1).setWidth 24) data s).cfg = s.cfg := cfg_of_own (own_writeBytes _ _ _)
  rw [insertBinary, writeSlots, hcfg, hstop, writeSlots_eq_writeAll, hstart, writeBytes_eq_writeAll,
    insertionWrites, writeAll_append]

theorem exec_insbin_writeAll {s : State} {fileref : Word} {b0 b1 : Byte} {data : List Byte}
    {rest : List BinFile} (h : s.env.binaries = .file (b0 :: b1 :: data) :: rest) :
    exec (.insbin fileref) s =
      .next (answer .none (writeAll (insertionWrites s.cfg b0 b1 data) (opened fileref rest s))) := by
  rw [exec_insbin_file h, insertBinary_eq_writeAll]
  rfl

/-! ## INSBIN as bus commands -/

theorem map_mapIdx {α β γ : Type} (f : Nat → α → β) (g : β → γ) (l : List α) :
    (l.mapIdx f).map g = l.mapIdx fun k x => g (f k x) := by
  rw [List.mapIdx_eq_zipIdx_map, List.mapIdx_eq_zipIdx_map, List.map_map]
  rfl

/-- WR8s in a row, then two WR16: the writes of each, with the ports of the last. -/
theorem execAll_wr8s_wr16_wr16 (writes : List (Addr × Byte)) (a a' : Addr) (v v' : Half) (s : State) :
    execAll (writes.map (fun w => .wr8 w.1 w.2) ++ [.wr16 a v, .wr16 a' v']) s =
      some (answer .none (write16 a' v' (write16 a v (writeAll writes s)))) := by
  induction writes generalizing s with
  | nil =>
    have h : execAll [.wr16 a v, .wr16 a' v'] s =
      some (answer .none (write16 a' v' (answer .none (write16 a v s)))) := rfl
    rw [write16_answer, answer_answer] at h
    exact h
  | cons w rest ih =>
    refine (ih (answer .none (write8 w.1 w.2 s))).trans ?_
    rw [writeAll_answer, write16_answer, write16_answer, answer_answer]
    rfl

/-- The writes of an insertion, as the WR8 of each data byte and the WR16 of the two slots. -/
theorem execAll_insertion (b0 b1 : Byte) (data : List Byte) (s : State) :
    execAll (data.mapIdx (fun k b => .wr8 (BitVec.ofNat 24 (fileStart b0 b1 + k)) b) ++
        [.wr16 s.cfg.loadStartSlot (BitVec.ofNat 16 (fileStart b0 b1)),
          .wr16 s.cfg.loadEndSlot (BitVec.ofNat 16 (fileStart b0 b1 + data.length))]) s =
      some (answer .none (writeAll (insertionWrites s.cfg b0 b1 data) s)) := by
  have hdata : (dataWrites (fileStart b0 b1) data).map (fun w => Instr.wr8 w.1 w.2) =
      data.mapIdx fun k b => .wr8 (BitVec.ofNat 24 (fileStart b0 b1 + k)) b := map_mapIdx _ _ _
  rw [← hdata, execAll_wr8s_wr16_wr16, ofNat_join, writeSlots_eq_writeAll, ← writeAll_append, insertionWrites]

/-! ## The calls and the bytes of an insertion -/

section
variable {c : Config} {x : Addr} {old v b0 b1 : Byte} {data : List Byte} {writes : List (Addr × Byte)}

theorem writeCalls_of_memory {s : State} (h : ∀ w ∈ writes, writesDevice s w.1 = false) :
    writeCalls s.cfg writes = [] :=
  List.filterMap_eq_nil_iff.mpr fun w hw => writeCall_of_memory (h w hw) w.2

/-- The calls of an insertion, in the order of its bytes. -/
theorem writeCalls_insertionWrites (c : Config) (b0 b1 : Byte) (data : List Byte) :
    writeCalls c (insertionWrites c b0 b1 data) =
      (data.mapIdx (fun k b => writeCall c (BitVec.ofNat 24 (fileStart b0 b1 + k)) b) ++
        (slotWrites c b0 b1 (fileStart b0 b1 + data.length)).map
          fun w => writeCall c w.1 w.2).filterMap id := by
  have hdata (start : Nat) : (dataWrites start data).map (fun w => writeCall c w.1 w.2) =
      data.mapIdx fun k b => writeCall c (BitVec.ofNat 24 (start + k)) b := map_mapIdx _ _ _
  rw [← hdata, ← List.map_append, ← insertionWrites, List.filterMap_map]
  rfl

theorem length_writeCalls_insertionWrites_le (c : Config) (b0 b1 : Byte) (data : List Byte) :
    (writeCalls c (insertionWrites c b0 b1 data)).length ≤ data.length + 4 := by
  refine (List.length_filterMap_le ..).trans (le_of_eq ?_)
  simp [insertionWrites, dataWrites, slotWrites]

/-- Where the devices reached nest no operation, the calls of an insertion are all it records. -/
theorem trace_insertion {s : State} (hq : quietReplies (data.length + 4) s = true) :
    (writeAll (insertionWrites s.cfg b0 b1 data) s).trace =
      s.trace ++ (writeCalls s.cfg (insertionWrites s.cfg b0 b1 data)).map .device :=
  congrArg State.trace
    (writeAll_quiet (quietReplies_mono hq (length_writeCalls_insertionWrites_le s.cfg b0 b1 data)))

theorem eq_of_selectIo_vram {a : Addr} (h : selectIo c a = .vram x) : a = x := by
  unfold selectIo at h
  cases hp : subpageOf c a <;> rw [hp] at h
  case unmapped => exact Target.vram.inj h
  all_goals cases h

/-- A write that selects video memory selects the byte of its own address. -/
theorem eq_of_selectWrite_vram {a : Addr} (h : selectWrite c a = .vram x) : a = x := by
  unfold selectWrite at h
  split at h
  · cases h
  · split at h
    · exact eq_of_selectIo_vram h
    · split at h
      · cases h
      · exact Target.vram.inj h

theorem byteAfter_self (h : selectWrite c x = .vram x) : byteAfter c x old (x, v) = v := if_pos h

/-- Writes that put no other value at `x` leave it. -/
theorem foldl_byteAfter_of_agree (h : ∀ w ∈ writes, selectWrite c w.1 = .vram x → w.2 = old) :
    writes.foldl (byteAfter c x) old = old := by
  induction writes with
  | nil => rfl
  | cons w rest ih =>
    have hw : byteAfter c x old w = old := by
      unfold byteAfter
      split
      · exact h w List.mem_cons_self ‹_›
      · rfl
    rw [List.foldl_cons, hw]
    exact ih fun w hw => h w (List.mem_cons_of_mem _ hw)

/-- A byte written with one value only has it in the end. -/
theorem foldl_byteAfter_of_mem (hx : selectWrite c x = .vram x) (hmem : (x, v) ∈ writes)
    (h : ∀ w ∈ writes, w.1 = x → w.2 = v) : writes.foldl (byteAfter c x) old = v := by
  induction writes generalizing old with
  | nil => cases hmem
  | cons w rest ih =>
    have hrest : ∀ w ∈ rest, w.1 = x → w.2 = v := fun w hw => h w (List.mem_cons_of_mem _ hw)
    rw [List.foldl_cons]
    obtain rfl | hmem := List.mem_cons.mp hmem
    · rw [byteAfter_self hx]
      exact foldl_byteAfter_of_agree fun w hw hsel => hrest w hw (eq_of_selectWrite_vram hsel)
    · exact ih hmem hrest

/-- The bytes of the two slots. -/
def slotBytes (c : Config) : List Addr :=
  [c.loadStartSlot, c.loadStartSlot + 1#24, c.loadEndSlot, c.loadEndSlot + 1#24]

/-- Each byte write of an insertion is of a data byte or of a slot byte. -/
theorem mem_insertionWrites {w : Addr × Byte} (h : w ∈ insertionWrites c b0 b1 data) :
    (∃ k < data.length, w = (BitVec.ofNat 24 (fileStart b0 b1 + k), data.getD k 0)) ∨
    w.1 ∈ slotBytes c := by
  obtain h | h := List.mem_append.mp h
  · obtain ⟨k, hk, rfl⟩ := List.mem_mapIdx.mp h
    exact .inl ⟨k, hk, by rw [List.getD_eq_getElem _ _ hk]⟩
  · exact .inr (List.mem_map_of_mem (f := Prod.fst) h)

/-- A data byte outside the slots stays: the addresses of at most 2^24 bytes in a row differ. -/
theorem foldl_insertionWrites_data {k : Nat} (hlen : data.length ≤ 16777216) (hk : k < data.length)
    (hslot : BitVec.ofNat 24 (fileStart b0 b1 + k) ∉ slotBytes c)
    (hx : selectWrite c (BitVec.ofNat 24 (fileStart b0 b1 + k)) =
      .vram (BitVec.ofNat 24 (fileStart b0 b1 + k))) :
    (insertionWrites c b0 b1 data).foldl
      (byteAfter c (BitVec.ofNat 24 (fileStart b0 b1 + k))) old = data.getD k 0 := by
  refine foldl_byteAfter_of_mem hx (List.mem_append_left _ (List.mem_mapIdx.mpr
    ⟨k, hk, by rw [List.getD_eq_getElem _ _ hk]⟩)) fun w hw hwx => ?_
  obtain ⟨j, hj, rfl⟩ | hw := mem_insertionWrites hw
  · have hjk := congrArg BitVec.toNat hwx
    simp only [BitVec.toNat_ofNat] at hjk
    have : j = k := by omega
    rw [this]
  · exact absurd (hwx ▸ hw) hslot

/-- A byte that no write selects stays as it was. -/
theorem foldl_insertionWrites_other
    (h : ∀ w ∈ insertionWrites c b0 b1 data, selectWrite c w.1 ≠ .vram x) :
    (insertionWrites c b0 b1 data).foldl (byteAfter c x) old = old :=
  foldl_byteAfter_of_agree fun w hw hsel => absurd hsel (h w hw)

/-- The slots are written after the data: a slot byte has the value of the last slot write at it. -/
theorem foldl_insertionWrites_slot {before after : List (Addr × Byte)} (hx : selectWrite c x = .vram x)
    (hslots : slotWrites c b0 b1 (fileStart b0 b1 + data.length) = before ++ (x, v) :: after)
    (hafter : ∀ w ∈ after, w.1 ≠ x) : (insertionWrites c b0 b1 data).foldl (byteAfter c x) old = v := by
  rw [insertionWrites, hslots, List.foldl_append, List.foldl_append, List.foldl_cons, byteAfter_self hx]
  exact foldl_byteAfter_of_agree fun w hw hsel => absurd (eq_of_selectWrite_vram hsel) (hafter w hw)

end

/-- Settles O22: all of INSBIN is one row of byte writes, so `writeAll_quiet` and `writeAll_listed` give its calls and
its bytes. -/
theorem insbinWritesDataThenSlots : Obligations.InsbinWritesDataThenSlots := by
  intro s fileref b0 b1 data rest h start stop at_ slots op
  have hexec := exec_insbin_writeAll (fileref := fileref) h
  refine ⟨?_, fun hq => ⟨_, hexec, ?_⟩, fun hlen hdata hslots => ⟨_, hexec, rfl, rfl, ?_⟩⟩
  · exact ⟨_, execAll_insertion b0 b1 data op, hexec⟩
  · have htrace := trace_insertion (s := op) (b0 := b0) (b1 := b1) hq
    rw [writeCalls_insertionWrites] at htrace
    exact htrace
  · have hmem : ∀ w ∈ insertionWrites s.cfg b0 b1 data, writesDevice (opened fileref rest s) w.1 = false := by
      intro w hw
      obtain ⟨k, hk, rfl⟩ | hw := mem_insertionWrites hw
      · exact hdata k hk
      · exact hslots w.1 hw
    obtain ⟨hbytes, hframe⟩ := writeAll_listed (s := opened fileref rest s) (replies := [])
      (writeCalls_of_memory hmem) rfl nofun rfl
    refine ⟨congrArg State.block hframe, (exec_cfg_commands hexec).2, fun k hk hslot hx => ?_,
      fun x hslot hne => ?_, fun x hx => ?_, fun hx => ?_, fun hx => ?_, fun hx h1 h2 => ?_,
      fun hx h1 h2 => ?_⟩
    · exact (hbytes _).trans (foldl_insertionWrites_data hlen hk hslot hx)
    · refine (hbytes x).trans (foldl_insertionWrites_other fun w hw hsel => ?_)
      have hwx := eq_of_selectWrite_vram hsel
      obtain ⟨k, hk, rfl⟩ | hw := mem_insertionWrites hw
      · exact hne k hk hwx.symm
      · exact hslot (hwx ▸ hw)
    · refine (hbytes x).trans (foldl_insertionWrites_other fun w hw hsel => ?_)
      have hwx := eq_of_selectWrite_vram hsel
      rw [hwx] at hsel
      cases hx.symm.trans hsel
    · exact (hbytes _).trans (foldl_insertionWrites_slot hx (before := [_, _]) rfl
        (List.forall_mem_singleton.mpr (ne_add_one _).symm))
    · exact (hbytes _).trans (foldl_insertionWrites_slot hx (before := [_, _, _]) rfl nofun)
    · exact (hbytes _).trans (foldl_insertionWrites_slot hx (before := []) rfl (List.forall_mem_cons.mpr
        ⟨(ne_add_one _).symm, List.forall_mem_cons.mpr ⟨h1.symm, List.forall_mem_singleton.mpr h2.symm⟩⟩))
    · exact (hbytes _).trans (foldl_insertionWrites_slot hx (before := [_]) rfl
        (List.forall_mem_cons.mpr ⟨h1.symm, List.forall_mem_singleton.mpr h2.symm⟩))

end Sys2Proof.Machine
end

section
/-! The aggregate level (41_irq_encoder.md R110, R114): the scan of the table is the maximum of what its lines request,
said by table and by handle. -/

namespace Sys2Proof.Machine

/-! ## The scan is a maximum -/

/-- What a line requests: its level where it is pulled, 0 where it is released. -/
def IrqLine.request (line : IrqLine) : Nat := if line.asserted then line.level else 0

theorem IrqLine.request_of_asserted {line : IrqLine} (h : line.asserted = true) : line.request = line.level :=
  if_pos h

theorem IrqLine.request_eq_zero_or (line : IrqLine) :
    line.request = 0 ∨ line.asserted = true ∧ line.level = line.request := by
  by_cases h : line.asserted = true
  · exact .inr ⟨h, (request_of_asserted h).symm⟩
  · exact .inl (if_neg h)

theorem raiseLevel_eq_max (l : Nat) (line : IrqLine) : raiseLevel l line = max l line.request := by
  cases h : line.asserted with
  | true =>
    simp only [raiseLevel, IrqLine.request, h, Bool.true_and, decide_eq_true_eq, if_true]
    split <;> omega
  | false => simp [raiseLevel, IrqLine.request, h]

theorem aggregateLevel_eq_foldl_max (lines : List IrqLine) :
    aggregateLevel lines = (lines.map IrqLine.request).foldl max 0 := by
  rw [List.foldl_map]
  exact congrArg (lines.foldl · 0) (funext fun l => funext (raiseLevel_eq_max l))

/-- The aggregate level is the greatest of 0 and the requests. -/
theorem aggregateLevel_isMax (lines : List IrqLine) :
    aggregateLevel lines ∈ 0 :: lines.map IrqLine.request ∧
    ∀ r ∈ 0 :: lines.map IrqLine.request, r ≤ aggregateLevel lines :=
  List.max?_eq_some_iff.mp (by rw [List.max?_cons', aggregateLevel_eq_foldl_max])

theorem level_le_aggregateLevel {lines : List IrqLine} {line : IrqLine} (hm : line ∈ lines)
    (ha : line.asserted = true) : line.level ≤ aggregateLevel lines :=
  IrqLine.request_of_asserted ha ▸
    (aggregateLevel_isMax lines).2 _ (List.mem_cons_of_mem _ (List.mem_map_of_mem hm))

theorem aggregateLevel_eq_zero_or (lines : List IrqLine) : aggregateLevel lines = 0 ∨
    ∃ line ∈ lines, line.asserted = true ∧ line.level = aggregateLevel lines := by
  obtain hz | hr := List.mem_cons.mp (aggregateLevel_isMax lines).1
  · exact .inl hz
  · obtain ⟨line, hm, hreq⟩ := List.mem_map.mp hr
    exact line.request_eq_zero_or.imp hreq.symm.trans fun ⟨ha, hl⟩ => ⟨line, hm, ha, hl.trans hreq⟩

/-- Settles O23: the level is the greatest of 0 and the requests, so it is 0 or the level of a pulled line. -/
theorem theLevelIsTheMaximumOfThePulledLines : Obligations.TheLevelIsTheMaximumOfThePulledLines := by
  refine fun lines => ⟨fun _ => level_le_aggregateLevel, aggregateLevel_eq_zero_or lines, fun hlt => ?_⟩
  obtain hz | ⟨line, hm, -, hl⟩ := aggregateLevel_eq_zero_or lines
  · rw [hz]
    decide
  · exact hl ▸ hlt line hm

/-- A line of level 0 requests 0 whether it is pulled or released. -/
theorem map_request_setLine_of_level_zero {lines : List IrqLine} {h : Nat} {l : IrqLine}
    (hl : lines[h]? = some l) (hz : l.level = 0) (p : Bool) :
    (setLine lines h p).map IrqLine.request = lines.map IrqLine.request := by
  apply List.ext_getElem?
  intro j
  rw [List.getElem?_map, List.getElem?_map, getElem?_setLine]
  by_cases hj : h = j
  · subst hj
    simp [hl, IrqLine.request, hz]
  · rw [if_neg hj]

/-- Settles O24: the level depends on the requests alone, and driving a line of level 0 changes none. -/
theorem levelZeroLinesRequestNothing : Obligations.LevelZeroLinesRequestNothing := by
  intro lines h l hl hz
  simp only [aggregateLevel_eq_foldl_max, map_request_setLine_of_level_zero hl hz]

/-! ## The level by handle -/

section
variable {s : State} {h : Nat}

theorem pulled_iff : s.pulled h = true ↔ ∃ line, s.irqLines[h]? = some line ∧ line.asserted = true := by
  unfold State.pulled
  cases s.irqLines[h]? <;> simp

theorem levels_getElem? {line : IrqLine} (hl : s.irqLines[h]? = some line) : s.levels[h]? = some line.level := by
  rw [State.levels, List.getElem?_map, hl, Option.map_some]

theorem level_le_of_pulled {l : Nat} (hp : s.pulled h = true) (hl : s.levels[h]? = some l) :
    l ≤ aggregateLevel s.irqLines := by
  obtain ⟨line, hline, ha⟩ := pulled_iff.mp hp
  obtain rfl := Option.some.inj ((levels_getElem? hline).symm.trans hl)
  exact level_le_aggregateLevel (List.mem_of_getElem? hline) ha

theorem aggregateLevel_eq_zero_or_pulled (s : State) : aggregateLevel s.irqLines = 0 ∨
    ∃ h, s.pulled h = true ∧ s.levels[h]? = some (aggregateLevel s.irqLines) := by
  refine (aggregateLevel_eq_zero_or s.irqLines).imp_right fun ⟨line, hm, ha, hl⟩ => ?_
  obtain ⟨h, hline⟩ := List.mem_iff_getElem?.mp hm
  exact ⟨h, pulled_iff.mpr ⟨line, hline, ha⟩, hl ▸ levels_getElem? hline⟩

end

end Sys2Proof.Machine
end

section
/-! The commands of the interrupt encoder (41_irq_encoder.md R111 to R118): one equation for each, and what rows of them
leave. -/

namespace Sys2Proof.Machine

theorem execAll_cons {i : Instr} {s t : State} (h : exec i s = .next t) (rest : List Instr) :
    execAll (i :: rest) s = execAll rest t := by simp only [execAll, h]

/-! ## Registration (R111, R118) -/

theorem exec_irqreg_of_lt {s : State} (h : s.irqLines.length < 256) (level : Nat) :
    exec (.irqreg level) s = .next (answer (.word (zext32 s.irqLines.length))
      { s with irqLines := s.irqLines ++ [{ level := level, asserted := false }] }) :=
  congrArg Host.Outcome.next (if_neg (Nat.ne_of_lt h))

theorem exec_irqreg_of_full {s : State} (h : s.irqLines.length = 256) (level : Nat) :
    exec (.irqreg level) s = .next (raise (.eIrqFull level) s) :=
  congrArg Host.Outcome.next (if_pos h)

/-- The command word of an IRQ command as a number, where its operand fits (30_encoding.md R79). -/
theorem irqWord_toNat (op : BitVec 4) {n : Nat} (h : n < 256) :
    (commandWord 2 op (BitVec.ofNat 24 n)).toNat = 0x20000000 + op.toNat * 0x1000000 + n := by
  rw [commandWord_toNat, BitVec.toNat_ofNat, Nat.mod_eq_of_lt (by omega)]
  rfl

/-- Settles O25, by whether the table has room. -/
theorem irqregAppendsAReleasedLine : Obligations.IrqregAppendsAReleasedLine :=
  fun _ level => ⟨fun h => irqWord_toNat 0 (by omega), (exec_irqreg_of_lt · level), (exec_irqreg_of_full · level),
    aggregateLevel_append_released _ level⟩

/-- Registrations that fit the table append their levels. -/
theorem execAll_irqregs {levels : List Nat} {s : State} (h : s.irqLines.length + levels.length ≤ 256) :
    ∃ t, execAll (levels.map .irqreg) s = some t ∧ t.levels = s.levels ++ levels := by
  induction levels generalizing s with
  | nil => exact ⟨s, rfl, (List.append_nil _).symm⟩
  | cons level rest ih =>
    have hstep := exec_irqreg_of_lt (s := s) (by rw [List.length_cons] at h; omega) level
    obtain ⟨t, ht, hlevels⟩ := ih (s := answer (.word (zext32 s.irqLines.length))
      { s with irqLines := s.irqLines ++ [⟨level, false⟩] }) (by simpa [Nat.add_assoc, Nat.add_comm 1] using h)
    exact ⟨t, (execAll_cons hstep _).trans ht, by simpa [State.levels] using hlevels⟩

theorem length_levels (s : State) : s.levels.length = s.irqCount := List.length_map _

/-- Settles O29: the handle answered is the number of levels registered before, and no command drops a level. -/
theorem handlesAreDense : Obligations.HandlesAreDense := by
  refine ⟨fun s levels level hs hlen => ?_, fun i s t h => ?_⟩
  · obtain ⟨t, ht, hlevels⟩ := execAll_irqregs (s := s) (levels := levels) (by simpa [hs] using Nat.le_of_lt hlen)
    have hnone : s.levels = [] := congrArg (List.map IrqLine.level) hs
    rw [hnone, List.nil_append] at hlevels
    have hcount : t.irqLines.length = levels.length := hlevels ▸ (length_levels t).symm
    refine ⟨t, _, ht, exec_irqreg_of_lt (hcount ▸ hlen) level, rfl, by rw [← hcount]; rfl, ?_⟩
    simpa [State.levels] using hlevels
  · rw [← length_levels, ← length_levels]
    exact (registeredLinesKeepTheirHandleAndLevel i s t h).1.length_le

/-! ## Driving a line (R112, R113), and recomputing and reading the level (R114, R115) -/

/-- The level is set from the table, and pushed where a CPU is attached. -/
theorem recompute_eq (s : State) : recompute s = { s with
    ipl := aggregateLevel s.irqLines
    trace := s.trace ++ if s.cfg.cpuAttached then [.setIpl (aggregateLevel s.irqLines)] else [] } := by
  cases h : s.cfg.cpuAttached <;> simp [recompute, record, h]

theorem exec_driveCommand (d : Nat × Bool) (s : State) :
    exec (driveCommand d) s = .next (raise (driveLine d.1 d.2 s).1 (driveLine d.1 d.2 s).2) := by
  obtain ⟨h, p⟩ := d
  cases p with
  | true => rfl
  | false => rfl

theorem exec_driveCommand_of_lt {d : Nat × Bool} {s : State} (h : d.1 < s.irqLines.length) :
    exec (driveCommand d) s =
      .next (raise .ok (recompute { s with irqLines := setLine s.irqLines d.1 d.2 })) := by
  have hd : driveLine d.1 d.2 s = (.ok, recompute { s with irqLines := setLine s.irqLines d.1 d.2 }) := if_pos h
  rw [exec_driveCommand, hd]

theorem exec_driveCommand_of_ge {d : Nat × Bool} {s : State} (h : s.irqLines.length ≤ d.1) :
    exec (driveCommand d) s = .next (raise (.eBadHandle d.1) s) := by
  have hd : driveLine d.1 d.2 s = (.eBadHandle d.1, s) := if_neg (Nat.not_lt.mpr h)
  rw [exec_driveCommand, hd]

/-- Settles O26, by whether the handle is registered. -/
theorem irqasrAndIrqdeaDriveALine : Obligations.IrqasrAndIrqdeaDriveALine := by
  refine fun s h p => ⟨fun hh => ?_, fun hh => ?_,
    exec_driveCommand_of_ge (d := (h, p))⟩
  · cases p with
    | true => exact irqWord_toNat 1 hh
    | false => exact irqWord_toNat 2 hh
  · rw [exec_driveCommand_of_lt hh, recompute_eq]
    rfl

theorem exec_irqget (s : State) : exec .irqget s = .next (answer (.word (zext32 s.ipl)) s) := rfl

/-- Settles O27: both words have A = 0, and the invariant holds the level to that of the table. -/
theorem irqrcpAndIrqgetGiveTheLevel : Obligations.IrqrcpAndIrqgetGiveTheLevel := by
  refine ⟨decode_irqWord 3 0, decode_irqWord 4 0, fun s => ⟨?_, exec_irqget s, fun hinv => ?_⟩⟩
  · exact congrArg (fun t => Host.Outcome.next (answer .none t)) (recompute_eq s)
  · rw [← hinv.ipl_eq]
    exact exec_irqget s

/-! ## Any order of asserts and deasserts (R116) -/

theorem map_level_setLine (lines : List IrqLine) (h : Nat) (p : Bool) :
    (setLine lines h p).map IrqLine.level = lines.map IrqLine.level :=
  map_modify_of_eq IrqLine.level (fun line => { line with asserted := p }) (fun _ => rfl) lines h

theorem pulled_of_setLine {s t : State} {d : Nat × Bool} (hd : d.1 < s.irqLines.length)
    (ht : t.irqLines = setLine s.irqLines d.1 d.2) (h : Nat) :
    t.pulled h = if d.1 = h then d.2 else s.pulled h := by
  unfold State.pulled
  rw [ht, getElem?_setLine]
  by_cases hh : d.1 = h
  · subst hh
    simp [List.getElem?_eq_getElem hd]
  · simp only [if_neg hh]

/-- What asserts and deasserts of registered lines leave; the level is that of the table after any one of them. -/
theorem execAll_drives {drives : List (Nat × Bool)} {s : State} (hreg : ∀ d ∈ drives, d.1 < s.irqLines.length)
    (hipl : drives = [] → s.ipl = aggregateLevel s.irqLines) :
    ∃ t, execAll (drives.map driveCommand) s = some t ∧ t.levels = s.levels ∧
      (∀ h, t.pulled h = pulledAfter h (s.pulled h) drives) ∧ t.ipl = aggregateLevel t.irqLines := by
  induction drives generalizing s with
  | nil => exact ⟨s, rfl, rfl, fun _ => rfl, hipl rfl⟩
  | cons d rest ih =>
    obtain ⟨hd, hrest⟩ := List.forall_mem_cons.mp hreg
    have hstep := exec_driveCommand_of_lt hd
    generalize hu : raise .ok (recompute { s with irqLines := setLine s.irqLines d.1 d.2 }) = u at hstep
    have hlines : u.irqLines = setLine s.irqLines d.1 d.2 := by simp [← hu]
    have hlevel : u.ipl = aggregateLevel u.irqLines := by simp [← hu]
    have hlevels : u.levels = s.levels := by rw [State.levels, hlines, map_level_setLine, State.levels]
    obtain ⟨t, ht, htl, htp, hti⟩ := ih (s := u) (by simpa [hlines] using hrest) fun _ => hlevel
    refine ⟨t, (execAll_cons hstep _).trans ht, htl.trans hlevels, fun h => ?_, hti⟩
    rw [htp, pulled_of_setLine hd hlines]
    rfl

/-- Settles O28: the last command sets the level to that of the table, and the table says which lines are pulled. -/
theorem theLevelForgetsTheOrderOfAsserts : Obligations.TheLevelForgetsTheOrderOfAsserts := by
  intro drives s hne hreg
  obtain ⟨t, ht, hlevels, hpulled, hipl⟩ := execAll_drives hreg fun hnil => absurd hnil hne
  refine ⟨t, ht, hlevels, hpulled, fun h l hp hl => ?_, ?_⟩
  · rw [← hpulled] at hp
    rw [← hlevels] at hl
    exact hipl ▸ level_le_of_pulled hp hl
  · simp only [← hpulled, ← hlevels, hipl]
    exact aggregateLevel_eq_zero_or_pulled t

end Sys2Proof.Machine
end

section
/-! The frequency divider (42_freq_divider.md R131 to R134): what one FDCLK leaves, what a row of them adds up to, and
that no command but FDCLK and RUN writes the remainder. -/

namespace Sys2Proof.Machine

/-! ## One call (R131) -/

/-- The units whose quotient and remainder a call of `clock` takes. -/
def unitsOfCall (n pct : Nat) (s : State) : Nat := n * pct * s.cfg.soundHz + s.divRem

/-- The state after an FDCLK. -/
def afterFdclk (n pct : Nat) (s : State) : State :=
  answer (.cycles (clock n pct s).1) (clock n pct s).2

theorem exec_fdclk (n pct : Nat) (s : State) : exec (.fdclk pct n) s = .next (afterFdclk n pct s) := rfl

@[simp] theorem afterFdclk_cfg (n pct : Nat) (s : State) : (afterFdclk n pct s).cfg = s.cfg := rfl

@[simp] theorem afterFdclk_divRem (n pct : Nat) (s : State) :
    (afterFdclk n pct s).divRem = unitsOfCall n pct s % (100 * s.cfg.cpuHz) := rfl

theorem toNat_dividerOutput {q : Nat} (h : q < 2 ^ 64) : (dividerOutput q).toNat = q := by
  rw [dividerOutput, if_pos h, BitVec.toNat_ofNat, Nat.mod_eq_of_lt h]

/-- A quotient that fits 64 bits is the output. -/
theorem toNat_clock {n pct : Nat} {s : State} (h : unitsOfCall n pct s / (100 * s.cfg.cpuHz) < 2 ^ 64) :
    (clock n pct s).1.toNat = unitsOfCall n pct s / (100 * s.cfg.cpuHz) := toNat_dividerOutput h

/-- Settles O32: the result is the quotient where it has 64 bits. -/
theorem fdclkAnswersTheQuotient : Obligations.FdclkAnswersTheQuotient :=
  fun s pct n => ⟨_, exec_fdclk n pct s, toNat_clock⟩

/-- A remainder below the divisor adds at most one to the quotient. -/
theorem unitsOfCall_div_lt {n pct : Nat} {s : State} (hr : s.divRem < 100 * s.cfg.cpuHz)
    (hfit : n * pct * s.cfg.soundHz / (100 * s.cfg.cpuHz) + 1 < 2 ^ 64) :
    unitsOfCall n pct s / (100 * s.cfg.cpuHz) < 2 ^ 64 := by
  have hd : 0 < 100 * s.cfg.cpuHz := Nat.zero_lt_of_lt hr
  refine Nat.lt_of_le_of_lt ?_ hfit
  rw [← Nat.add_div_right _ hd]
  exact Nat.div_le_div_right (Nat.add_le_add_left hr.le _)

/-! ## A row of calls (R132, R133) -/

/-- The units of a row of calls, the remainder before it among them. -/
def unitsOfCalls (calls : List (Nat × Nat)) (s : State) : Nat :=
  (calls.map fun c => c.1 * c.2 * s.cfg.soundHz).sum + s.divRem

theorem unitsOfCalls_afterFdclk (n pct : Nat) (rest : List (Nat × Nat)) (s : State) :
    unitsOfCalls ((n, pct) :: rest) s =
      unitsOfCalls rest (afterFdclk n pct s) +
        100 * s.cfg.cpuHz * (unitsOfCall n pct s / (100 * s.cfg.cpuHz)) := by
  have h := Nat.mod_add_div (unitsOfCall n pct s) (100 * s.cfg.cpuHz)
  have hu : unitsOfCall n pct s = n * pct * s.cfg.soundHz + s.divRem := rfl
  simp only [unitsOfCalls, List.map_cons, List.sum_cons, afterFdclk_cfg, afterFdclk_divRem]
  omega

theorem fdclkAll_cons {n pct total : Nat} {rest : List (Nat × Nat)} {s t : State}
    (h : fdclkAll rest (afterFdclk n pct s) = some (total, t)) :
    fdclkAll ((n, pct) :: rest) s = some ((clock n pct s).1.toNat + total, t) := by
  rw [fdclkAll, exec_fdclk]
  simp only [h]
  rfl

/-- Each output fits 64 bits whatever remainder below the divisor the call meets. -/
def OutputsFit (calls : List (Nat × Nat)) (s : State) : Prop :=
  ∀ c ∈ calls, c.1 * c.2 * s.cfg.soundHz / (100 * s.cfg.cpuHz) + 1 < 2 ^ 64

/-- A row of calls answers and keeps what one division of all its units would. -/
theorem fdclkAll_units (calls : List (Nat × Nat)) {s : State} (hr : s.divRem < 100 * s.cfg.cpuHz) :
    ∃ total t, fdclkAll calls s = some (total, t) ∧
      t.divRem = unitsOfCalls calls s % (100 * s.cfg.cpuHz) ∧
      (OutputsFit calls s → total = unitsOfCalls calls s / (100 * s.cfg.cpuHz)) := by
  have hd : 0 < 100 * s.cfg.cpuHz := Nat.zero_lt_of_lt hr
  induction calls generalizing s with
  | nil =>
    have hu : unitsOfCalls [] s = s.divRem := Nat.zero_add _
    exact ⟨0, s, rfl, by rw [hu, Nat.mod_eq_of_lt hr], fun _ => by rw [hu, Nat.div_eq_of_lt hr]⟩
  | cons c rest ih =>
    obtain ⟨n, pct⟩ := c
    obtain ⟨total, t, ht, hrem, htotal⟩ := ih (s := afterFdclk n pct s) (Nat.mod_lt _ hd) hd
    refine ⟨_, t, fdclkAll_cons ht, ?_, fun hfit => ?_⟩
    · rw [unitsOfCalls_afterFdclk, Nat.add_mul_mod_self_left, hrem, afterFdclk_cfg]
    · obtain ⟨hc, hrest⟩ := List.forall_mem_cons.mp hfit
      rw [unitsOfCalls_afterFdclk, Nat.add_mul_div_left _ _ hd, htotal hrest, afterFdclk_cfg,
        toNat_clock (unitsOfCall_div_lt hr hc), Nat.add_comm]

/-- From no remainder and at 100 percent, the units are the source cycles scaled (R132). -/
theorem unitsOfCalls_unscaled {calls : List (Nat × Nat)} {s : State} (hr : s.divRem = 0)
    (hp : ∀ c ∈ calls, c.2 = 100) :
    unitsOfCalls calls s = 100 * ((calls.map Prod.fst).sum * s.cfg.soundHz) := by
  have hmap : (calls.map fun c => c.1 * c.2 * s.cfg.soundHz) =
      calls.map fun c => c.1 * (100 * s.cfg.soundHz) :=
    List.map_congr_left fun c hc => by rw [hp c hc, Nat.mul_assoc]
  rw [unitsOfCalls, hr, hmap, List.sum_map_mul_right, Nat.mul_left_comm]
  rfl

/-- Settles O33: the row is one division, which at 100 percent is that of `C * T` by `S`. -/
theorem theDividerDoesNotDrift : Obligations.TheDividerDoesNotDrift := by
  intro calls s hcpu hr units source
  obtain ⟨total, t, ht, hrem, htotal⟩ := fdclkAll_units calls hr
  refine ⟨total, t, ht, hrem, fun hfit => ⟨htotal hfit, fun hzero hp => ?_⟩⟩
  have hq : total = source * s.cfg.soundHz / s.cfg.cpuHz := by
    rw [htotal hfit, unitsOfCalls_unscaled hzero hp, Nat.mul_div_mul_left _ _ (by decide)]
  subst hq
  exact ⟨rfl, Nat.div_mul_le_self _ _, (Nat.div_lt_iff_lt_mul hcpu).mp (Nat.lt_succ_self _)⟩

theorem unitsOfCalls_split (n1 n2 pct : Nat) (s : State) :
    unitsOfCalls [(n1, pct), (n2, pct)] s = unitsOfCalls [(n1 + n2, pct)] s := by
  simp [unitsOfCalls, Nat.add_mul]

/-- A part of a call has no larger output than the whole. -/
theorem OutputsFit.split {n1 n2 pct : Nat} {s : State} (h : OutputsFit [(n1 + n2, pct)] s) :
    OutputsFit [(n1, pct), (n2, pct)] s := by
  have part : ∀ n ≤ n1 + n2, n * pct * s.cfg.soundHz / (100 * s.cfg.cpuHz) + 1 < 2 ^ 64 := fun n hn =>
    Nat.lt_of_le_of_lt (by gcongr) (h _ (List.mem_singleton_self _))
  simpa [OutputsFit] using And.intro (part n1 (Nat.le_add_right _ _)) (part n2 (Nat.le_add_left _ _))

/-- Settles O34: both rows have the same units. -/
theorem theDividerForgetsTheGranularity : Obligations.TheDividerForgetsTheGranularity := by
  intro n1 n2 pct s _ hr
  obtain ⟨total, t, ht, htrem, htotal⟩ := fdclkAll_units [(n1 + n2, pct)] hr
  obtain ⟨split, u, hu, hurem, hsplit⟩ := fdclkAll_units [(n1, pct), (n2, pct)] hr
  rw [unitsOfCalls_split] at hurem hsplit
  refine ⟨total, split, t, u, ht, hu, htrem.trans hurem.symm, fun hfit => ?_⟩
  have hwhole : OutputsFit [(n1 + n2, pct)] s := by simpa [OutputsFit] using hfit
  exact (htotal hwhole).trans (hsplit hwhole.split).symm

/-! ## The other commands (R134) -/

/-- Settles O35, command by command. -/
theorem onlyFdclkAndRunChangeTheRemainder : Obligations.OnlyFdclkAndRunChangeTheRemainder := by
  intro i s t h hf hr
  by_cases hi : leavesOwn i = true
  · exact (congrArg State.divRem (own_exec hi h) :)
  · cases i <;> simp only [leavesOwn, not_true_eq_false] at hi
    case ldrom =>
      obtain ⟨_, ho⟩ := own_execLdrom h
      exact (congrArg State.divRem ho :)
    case irqreg level =>
      obtain ⟨-, rfl⟩ | ⟨-, rfl⟩ := execIrqreg_cases h
      · rfl
      · rfl
    case fdclk pct n => exact absurd rfl (hf pct n)
    case run n => exact absurd rfl (hr n)
    case prun n =>
      obtain ⟨-, _, -, -, ho⟩ := own_execPrun h
      exact (congrArg State.divRem ho :)
    case reset =>
      obtain ⟨_, ho⟩ := own_execReset h
      exact (congrArg State.divRem ho :)
    case togmode => exact (congrArg State.divRem (own_execTogmode h) :)
    case togrec => exact (congrArg State.divRem (own_execTogrec h) :)
    case health => exact (congrArg State.divRem (own_execHealth h) :)
    case takeframe => exact (congrArg State.divRem (own_execTakeframe h) :)

end Sys2Proof.Machine
end

section
/-! The commands of the scheduler that take no step (43_scheduler.md R146 to R150), and who changes the mode (R140). -/

namespace Sys2Proof.Machine

/-! ## TOGMODE, HEALTH, TAKEFRAME and STATS -/

/-- TOGMODE from a mode whose other one is named. -/
theorem exec_togmode {s : State} {m : Mode}
    (h : (match s.mode with | .running => Mode.paused | .paused => .running) = m) :
    exec .togmode s = .next (answer .none { s with mode := m }) := by
  subst h
  rfl

/-- Settles O49: each mode has the other one as its flip. -/
theorem togmodeFlipsTheMode : Obligations.TogmodeFlipsTheMode :=
  ⟨decode_schedWord 3 0, fun _ => ⟨fun h => exec_togmode (by rw [h]), fun h => exec_togmode (by rw [h])⟩⟩

theorem healthy_eq (s : State) :
    healthy s = decide (s.underrun = s.lapUnder ∧ s.overrun = s.lapOver) := by
  rw [healthy, Bool.decide_and]
  rfl

/-- Settles O51: with the laps taken each tally is its lap. -/
theorem healthComparesAndTakesTheLaps : Obligations.HealthComparesAndTakesTheLaps := by
  refine ⟨decode_schedWord 5 0, fun s => ⟨_, _, rfl, ?_, rfl, ?_⟩⟩
  · rw [healthy_eq]
    rfl
  · rw [answer_result, healthy_eq]
    exact congrArg Result.bool (decide_eq_true ⟨rfl, rfl⟩)

/-- Settles O52: both are what the command is defined as. -/
theorem takeframeAndStatsAnswer : Obligations.TakeframeAndStatsAnswer :=
  ⟨decode_schedWord 6 0, decode_schedWord 7 0, fun _ => ⟨rfl, rfl⟩⟩

/-! ## TOGREC -/

/-- A call whose contract allows no operation records the call and takes an answer. -/
theorem callDevice_of_allows_nothing {call : DevCall} (h : ∀ op, call.allows op = false) (s : State) :
    ∃ env, (callDevice call s).2 = { s with trace := s.trace ++ [.device call], env := env } := by
  have hops : ∀ (ops : List DevOp) (u : State), devOps call ops u = u := fun ops u => by
    rw [devOps, List.filter_eq_nil_iff.mpr fun op _ => by simp [h op], List.foldl_nil]
  simp only [callDevice, hops]
  unfold takeDevReply
  split
  · exact ⟨_, rfl⟩
  · exact ⟨_, rfl⟩

/-- R185: the clearing of the record buffer allows no operation (log 14). -/
theorem clearRecordBuffer_allows_nothing (op : DevOp) : DevCall.clearRecordBuffer.allows op = false := by
  cases op <;> rfl

/-- Settles O50, by whether a recording runs. -/
theorem togrecOpensAndCloses : Obligations.TogrecOpensAndCloses := by
  refine ⟨decode_schedWord 4 0, fun s => ⟨fun h => ?_, fun h => ?_⟩⟩
  · exact congrArg (fun u => Host.Outcome.next (answer .none u)) (if_pos h)
  · obtain ⟨env, hcall⟩ := callDevice_of_allows_nothing clearRecordBuffer_allows_nothing s
    refine ⟨env, (congrArg (fun u => Host.Outcome.next (answer .none u)) (if_neg (by simp [h]))).trans ?_⟩
    simp [hcall, record, answer]

/-! ## The mode (R140) -/

theorem mode_execTogmode {s t : State} (h : exec .togmode s = .next t) : t.mode ≠ s.mode := by
  have hm : t.mode = match s.mode with | .running => .paused | .paused => .running :=
    congrArg State.mode (own_execTogmode h)
  rw [hm]
  cases s.mode <;> nofun

/-- RUN forces PAUSED where it reports a breakpoint, and leaves the mode alone otherwise. -/
theorem mode_execRun {n : Nat} {s t : State} (h : exec (.run n) s = .next t) :
    (t.result = .run .breakpointHit ∧ t.mode = .paused) ∨
    (t.result = .run .stepped ∧ t.mode = s.mode) := by
  obtain ⟨e, _, -, -, -, -, ho⟩ := own_execRun h
  have hr : t.result = .run (if e.breakpoint then .breakpointHit else .stepped) := congrArg State.result ho
  have hm : t.mode = if e.breakpoint then .paused else s.mode := congrArg State.mode ho
  rw [hr, hm]
  cases e.breakpoint with
  | true => exact .inl ⟨rfl, rfl⟩
  | false => exact .inr ⟨rfl, rfl⟩

/-- No command but TOGMODE and RUN changes the mode. -/
theorem mode_exec {i : Instr} {s t : State} (h : exec i s = .next t) (ht : i ≠ .togmode)
    (hr : ∀ n, i ≠ .run n) : t.mode = s.mode := by
  by_cases hi : leavesOwn i = true
  · exact (congrArg State.mode (own_exec hi h) :)
  · cases i <;> simp only [leavesOwn, not_true_eq_false] at hi
    case ldrom =>
      obtain ⟨_, ho⟩ := own_execLdrom h
      exact (congrArg State.mode ho :)
    case irqreg level =>
      obtain ⟨-, rfl⟩ | ⟨-, rfl⟩ := execIrqreg_cases h
      · rfl
      · rfl
    case fdclk pct n => exact (congrArg State.mode (own_execFdclk h) :)
    case run n => exact absurd rfl (hr n)
    case prun n =>
      obtain ⟨-, _, -, -, ho⟩ := own_execPrun h
      exact (congrArg State.mode ho :)
    case reset =>
      obtain ⟨_, ho⟩ := own_execReset h
      exact (congrArg State.mode ho :)
    case togmode => exact absurd rfl ht
    case togrec => exact (congrArg State.mode (own_execTogrec h) :)
    case health => exact (congrArg State.mode (own_execHealth h) :)
    case takeframe => exact (congrArg State.mode (own_execTakeframe h) :)

/-- RUN alone reports a breakpoint: every other command ends with a result of its own. -/
theorem result_exec_ne_breakpointHit {i : Instr} {s t : State} (h : exec i s = .next t)
    (hr : ∀ n, i ≠ .run n) : t.result ≠ .run .breakpointHit := by
  cases i <;> simp only [exec] at h
  case insbin f =>
    have ht := (Host.Outcome.next.inj h).symm
    subst ht
    split <;> nofun
  case irqreg level => obtain ⟨-, rfl⟩ | ⟨-, rfl⟩ := execIrqreg_cases h <;> nofun
  case run n => exact absurd rfl (hr n)
  case prun n => obtain ⟨-, -, rfl⟩ := execPrun_eq h; nofun
  case reset =>
    obtain ⟨_, ho⟩ := own_execReset h
    have hnone : t.result = .none := congrArg State.result ho
    rw [hnone]
    nofun
  all_goals cases h; nofun

/-- Settles O48: TOGMODE, RUN, and the other commands. -/
theorem onlyTogmodeAndBreakpointsChangeTheMode : Obligations.OnlyTogmodeAndBreakpointsChangeTheMode := by
  intro i s t h
  refine ⟨fun hne => ?_, fun hi => by subst hi; exact mode_execTogmode h, fun hres => ?_⟩
  · by_cases hi : i = .togmode
    · exact .inl hi
    · by_cases hr : ∃ n, i = .run n
      · obtain ⟨n, rfl⟩ := hr
        obtain ⟨hres, hpaused⟩ | ⟨-, hsame⟩ := mode_execRun h
        · exact .inr ⟨⟨n, rfl⟩, hres, hpaused⟩
        · exact absurd hsame hne
      · exact absurd (mode_exec h hi fun n hn => hr ⟨n, hn⟩) hne
  · by_cases hr : ∃ n, i = .run n
    · obtain ⟨n, rfl⟩ := hr
      obtain ⟨-, hpaused⟩ | ⟨hstep, -⟩ := mode_execRun h
      · exact hpaused
      · rw [hres] at hstep
        cases hstep
    · exact absurd hres (result_exec_ne_breakpointHit h fun n hn => hr ⟨n, hn⟩)

end Sys2Proof.Machine
end

section
/-! What one RUN or PRUN leaves (43_scheduler.md R141 to R145): the tally it counts, the frame boundary it takes (R152),
the cycles it accounts for (R151) and those it runs the sound device for (R142). -/

namespace Sys2Proof.Machine

/-! ## What RUN and PRUN have in common -/

/-- The frame balance a frame step leaves where it accrued to `x` (R143): a boundary carries the remainder. -/
def carried (budget : Nat) (x : Int) : Int := if frameExceeded budget x then x - budget else x

/-- `t` is `s` after the audio and frame steps of a RUN or PRUN of `c` cycles, for which CIA and timer were run. -/
structure Scheduled (s t : State) (c : Nat) : Prop where
  cfg : t.cfg = s.cfg
  cia : ciaCycles t = ciaCycles s + c
  timer : timerCycles t = timerCycles s + c
  frameBalance : t.frameBalance = carried s.cfg.frameBudget (s.frameBalance + c)
  frameDone : t.frameDone = (s.frameDone || frameExceeded s.cfg.frameBudget (s.frameBalance + c))
  tallies : ∃ band, BandOf s band ∧ countOverflows band s = false ∧
    t.underrun = s.underrun + band.increments.1 ∧ t.equalrun = s.equalrun + band.increments.2.1 ∧
    t.overrun = s.overrun + band.increments.2.2

/-- The loop of `RUN n` from `s` ends with `e`. -/
abbrev LoopOf (n : Nat) (s : State) (e : LoopEnd) : Prop :=
  runLoop (s.cpuBalance + n) s.frameBalance (execAnswers s) 0 { s with cpuBalance := s.cpuBalance + n } = .ok e

section
variable {n : Nat} {s t : State} {e : LoopEnd}

/-- RUN runs CIA and timer for the cycles its loop consumed. -/
theorem ciaTimerCycles_finishRun (he : LoopOf n s e) :
    ciaCycles (finishRun (s.cpuBalance + n) e) = ciaCycles s + e.consumed ∧
    timerCycles (finishRun (s.cpuBalance + n) e) = timerCycles s + e.consumed := by
  obtain ⟨hcia, -⟩ := ranCycles_runLoop (d := .cia) he
  obtain ⟨htimer, -⟩ := ranCycles_runLoop (d := .timer) he
  rw [ciaCycles, timerCycles, ranCycles_finishRun (by decide), ranCycles_finishRun (by decide), hcia, htimer]
  simp [ciaCycles, timerCycles]

theorem scheduled_execRun (h : exec (.run n) s = .next t) :
    ∃ e, LoopOf n s e ∧ t = finishRun (s.cpuBalance + n) e ∧ Scheduled s t e.consumed := by
  obtain ⟨e, band, hband, hroom, he, ht, ho⟩ := own_execRun h
  obtain ⟨hcia, htimer⟩ := ciaTimerCycles_finishRun he
  exact ⟨e, he, ht, {
    cfg := (congrArg State.cfg ho :)
    cia := by rw [ht, hcia]
    timer := by rw [ht, htimer]
    frameBalance := congrArg State.frameBalance ho
    frameDone := congrArg State.frameDone ho
    tallies := ⟨band, hband, hroom, congrArg State.underrun ho, congrArg State.equalrun ho,
      congrArg State.overrun ho⟩ }⟩

/-- PRUN runs CIA and timer for the cycles it is given. -/
theorem scheduled_execPrun (h : exec (.prun n) s = .next t) : Scheduled s t n := by
  obtain ⟨-, band, hband, hroom, ho⟩ := own_execPrun h
  obtain ⟨-, -, ht⟩ := execPrun_eq h
  have hran : ∀ d, d ≠ .sound → ranCycles d t.trace = ranCycles d s.trace +
      (if Dev.cia = d then n else 0) + if Dev.timer = d then n else 0 := fun d hd => by
    rw [ht, answer_trace, ranCycles_frameStep, ranCycles_audioStep hd, ranCycles_runDevice, ranCycles_runDevice]
  exact {
    cfg := (congrArg State.cfg ho :)
    cia := hran .cia (by decide)
    timer := hran .timer (by decide)
    frameBalance := congrArg State.frameBalance ho
    frameDone := congrArg State.frameDone ho
    tallies := ⟨band, hband, hroom, congrArg State.underrun ho, congrArg State.equalrun ho,
      congrArg State.overrun ho⟩ }

theorem scheduled_exec {i : Instr} (hi : i = .run n ∨ i = .prun n) (h : exec i s = .next t) :
    ∃ c, Scheduled s t c := by
  obtain rfl | rfl := hi
  · obtain ⟨e, -, -, hs⟩ := scheduled_execRun h
    exact ⟨_, hs⟩
  · exact ⟨n, scheduled_execPrun h⟩

/-! ## The tally (R141, R142) -/

/-- With the occupancy listed, the tally of its band grows by one as a number and the others stay. -/
theorem Scheduled.tallies_of_listed {c occ : Nat} {rest : List Nat} (h : Scheduled s t c)
    (ho : s.env.occupancies = occ :: rest) : (t.underrun.toNat, t.equalrun.toNat, t.overrun.toNat) =
      if 100 * occ < 50 * s.cfg.audioTarget then
        (s.underrun.toNat + 1, s.equalrun.toNat, s.overrun.toNat)
      else if 100 * occ < 120 * s.cfg.audioTarget then
        (s.underrun.toNat, s.equalrun.toNat + 1, s.overrun.toNat)
      else (s.underrun.toNat, s.equalrun.toNat, s.overrun.toNat + 1) := by
  obtain ⟨band, hband, hroom, hu, he, hv⟩ := h.tallies
  obtain ⟨nu, ne, nv⟩ := toNat_counted hroom
  rw [hu, he, hv, nu, ne, nv, hband occ rest ho]
  unfold classify
  split
  · rfl
  · split
    · rfl
    · split <;> rfl

/-- Settles O42, by the band of the listed occupancy. -/
theorem eachSchedulerStepCountsOneBand : Obligations.EachSchedulerStepCountsOneBand := by
  intro s t n occ rest i hi h ho
  obtain ⟨c, hs⟩ := scheduled_exec hi h
  exact hs.tallies_of_listed ho

/-! ## The frame boundary (R143, R152) -/

/-- A frame balance that is not negative stays so, and at or below the budget where both it and the cycles are. -/
theorem carried_bounds {budget c : Nat} {x : Int} (hx : 0 ≤ x) :
    0 ≤ carried budget (x + c) ∧ (c ≤ budget → x ≤ budget → carried budget (x + c) ≤ budget) := by
  unfold carried frameExceeded
  split
  · rename_i hb
    have := of_decide_eq_true hb
    omega
  · rename_i hb
    have := of_decide_eq_false (Bool.not_eq_true _ ▸ hb)
    omega

/-- Settles O46: the boundary is taken by the strict test. -/
theorem aStepTakesAtMostOneFrameBoundary : Obligations.AStepTakesAtMostOneFrameBoundary := by
  intro s t n i hi h hf c
  obtain ⟨used, hs⟩ := scheduled_exec hi h
  have hc : c = used := by
    have := hs.cia
    omega
  have hb := hs.frameBalance
  obtain ⟨hnn, hle⟩ := carried_bounds (budget := s.cfg.frameBudget) (c := used) hf
  rw [← hb] at hnn hle
  rw [hc]
  unfold carried frameExceeded at hb
  by_cases hx : (s.cfg.frameBudget : Int) < s.frameBalance + used
  · rw [if_pos (decide_eq_true hx)] at hb
    exact ⟨1, .inr rfl, ⟨fun _ => hx, fun _ => rfl⟩, by omega, hnn, fun h1 => hle (by omega)⟩
  · rw [if_neg (by simpa using hx)] at hb
    exact ⟨0, .inl rfl, ⟨nofun, fun h1 => absurd h1 hx⟩, by omega, hnn, fun h1 => hle (by omega)⟩

/-! ## The cycles (R151) -/

/-- What a RUN whose loop ended with `e` leaves of the ports, the balances and the fields it does not write. -/
structure RunLeaves (n : Nat) (s : State) (e : LoopEnd) (t : State) : Prop where
  status : t.status = .ok
  result : t.result = .run (if e.breakpoint then .breakpointHit else .stepped)
  cpuBalance : t.cpuBalance = if e.breakpoint then 0 else s.cpuBalance + n - e.consumed
  mode : t.mode = if e.breakpoint then .paused else s.mode
  frameBalance : t.frameBalance = if s.cfg.frameBudget < s.frameBalance + e.consumed
    then s.frameBalance + e.consumed - s.cfg.frameBudget else s.frameBalance + e.consumed
  frameDone : t.frameDone = (s.frameDone || decide (s.cfg.frameBudget < s.frameBalance + e.consumed))
  cfg : t.cfg = s.cfg
  rom : t.rom = s.rom
  recording : t.recording = s.recording
  levels : t.levels = s.levels
  laps : t.lapUnder = s.lapUnder ∧ t.lapEqual = s.lapEqual ∧ t.lapOver = s.lapOver
  commands : t.commands = s.commands

theorem runLeaves_finishRun (he : LoopOf n s e) : RunLeaves n s e (finishRun (s.cpuBalance + n) e) := by
  obtain ⟨hloop, henv⟩ := runLoop_outside he
  obtain ⟨-, hown⟩ := own_finishRun hloop (congrArg Env.occupancies henv :)
  generalize finishRun (s.cpuBalance + n) e = t at hown
  exact {
    status := (congrArg State.status hown :)
    result := (congrArg State.result hown :)
    cpuBalance := (congrArg State.cpuBalance hown :)
    mode := (congrArg State.mode hown :)
    frameBalance := by
      have hf : t.frameBalance = carried s.cfg.frameBudget (s.frameBalance + e.consumed) :=
        congrArg State.frameBalance hown
      simpa only [carried, frameExceeded, decide_eq_true_eq] using hf
    frameDone := (congrArg State.frameDone hown :)
    cfg := (congrArg State.cfg hown :)
    rom := (congrArg State.rom hown :)
    recording := (congrArg State.recording hown :)
    levels := levels_of_own_lines (congrArg State.irqLines hown :)
    laps := ⟨(congrArg State.lapUnder hown :), (congrArg State.lapEqual hown :), (congrArg State.lapOver hown :)⟩
    commands := (congrArg State.commands hown :) }

/-- A RUN flushes its balance at a breakpoint; otherwise it settles it by the cycles used, which reach it. -/
theorem settled_execRun (h : exec (.run n) s = .next t) : ∃ used : Nat, Scheduled s t used ∧
    ((t.result = .run .breakpointHit ∧ t.cpuBalance = 0) ∨
      (t.result = .run .stepped ∧ t.cpuBalance = s.cpuBalance + n - used ∧ s.cpuBalance + n ≤ used)) := by
  obtain ⟨e, he, rfl, hs⟩ := scheduled_execRun h
  have leaves := runLeaves_finishRun he
  refine ⟨_, hs, ?_⟩
  rw [leaves.result, leaves.cpuBalance]
  cases hb : e.breakpoint with
  | true => exact .inl ⟨rfl, rfl⟩
  | false => exact .inr ⟨rfl, rfl, runLoop_stopped he hb⟩

end

/-- A row of RUNs that completes: the first, then the others. -/
theorem runAll_cons {n : Nat} {rest : List Nat} {s t : State} {used flushed : Int}
    (h : runAll (n :: rest) s = some (used, flushed, t)) :
    ∃ s' c f, exec (.run n) s = .next s' ∧ runAll rest s' = some (c, f, t) ∧
      used = (ciaCycles s' : Int) - ciaCycles s + c ∧
      flushed = (if s'.result = .run .breakpointHit
        then s.cpuBalance + n - ((ciaCycles s' : Int) - ciaCycles s) else 0) + f := by
  rw [runAll] at h
  split at h
  · rename_i s' hs'
    dsimp only at h
    split at h
    · rename_i c f u hrest
      cases h
      exact ⟨s', c, f, hs', hrest, rfl, rfl⟩
    · cases h
  · cases h
  · cases h

/-- What a row of RUNs accounts for. -/
theorem runAll_accounts {ns : List Nat} {s t : State} {used flushed : Int}
    (h : runAll ns s = some (used, flushed, t)) :
    (ns.sum : Int) - used = t.cpuBalance + flushed - s.cpuBalance ∧
    used = (ciaCycles t : Int) - ciaCycles s ∧ used = (timerCycles t : Int) - timerCycles s ∧ 0 ≤ used := by
  induction ns generalizing s used flushed with
  | nil =>
    cases h
    simp
  | cons n rest ih =>
    obtain ⟨s', c, f, hrun, hrest, rfl, rfl⟩ := runAll_cons h
    obtain ⟨hbal, hcia, htimer, hc⟩ := ih hrest
    obtain ⟨spent, hs, hend⟩ := settled_execRun hrun
    have hscia := hs.cia
    have hstimer := hs.timer
    rw [List.sum_cons]
    refine ⟨?_, by omega, by omega, by omega⟩
    obtain ⟨hres, hzero⟩ | ⟨hres, hleft, -⟩ := hend
    · rw [if_pos hres]
      omega
    · rw [if_neg (by rw [hres]; nofun)]
      omega

/-- Settles O41, by the row's sums and by how its next RUN would end. -/
theorem runCyclesAreAccountedFor : Obligations.RunCyclesAreAccountedFor := by
  intro ns s t used flushed h
  obtain ⟨hbal, hcia, htimer, hused⟩ := runAll_accounts h
  refine ⟨hbal, hcia, htimer, hused, fun n u hrun hres => ?_, fun n u hrun hres _ => ?_⟩
  · obtain ⟨-, -, ⟨-, hzero⟩ | ⟨hstep, -⟩⟩ := settled_execRun hrun
    · exact hzero
    · rw [hres] at hstep
      cases hstep
  · obtain ⟨spent, -, ⟨hbp, -⟩ | ⟨-, hleft, hle⟩⟩ := settled_execRun hrun
    · rw [hres] at hbp
      cases hbp
    · omega

/-! ## The sound device (R142) -/

/-- The cycles the sound device is run for where `c` cycles are driven at the rate of a band. -/
def soundOutput (s : State) (c : Nat) (band : Band) : Nat :=
  match soundPercent s.recording band with
  | none => 0
  | some pct => (clock c pct s).1.toNat

theorem soundOutput_congr {s t : State} (hr : t.recording = s.recording) (hc : t.cfg = s.cfg)
    (hd : t.divRem = s.divRem) (c : Nat) (band : Band) : soundOutput t c band = soundOutput s c band := by
  simp only [soundOutput, clock, hr, hc, hd]

theorem soundCycles_startTest (s : State) : soundCycles (startTest s) = soundCycles s :=
  (extends_startTest s).ranCycles .sound fun _ he => by obtain rfl | rfl := he <;> rfl

theorem soundCycles_drainRecord (s : State) : soundCycles (drainRecord s) = soundCycles s := by
  have hcall : Extends (fun e => e = .device .drainRecordBuffer ∨ e.Nested) s (callDevice .drainRecordBuffer s).2 :=
    extends_callDevice s (.inl rfl) fun _ => .inr
  have hzero := hcall.ranCycles .sound fun e he => by
    obtain rfl | he := he
    · rfl
    · exact he.ranCycles .sound
  rw [soundCycles, drainRecord, record_trace, ranCycles_append, hzero]
  rfl

theorem soundCycles_driveSound (c : Nat) (band : Band) (s : State) :
    soundCycles (driveSound c band s) = soundCycles s + soundOutput s c band := by
  have hrun : ∀ pct, soundCycles (soundRun c pct s) = soundCycles s + (clock c pct s).1.toNat := fun pct => by
    rw [soundCycles, soundRun, ranCycles_runDevice]
    rfl
  unfold driveSound soundOutput
  cases soundPercent s.recording band with
  | none => rfl
  | some pct =>
    dsimp only
    split
    · rw [soundCycles_drainRecord, hrun]
    · rw [hrun]

/-- The audio step (R142): sample and count, drive the sound device where it is driven, sample again. -/
theorem audioStep_eq (c : Nat) (drive : Bool) (s : State) : audioStep c drive s =
    startTest (if drive then driveSound c (nextBand s) (countBand (nextBand s) (sampleOccupancy s).2)
      else countBand (nextBand s) (sampleOccupancy s).2) := by
  have hband : classify (sampleOccupancy s).2.cfg.audioTarget (sampleOccupancy s).1 = nextBand s := by
    rw [fst_sampleOccupancy, cfg_of_own (own_sampleOccupancy s), nextBand]
  rw [← hband]
  rfl

theorem soundCycles_audioStep (c : Nat) (s : State) :
    soundCycles (audioStep c true s) = soundCycles s + soundOutput s c (nextBand s) := by
  have hsample : soundCycles (sampleOccupancy s).2 = soundCycles s :=
    (extends_sampleOccupancy s).ranCycles .sound fun _ he => by rw [he]; rfl
  have hcount : ∀ band u, soundCycles (countBand band u) = soundCycles u ∧
      soundOutput (countBand band u) c band = soundOutput u c band := fun band u => by
    cases band <;> exact ⟨rfl, rfl⟩
  obtain ⟨hcycles, houtput⟩ := hcount (nextBand s) (sampleOccupancy s).2
  have ho := own_sampleOccupancy s
  rw [audioStep_eq, if_pos rfl, soundCycles_startTest, soundCycles_driveSound, hcycles, houtput, hsample,
    soundOutput_congr (recording_of_own ho) (cfg_of_own ho) (divRem_of_own ho)]

/-- The settled balance leaves what the audio step looks at as it was before the RUN. -/
theorem settleRun_keeps {n : Nat} {s : State} {e : LoopEnd} (he : LoopOf n s e) :
    (settleRun (s.cpuBalance + n) e).cfg = s.cfg ∧ (settleRun (s.cpuBalance + n) e).recording = s.recording ∧
    (settleRun (s.cpuBalance + n) e).divRem = s.divRem ∧
    (settleRun (s.cpuBalance + n) e).env.occupancies = s.env.occupancies := by
  obtain ⟨hloop, henv⟩ := runLoop_outside he
  have hown := own_settleRun (s.cpuBalance + n) e
  rw [hloop] at hown
  have hsettle : (settleRun (s.cpuBalance + n) e).env = e.state.env := by
    unfold settleRun
    split <;> rfl
  exact ⟨(congrArg State.cfg hown :), (congrArg State.recording hown :), (congrArg State.divRem hown :),
    (congrArg Env.occupancies hsettle).trans (congrArg Env.occupancies henv :)⟩

/-- RUN runs the sound device for what the divider makes of the cycles its loop consumed. -/
theorem soundCycles_finishRun {n : Nat} {s : State} {e : LoopEnd} (he : LoopOf n s e) :
    soundCycles (finishRun (s.cpuBalance + n) e) =
      soundCycles s + soundOutput s e.consumed (nextBand (settleRun (s.cpuBalance + n) e)) := by
  obtain ⟨(hloop : soundCycles e.state = soundCycles s), -⟩ := ranCycles_runLoop (d := .sound) he
  have hsettle : soundCycles (settleRun (s.cpuBalance + n) e) = soundCycles e.state := by
    unfold settleRun
    split
    · rw [soundCycles, record_trace, ranCycles_append]
      rfl
    · rfl
  obtain ⟨hcfg, hrec, hrem, -⟩ := settleRun_keeps he
  have hframe : soundCycles (finishRun (s.cpuBalance + n) e) = soundCycles (retimeRun (s.cpuBalance + n) e) := by
    rw [soundCycles, finishRun, answer_trace, ranCycles_frameStep, soundCycles]
  rw [hframe, retimeRun, soundCycles_audioStep, hsettle, hloop, soundOutput_congr hrec hcfg hrem]

/-- With the occupancy listed, the remainder and the sound device's cycles after a RUN are those its band gives. -/
theorem sound_execRun {n occ : Nat} {rest : List Nat} {s t : State} (h : exec (.run n) s = .next t)
    (ho : s.env.occupancies = occ :: rest) :
    t.divRem = remDriven s (ciaCycles t - ciaCycles s) (classify s.cfg.audioTarget occ) ∧
    soundCycles t =
      soundCycles s + soundOutput s (ciaCycles t - ciaCycles s) (classify s.cfg.audioTarget occ) := by
  obtain ⟨e, he, rfl, hs⟩ := scheduled_execRun h
  obtain ⟨hloop, henv⟩ := runLoop_outside he
  obtain ⟨hband, hown⟩ := own_finishRun hloop (congrArg Env.occupancies henv :)
  have hrem : (finishRun (s.cpuBalance + n) e).divRem = _ := (congrArg State.divRem hown :)
  rw [hs.cia, Nat.add_sub_cancel_left, ← hband occ rest ho]
  exact ⟨hrem, soundCycles_finishRun he⟩

/-- Settles O43: each range of occupancies is a band, and a band has its percentage. -/
theorem soundIsRunAtTheRateOfTheBand : Obligations.SoundIsRunAtTheRateOfTheBand := by
  intro s t n occ rest h ho used units runsAt
  obtain ⟨hrem, hsound⟩ := sound_execRun h ho
  have driven : ∀ pct, soundPercent s.recording (classify s.cfg.audioTarget occ) = some pct → runsAt pct := by
    intro pct hpct
    rw [remDriven, hpct] at hrem
    rw [soundOutput, hpct] at hsound
    exact ⟨hrem, fun hfit => hsound.trans (congrArg (soundCycles s + ·) (toNat_clock hfit))⟩
  refine ⟨fun hr => driven 100 (by rw [hr]; rfl), fun hr hlow => driven 105 ?_,
    fun hr hge hlt => driven 100 ?_, fun hr hge hle => driven 95 ?_, fun hr hgt => ?_⟩
  · rw [hr, classify, if_pos hlow]
    rfl
  · rw [hr, classify, if_neg (by omega), if_pos hlt]
    rfl
  · rw [hr, classify, if_neg (by omega), if_neg (by omega), if_pos hle]
    rfl
  · have hskip : soundPercent s.recording (classify s.cfg.audioTarget occ) = none := by
      rw [hr, classify, if_neg (by omega), if_neg (by omega), if_neg (by omega)]
      rfl
    rw [remDriven, hskip] at hrem
    rw [soundOutput, hskip] at hsound
    exact ⟨hrem, hsound⟩

end Sys2Proof.Machine
end

section
/-! How a RUN ends (43_scheduler.md R144, 70_reset_and_hazards.md R210): it completes where its loop ends, the tally has
room and the frame step ends, and what stops it otherwise has a name. -/

namespace Sys2Proof.Machine

/-! ## A RUN whose loop ends -/

section
variable {n : Nat} {s : State} {e : LoopEnd}

/-- After its loop a RUN completes, or stops at the tally or in the drain. -/
theorem exec_run_of_loop (hbal : s.cpuBalance + n ≤ balanceMax) (he : LoopOf n s e) : exec (.run n) s =
    if countOverflows (nextBand (settleRun (s.cpuBalance + n) e)) s then .fault .tallyOverflow
    else if frameHangs e.consumed (retimeRun (s.cpuBalance + n) e) then .fault .drainStuck
    else .next (finishRun (s.cpuBalance + n) e) := by
  simp only [exec, execRun, if_neg (Int.not_lt.mpr hbal), he]

/-- Before the frame step the frame balance, its budget and the blitter's answers are still those before the RUN. -/
theorem retimeRun_keeps (he : LoopOf n s e) :
    (retimeRun (s.cpuBalance + n) e).cfg = s.cfg ∧
    (retimeRun (s.cpuBalance + n) e).frameBalance = s.frameBalance ∧
    (retimeRun (s.cpuBalance + n) e).env.blits = s.env.blits := by
  obtain ⟨hloop, henv⟩ := runLoop_outside he
  have haudio := own_audioStep e.consumed true (settleRun (s.cpuBalance + n) e)
  rw [own_settleRun, hloop] at haudio
  exact ⟨(congrArg State.cfg haudio :), (congrArg State.frameBalance haudio :),
    (Calls.retimeRun _ e).blits.trans (congrArg Env.blits henv :)⟩

/-- The frame step of a RUN ends where it takes no boundary, or the listed answers of the blitter end the drain. -/
theorem frameHangs_retimeRun (he : LoopOf n s e)
    (h : s.frameBalance + e.consumed ≤ s.cfg.frameBudget ∨ drainHangs s.env.blits = false) :
    frameHangs e.consumed (retimeRun (s.cpuBalance + n) e) = false := by
  obtain ⟨hcfg, hframe, hblits⟩ := retimeRun_keeps he
  rw [frameHangs, hcfg, hframe, Bool.and_eq_false_iff]
  obtain hle | hdrain := h
  · exact .inl (decide_eq_false (Int.not_lt.mpr hle))
  · rw [← hblits] at hdrain
    exact .inr (drainHangs_append hdrain _)

theorem exec_run_completes (hbal : s.cpuBalance + n ≤ balanceMax) (he : LoopOf n s e)
    (hdrain : s.frameBalance + e.consumed ≤ s.cfg.frameBudget ∨ drainHangs s.env.blits = false)
    (hroom : s.tallyHasRoom = true) : exec (.run n) s = .next (finishRun (s.cpuBalance + n) e) := by
  rw [exec_run_of_loop hbal he, (bandOf_run he).hasRoom hroom, frameHangs_retimeRun he hdrain]
  rfl

/-- A RUN takes the CPU's clock on by the cycles its loop consumed. -/
theorem clock_finishRun (he : LoopOf n s e) (hrun : exec (.run n) s = .next (finishRun (s.cpuBalance + n) e)) :
    (finishRun (s.cpuBalance + n) e).env.clock = s.env.clock + e.consumed := by
  rw [(clock_execRun hrun).1, (ciaTimerCycles_finishRun he).1, Nat.add_sub_cancel_left]

end

/-! ## A stalled CPU -/

/-- Settles O39: the loop ends after one body that takes no cycles. -/
theorem runOfAStalledCpuEndsOnAnEmptyBalance : Obligations.RunOfAStalledCpuEndsOnAnEmptyBalance := by
  intro s n rest ha hle hframe hroom
  have hmax : (0 : Int) ≤ balanceMax := by decide
  have he : LoopOf n s ⟨0, false, loopBody [] 0 (takeExec { s with cpuBalance := s.cpuBalance + n })⟩ := by
    rw [LoopOf, ha]
    exact if_pos hle
  have hrun := exec_run_completes (by omega) he (.inl (by simpa using hframe)) hroom
  obtain ⟨hcia, htimer⟩ := ciaTimerCycles_finishRun he
  have leaves := runLeaves_finishRun he
  have hclock := clock_finishRun he hrun
  generalize finishRun (s.cpuBalance + n) _ = t at hrun hcia htimer leaves hclock
  exact ⟨t, hrun, leaves.status, leaves.result, leaves.cpuBalance.trans (Int.sub_zero _),
    leaves.frameBalance.trans (by simp [hframe]), hcia, htimer, hclock⟩

/-! ## A script of instructions -/

/-- The loop end of a RUN whose answers are a script: its last instruction ends the loop. -/
def scriptEnd (n : Nat) (before : List ScriptedInstr) (last : ScriptedInstr) (s : State) : LoopEnd where
  consumed := scriptCycles before + last.delta.toNat
  breakpoint := last.breakpoint
  state := loopBody last.ops last.delta.toNat
    (takeExec (scriptState before { s with cpuBalance := s.cpuBalance + n }))

theorem loopOf_script {n : Nat} {s : State} {before : List ScriptedInstr} {last : ScriptedInstr}
    {rest : List ExecReply} (ha : execAnswers s = before.map ScriptedInstr.reply ++ last.reply :: rest)
    (hb : ∀ i ∈ before, i.breakpoint = false)
    (hk : ∀ k, 0 < k → k ≤ before.length → (scriptCycles (before.take k) : Int) < s.cpuBalance + n)
    (hend : last.breakpoint = true ∨ s.cpuBalance + n ≤ (scriptCycles before + last.delta.toNat : Nat))
    (hf : s.frameBalance + (scriptCycles before + last.delta.toNat : Nat) ≤ balanceMax)
    (hc : s.env.clock + (scriptCycles before + last.delta.toNat) ≤ clockMax)
    (hm : last.breakpoint = false →
      balanceMin ≤ s.cpuBalance + n - (scriptCycles before + last.delta.toNat : Nat)) :
    LoopOf n s (scriptEnd n before last s) := by
  have hclock : (scriptState before { s with cpuBalance := s.cpuBalance + n }).env.clock =
      s.env.clock + scriptCycles before := clock_scriptState _ _
  exact (runLoop_execAnswers ha hb hk (by omega) (by omega)).trans (runLoop_ends (by omega) hf hend hm)

/-- The cycles before the last instruction of a RUN do not reach a positive balance. -/
theorem scriptCycles_lt {bal : Int} {before : List ScriptedInstr} (hbal : 0 < bal)
    (hk : ∀ k, 0 < k → k ≤ before.length → (scriptCycles (before.take k) : Int) < bal) :
    (scriptCycles before : Int) < bal := by
  cases before with
  | nil => exact hbal
  | cons i rest => simpa using hk (rest.length + 1) (Nat.succ_pos _) (Nat.le_refl _)

/-- Settles O36: the loop goes through the script, and steps 3 to 7 of R144 follow. -/
theorem runPerformsItsInstructions : Obligations.RunPerformsItsInstructions := by
  intro s n before last rest bal total ha hb hk hend hbal hf hc hm hdrain hroom
  have he := loopOf_script ha hb hk hend hf hc hm
  have hrun := exec_run_completes hbal he hdrain hroom
  obtain ⟨hcia, htimer⟩ := ciaTimerCycles_finishRun he
  have leaves := runLeaves_finishRun he
  have hclock := clock_finishRun he hrun
  have hexecs : (finishRun bal (scriptEnd n before last s)).env.execs = s.env.execs.drop (before.length + 1) := by
    rw [execs_finishRun, scriptEnd, execs_loopBody, execs_takeExec, execs_scriptState, List.drop_drop]
  generalize finishRun bal _ = t at hrun hcia htimer leaves hclock hexecs
  obtain ⟨hunder, hequal, hover⟩ := leaves.laps
  refine ⟨t, hrun, leaves.status, leaves.result, leaves.cpuBalance, fun hbp hpos => ?_, leaves.mode,
    leaves.frameBalance, leaves.frameDone, hcia, htimer, hexecs, hclock, leaves.cfg, leaves.rom, leaves.recording,
    leaves.levels, hunder, hequal, hover, leaves.commands⟩
  have hlt := scriptCycles_lt hpos hk
  have hle : bal ≤ total := hend.resolve_left (by simp [hbp])
  have hcpu : t.cpuBalance = bal - total := leaves.cpuBalance.trans (if_neg (by simp [scriptEnd, hbp]))
  omega

/-! ## What stops a RUN in its loop -/

/-- A script of instructions that, after `consumed` cycles, reaches neither a breakpoint nor the balance. -/
structure Passes (bal : Int) (consumed : Nat) (before : List ScriptedInstr) : Prop where
  noBreakpoint : ∀ i ∈ before, i.breakpoint = false
  below : ∀ k, 0 < k → k ≤ before.length → (consumed + scriptCycles (before.take k) : Int) < bal

theorem Passes.nil (bal : Int) (consumed : Nat) : Passes bal consumed [] where
  noBreakpoint := nofun
  below _ h0 hk := absurd hk (Nat.not_le.mpr h0)

theorem Passes.cons {bal : Int} {consumed : Nat} {i : ScriptedInstr} {rest : List ScriptedInstr}
    (hbp : i.breakpoint = false) (hlt : ((consumed + i.delta.toNat : Nat) : Int) < bal)
    (h : Passes bal (consumed + i.delta.toNat) rest) : Passes bal consumed (i :: rest) where
  noBreakpoint := List.forall_mem_cons.mpr ⟨hbp, h.noBreakpoint⟩
  below k h0 hk := by
    obtain ⟨j, rfl⟩ := Nat.exists_eq_succ_of_ne_zero (Nat.ne_of_gt h0)
    rw [List.take_succ_cons, scriptCycles_cons]
    cases j with
    | zero =>
      have hz : scriptCycles (rest.take 0) = 0 := rfl
      omega
    | succ j =>
      have := h.below (j + 1) (Nat.succ_pos _) (Nat.le_of_succ_le_succ hk)
      omega

/-- Why the loop of RUN stops with a fault at the answers that come next, `consumed` cycles in and the CPU's clock at
`clock`. -/
inductive StopsAt (bal frame : Int) (consumed clock : Nat) : List ExecReply → Fault → Prop
  | ended (hlt : (consumed : Int) < bal) : StopsAt bal frame consumed clock [] .runStuck
  | stalled (rest : List ExecReply) (hlt : (consumed : Int) < bal) :
    StopsAt bal frame consumed clock (.stalled :: rest) .runStuck
  | clockOver (last : ScriptedInstr) (rest : List ExecReply) (h : clockMax < clock + last.delta.toNat) :
    StopsAt bal frame consumed clock (last.reply :: rest) .clockOverflow
  | frameOver (last : ScriptedInstr) (rest : List ExecReply)
    (h : balanceMax < frame + (consumed + last.delta.toNat : Nat)) :
    StopsAt bal frame consumed clock (last.reply :: rest) .balanceOverflow
  | balanceUnder (last : ScriptedInstr) (rest : List ExecReply) (hbp : last.breakpoint = false)
    (h : bal - (consumed + last.delta.toNat : Nat) < balanceMin) :
    StopsAt bal frame consumed clock (last.reply :: rest) .balanceOverflow

theorem stalledLoop_error {bal : Int} {consumed : Nat} {s : State} {f : Fault}
    (h : stalledLoop bal consumed s = .error f) : (consumed : Int) < bal ∧ f = .runStuck := by
  unfold stalledLoop at h
  split at h
  · cases h
  · cases h
    exact ⟨Int.not_le.mp ‹_›, rfl⟩

/-- One answer of the CPU where the loop stops with a fault: it stops there, or the instruction passes and the loop
stops later. -/
theorem runLoop_reply_error {bal frame : Int} {i : ScriptedInstr} {rest : List ExecReply} {consumed : Nat}
    {s : State} {f : Fault} (h : runLoop bal frame (i.reply :: rest) consumed s = .error f) :
    StopsAt bal frame consumed s.env.clock (i.reply :: rest) f ∨
    (i.breakpoint = false ∧ ((consumed + i.delta.toNat : Nat) : Int) < bal ∧
      runLoop bal frame rest (consumed + i.delta.toNat) (loopBody i.ops i.delta.toNat (takeExec s)) =
        .error f) := by
  simp only [ScriptedInstr.reply, runLoop] at h
  split at h
  · cases h
    exact .inl (.clockOver i rest ‹_›)
  · split at h
    · cases h
      exact .inl (.frameOver i rest ‹_›)
    · split at h
      · cases h
      · rename_i hbp
        rw [Bool.not_eq_true] at hbp
        split at h
        · cases h
          exact .inl (.balanceUnder i rest hbp ‹_›)
        · split at h
          · cases h
          · exact .inr ⟨hbp, Int.not_le.mp ‹_›, h⟩

/-- Where the loop of RUN stops with a fault, a script passed and the fault's cause stands next. -/
theorem runLoop_error {bal frame : Int} {l : List ExecReply} {consumed : Nat} {s : State} {f : Fault}
    (h : runLoop bal frame l consumed s = .error f) : ∃ before tail,
      l = before.map ScriptedInstr.reply ++ tail ∧ Passes bal consumed before ∧
      StopsAt bal frame (consumed + scriptCycles before) (s.env.clock + scriptCycles before) tail f := by
  induction l generalizing consumed s with
  | nil =>
    obtain ⟨hlt, rfl⟩ := stalledLoop_error h
    exact ⟨[], [], rfl, .nil _ _, .ended hlt⟩
  | cons r rest ih =>
    cases r with
    | stalled =>
      obtain ⟨hlt, rfl⟩ := stalledLoop_error h
      exact ⟨[], .stalled :: rest, rfl, .nil _ _, .stalled rest hlt⟩
    | ran ops delta bp =>
      obtain hstop | ⟨hbp, hlt, hloop⟩ := runLoop_reply_error (i := ⟨ops, delta, bp⟩) h
      · exact ⟨[], _, rfl, .nil _ _, hstop⟩
      · obtain ⟨before, tail, rfl, hpass, hstop⟩ := ih hloop
        rw [clock_loopBody, clock_takeExec, Nat.add_assoc, Nat.add_assoc, ← scriptCycles_cons] at hstop
        exact ⟨⟨ops, delta, bp⟩ :: before, tail, rfl, .cons hbp hlt hpass, hstop⟩

/-- Settles O37: the request, the loop, the tally and the drain, in the order RUN meets them. -/
theorem runCompletesUnlessItsAnswersStopIt : Obligations.RunCompletesUnlessItsAnswersStopIt := by
  intro s n bal
  by_cases hbal : balanceMax < bal
  · exact .inr (.inl ⟨execRun_requestOverflow hbal, hbal⟩)
  · rw [Int.not_lt] at hbal
    cases hloop : runLoop bal s.frameBalance (execAnswers s) 0 { s with cpuBalance := bal } with
    | ok e =>
      have hexec := exec_run_of_loop hbal hloop
      split at hexec
      · rename_i hfull
        refine .inr (.inr (.inr (.inl ⟨hexec, Bool.eq_false_iff.mpr fun hroom => ?_⟩)))
        rw [(bandOf_run hloop).hasRoom hroom] at hfull
        cases hfull
      · split at hexec
        · rename_i hhangs
          refine .inr (.inr (.inl ⟨hexec, (Bool.not_eq_false _).mp fun hends => ?_⟩))
          rw [frameHangs_retimeRun hloop (.inr hends)] at hhangs
          cases hhangs
        · exact .inl ⟨_, hexec, rfl⟩
    | error f =>
      have hexec : exec (.run n) s = .fault f := execRun_of_loop_error hbal hloop
      obtain ⟨before, tail, ha, hpass, hstop⟩ := runLoop_error hloop
      rw [Nat.zero_add] at hstop
      refine .inr (.inr (.inr (.inr ⟨before, tail, ha, hpass.noBreakpoint, by simpa using hpass.below, ?_⟩)))
      cases hstop with
      | ended hlt => exact .inl ⟨hexec, hlt, .inl rfl⟩
      | stalled rest hlt => exact .inl ⟨hexec, hlt, .inr ⟨rest, rfl⟩⟩
      | clockOver last rest h => exact .inr ⟨last, rest, rfl, .inl ⟨hexec, h⟩⟩
      | frameOver last rest h =>
        rw [Nat.cast_add] at h
        exact .inr ⟨last, rest, rfl, .inr ⟨hexec, .inl (by omega)⟩⟩
      | balanceUnder last rest hbp h =>
        rw [Nat.cast_add] at h
        exact .inr ⟨last, rest, rfl, .inr ⟨hexec, .inr ⟨hbp, by omega⟩⟩⟩

end Sys2Proof.Machine
end

section
/-! The calls of a RUN and of a PRUN in order (43_scheduler.md R142 to R145, R154). -/

namespace Sys2Proof.Machine

/-! ## The two occupancy samples (R142) -/

theorem takeOccupancy_listed {s : State} {occ : Nat} {rest : List Nat} (h : s.env.occupancies = occ :: rest) :
    takeOccupancy s = (occ, { s with env := { s.env with occupancies := rest } }) := by
  simp only [takeOccupancy, h]

/-- The start request, if the occupancy exceeds 75% of the target. -/
def startCalls (c : Config) (occ : Nat) : List Event :=
  if 75 * c.audioTarget < 100 * occ then [.startAudio] else []

theorem trace_startTest (s : State) : (startTest s).trace =
    s.trace ++ .audioQueueBytes :: startCalls s.cfg (takeOccupancy s).1 := by
  have htrace : (sampleOccupancy s).2.trace = s.trace ++ [.audioQueueBytes] := trace_takeOccupancy _
  simp only [startTest, audioStarts, startCalls, decide_eq_true_eq, cfg_of_own (own_sampleOccupancy s),
    fst_sampleOccupancy]
  split
  · rw [record_trace, htrace, List.append_assoc]
    rfl
  · exact htrace

/-- The shared part stayed where video memory, the lines and the level did. -/
theorem shared_eq_iff {s t : State} :
    t.shared = s.shared ↔ t.vram = s.vram ∧ t.irqLines = s.irqLines ∧ t.ipl = s.ipl := by
  simp [State.shared]

@[simp] theorem shared_answer (r : Result) (s : State) : (answer r s).shared = s.shared := rfl

theorem shared_sampleOccupancy (s : State) : (sampleOccupancy s).2.shared = s.shared :=
  shared_of_block (block_takeOccupancy _)

theorem shared_startTest (s : State) : (startTest s).shared = s.shared := by
  unfold startTest
  dsimp only
  split <;> exact shared_sampleOccupancy s

/-- Where the sound device is not driven, the audio step samples twice and calls nothing in between. -/
theorem audioStep_undriven (c : Nat) (s : State) : (audioStep c false s).shared = s.shared ∧
    ∃ occ, (audioStep c false s).trace =
        s.trace ++ .audioQueueBytes :: .audioQueueBytes :: startCalls s.cfg occ ∧
      ∀ occ1 occ2 occs, s.env.occupancies = occ1 :: occ2 :: occs → occ = occ2 := by
  have hcount : ∀ (band : Band) (u : State), (countBand band u).shared = u.shared ∧
      (countBand band u).trace = u.trace ∧ (countBand band u).cfg = u.cfg ∧ (countBand band u).env = u.env :=
    fun band u => by cases band <;> exact ⟨rfl, rfl, rfl, rfl⟩
  obtain ⟨hshared, htrace, hcfg, henv⟩ := hcount (nextBand s) (sampleOccupancy s).2
  have hsample : (sampleOccupancy s).2.trace = s.trace ++ [.audioQueueBytes] := trace_takeOccupancy _
  rw [audioStep_eq, if_neg Bool.false_ne_true]
  refine ⟨(shared_startTest _).trans (hshared.trans (shared_sampleOccupancy s)),
    (takeOccupancy (countBand (nextBand s) (sampleOccupancy s).2)).1, ?_, fun occ1 occ2 occs ho => ?_⟩
  · rw [trace_startTest, htrace, hsample, hcfg, cfg_of_own (own_sampleOccupancy s), List.append_assoc]
    rfl
  · have hrest : (sampleOccupancy s).2.env.occupancies = occ2 :: occs := by
      rw [sampleOccupancy, takeOccupancy_listed (s := record .audioQueueBytes s) ho]
    rw [takeOccupancy_listed (henv ▸ hrest)]

/-- A frame step without the blitter touches the frame balance and the mark alone. -/
theorem frameStep_undriven (c : Nat) (s : State) :
    (frameStep c false s).trace = s.trace ∧ (frameStep c false s).shared = s.shared := by
  unfold frameStep
  dsimp only
  split <;> exact ⟨rfl, rfl⟩

/-! ## PRUN (R145) -/

/-- CIA, then timer, run by a PRUN. -/
def prunDevices (n : Nat) (s : State) : State := runDevice .timer n (runDevice .cia n s)

/-- A device's run records the call and what its nested operations are answered: nothing where the answer is listed
and nests none. -/
theorem trace_runDevice (d : Dev) (n : Nat) (s : State) :
    ∃ nested, (runDevice d n s).trace = s.trace ++ .device (.run d n) :: nested ∧ (∀ e ∈ nested, e.Nested) ∧
      (quietReplies 1 s = true → nested = []) := by
  obtain ⟨nested, htrace, hnested⟩ := trace_callDevice (.run d n) s
  refine ⟨nested, htrace, hnested, fun hq => ?_⟩
  rw [(callDevice_of_quietReplies (.run d n) hq).1] at htrace
  simpa [afterCalls] using htrace

/-- A PRUN's entries in the record: no CPU, sound device or blitter. -/
def Event.OfPrun (n : Nat) (e : Event) : Prop :=
  e = .device (.run .cia n) ∨ e = .device (.run .timer n) ∨ e = .audioQueueBytes ∨ e = .startAudio ∨ e.Nested

theorem prun_faults_balance {n : Nat} {s : State} (h : balanceMax < s.frameBalance + n) :
    exec (.prun n) s = .fault .balanceOverflow := by
  simp only [exec, execPrun, if_pos h]

section
variable {n : Nat} {s : State} (hle : s.frameBalance + n ≤ balanceMax)
include hle

theorem exec_prun_of_le : exec (.prun n) s =
    if countOverflows (nextBand (prunDevices n s)) s then .fault .tallyOverflow
    else .next (answer (.run .stepped) (frameStep n false (audioStep n false (prunDevices n s)))) := by
  simp only [exec, execPrun, if_neg (Int.not_lt.mpr hle)]
  rfl

theorem prun_faults_tally {occ : Nat} {occs : List Nat} (ho : s.env.occupancies = occ :: occs)
    (hfull : (s.tallyFor occ).toNat = 2 ^ 64 - 1) : exec (.prun n) s = .fault .tallyOverflow := by
  have hmax : s.tallyFor occ = tallyMax := BitVec.eq_of_toNat_eq hfull
  rw [exec_prun_of_le hle, if_pos]
  rw [prunDevices, (bandOf_prun n s).countOverflows ho, hmax]
  exact beq_self_eq_true _

theorem exec_prun_completes (hroom : s.tallyHasRoom = true) : exec (.prun n) s =
    .next (answer (.run .stepped) (frameStep n false (audioStep n false (prunDevices n s)))) := by
  have hcounts : countOverflows (nextBand (prunDevices n s)) s = false := (bandOf_prun n s).hasRoom hroom
  rw [exec_prun_of_le hle, hcounts, if_neg Bool.false_ne_true]

end

theorem own_prunDevices (n : Nat) (s : State) : (prunDevices n s).own = s.own :=
  (own_runDevice _ _ _).trans (own_runDevice _ _ _)

theorem occupancies_prunDevices (n : Nat) (s : State) : (prunDevices n s).env.occupancies = s.env.occupancies :=
  (congrArg Env.occupancies ((rest_runDevice .timer n _).trans (rest_runDevice .cia n s)) :)

theorem trace_prunDevices (n : Nat) (s : State) : ∃ nested1 nested2, (prunDevices n s).trace =
      s.trace ++ (.device (.run .cia n) :: nested1 ++ .device (.run .timer n) :: nested2) ∧
    (∀ e ∈ nested1 ++ nested2, e.Nested) ∧ (quietReplies 2 s = true → nested1 = [] ∧ nested2 = []) := by
  obtain ⟨nested1, htrace1, hn1, hq1⟩ := trace_runDevice .cia n s
  obtain ⟨nested2, htrace2, hn2, hq2⟩ := trace_runDevice .timer n (runDevice .cia n s)
  refine ⟨nested1, nested2, ?_, fun e he => (List.mem_append.mp he).elim (hn1 e) (hn2 e), fun hq => ?_⟩
  · rw [prunDevices, htrace2, htrace1, List.append_assoc]
  · obtain ⟨-, hq'⟩ := quietReplies_callDevice (call := .run .cia n) hq
    exact ⟨hq1 (quietReplies_mono hq (by decide)), hq2 hq'⟩

/-- CIA and timer leave video memory alone (log 14), and the lines and the level too where they nest nothing. -/
theorem shared_prunDevices (n : Nat) (s : State) : (prunDevices n s).vram = s.vram ∧
    (quietReplies 2 s = true → (prunDevices n s).irqLines = s.irqLines ∧ (prunDevices n s).ipl = s.ipl) := by
  have hvram : ∀ d, d ≠ .blitter → ∀ u, (runDevice d n u).vram = u.vram := fun d hd => vram_callDevice hd
  refine ⟨(hvram .timer nofun _).trans (hvram .cia nofun s), fun hq => ?_⟩
  obtain ⟨hcia, hq⟩ := quietReplies_callDevice (call := .run .cia n) hq
  obtain ⟨htimer, -⟩ := quietReplies_callDevice (call := .run .timer n) hq
  have hblock : (prunDevices n s).block = s.block := htimer.trans hcia
  exact ⟨irqLines_of_block hblock, ipl_of_block hblock⟩

/-- After CIA and timer a PRUN samples twice and may start the audio; it leaves the shared part as they left it. -/
theorem prun_samples {n : Nat} {s t : State} (h : exec (.prun n) s = .next t) :
    t.shared = (prunDevices n s).shared ∧ ∃ occ, t.trace =
        (prunDevices n s).trace ++ .audioQueueBytes :: .audioQueueBytes :: startCalls s.cfg occ ∧
      ∀ occ1 occ2 occs, s.env.occupancies = occ1 :: occ2 :: occs → occ = occ2 := by
  obtain ⟨-, -, (ht : t = answer (.run .stepped) (frameStep n false (audioStep n false (prunDevices n s))))⟩ :=
    execPrun_eq h
  have hocc := occupancies_prunDevices n s
  have hcfg := cfg_of_own (own_prunDevices n s)
  generalize prunDevices n s = u at *
  obtain ⟨hashared, occ, hatrace, ho⟩ := audioStep_undriven n u
  obtain ⟨hftrace, hfshared⟩ := frameStep_undriven n (audioStep n false u)
  rw [hocc, hcfg] at *
  rw [ht, shared_answer, hfshared, hashared, answer_trace, hftrace]
  exact ⟨rfl, occ, hatrace, ho⟩

theorem ofPrun_of_mem {n : Nat} {c : Config} {occ : Nat} {nested1 nested2 : List Event}
    (hn : ∀ e ∈ nested1 ++ nested2, e.Nested) : ∀ e ∈ .device (.run .cia n) :: nested1 ++
      .device (.run .timer n) :: nested2 ++ .audioQueueBytes :: .audioQueueBytes :: startCalls c occ,
      e.OfPrun n := by
  have hstart : ∀ e ∈ startCalls c occ, e = .startAudio := fun e he => by
    unfold startCalls at he
    split at he
    · exact List.mem_singleton.mp he
    · cases he
  intro e he
  simp only [List.mem_append, List.mem_cons] at he
  obtain ((rfl | he) | rfl | he) | rfl | rfl | he := he
  · exact .inl rfl
  · exact .inr (.inr (.inr (.inr (hn e (List.mem_append_left _ he)))))
  · exact .inr (.inl rfl)
  · exact .inr (.inr (.inr (.inr (hn e (List.mem_append_right _ he)))))
  · exact .inr (.inr (.inl rfl))
  · exact .inr (.inr (.inl rfl))
  · exact .inr (.inr (.inr (.inl (hstart e he))))

/-- Settles O45: the range of the frame balance, the room of the tally, and what a PRUN that completes does. -/
theorem prunRunsCiaAndTimerOnly : Obligations.PrunRunsCiaAndTimerOnly := by
  refine fun s n => ⟨prun_faults_balance, fun hle occ occs => prun_faults_tally hle, fun hle hroom => ?_⟩
  have hrun := exec_prun_completes hle hroom
  generalize answer _ _ = t at hrun
  have hs := scheduled_execPrun hrun
  obtain ⟨-, _, -, -, hown⟩ := own_execPrun hrun
  obtain ⟨hshared, occ, htrace, hocc⟩ := prun_samples hrun
  obtain ⟨nested1, nested2, hdevices, hn, hquiet⟩ := trace_prunDevices n s
  rw [hdevices, List.append_assoc] at htrace
  obtain ⟨htvram, htlines, htipl⟩ := shared_eq_iff.mp hshared
  obtain ⟨hvram, hlines⟩ := shared_prunDevices n s
  have hran : ∀ d, ranCycles d t.trace = ranCycles d s.trace + n → ranCycles d _ = n := fun d hd =>
    Nat.add_left_cancel ((ranCycles_append d _ _).symm.trans ((congrArg (ranCycles d) htrace).symm.trans hd))
  have hnot : ∀ e : Event, ¬e.OfPrun n → e ∉ _ :=
    fun e he hm => he (ofPrun_of_mem (c := s.cfg) (occ := occ) hn e hm)
  have hf : t.frameBalance = carried s.cfg.frameBudget (s.frameBalance + n) := hs.frameBalance
  simp only [carried, frameExceeded, decide_eq_true_eq] at hf
  refine ⟨t, _, hrun, (congrArg State.status hown :), (congrArg State.result hown :), hf, hs.frameDone, htrace,
    hran .cia hs.cia, hran .timer hs.timer, ⟨nested1, nested2, _, rfl, hn, hquiet, fun occ1 occ2 occs ho => ?_⟩,
    hnot _ (by simp [Event.OfPrun, Event.Nested]), fun out => hnot _ (by simp [Event.OfPrun, Event.Nested]),
    hnot _ (by simp [Event.OfPrun, Event.Nested]), hnot _ (by simp [Event.OfPrun, Event.Nested]),
    (congrArg State.cpuBalance hown :), (congrArg State.divRem hown :), (congrArg State.mode hown :), hs.cfg,
    (congrArg State.rom hown :), (congrArg State.recording hown :),
    levels_of_own_lines (congrArg State.irqLines hown :), (congrArg State.lapUnder hown :),
    (congrArg State.lapEqual hown :), (congrArg State.lapOver hown :), (congrArg State.commands hown :),
    htvram.trans hvram, htlines, htipl, fun hq => ?_⟩
  · rw [hocc occ1 occ2 occs ho]
    exact ⟨rfl, hs.tallies_of_listed ho⟩
  · obtain ⟨hl, hi⟩ := hlines hq
    exact ⟨htlines.trans hl, htipl.trans hi⟩

end Sys2Proof.Machine
end

section
/-! The order of the calls in a RUN whose agents nest no operation (43_scheduler.md R154). -/

namespace Sys2Proof.Machine

/-! ## A stretch of calls that nest nothing -/

/-- `t` comes after `s` with just these entries recorded between and `k` device answers taken; video memory, the lines
and the level stayed. -/
structure Quietly (k : Nat) (events : List Event) (s t : State) : Prop where
  trace : t.trace = s.trace ++ events
  shared : t.shared = s.shared
  devs : t.env.devs = s.env.devs.drop k

theorem quietReplies_drop {k m : Nat} {s t : State} (hd : t.env.devs = s.env.devs.drop k)
    (h : quietReplies (k + m) s = true) : quietReplies m t = true := by
  rw [quietReplies, Bool.and_eq_true, decide_eq_true_eq, List.all_eq_true] at h ⊢
  obtain ⟨hlen, hall⟩ := h
  rw [hd, List.length_drop]
  refine ⟨by omega, fun r hr => hall r ?_⟩
  rw [List.take_drop] at hr
  exact List.mem_of_mem_drop hr

namespace Quietly

variable {k m : Nat} {a b : List Event} {s t u : State}

theorem trans (h1 : Quietly k a s t) (h2 : Quietly m b t u) : Quietly (k + m) (a ++ b) s u where
  trace := by rw [h2.trace, h1.trace, List.append_assoc]
  shared := h2.shared.trans h1.shared
  devs := by rw [h2.devs, h1.devs, List.drop_drop]

theorem quiet (h : Quietly k a s t) (hq : quietReplies (k + m) s = true) : quietReplies m t = true :=
  quietReplies_drop h.devs hq

theorem idle (ht : t.trace = s.trace) (hs : t.shared = s.shared) (hd : t.env.devs = s.env.devs) :
    Quietly 0 [] s t := ⟨ht.trans (List.append_nil _).symm, hs, hd⟩

theorem record (e : Event) (s : State) : Quietly 0 [e] s (Machine.record e s) := ⟨rfl, rfl, rfl⟩

theorem answer (h : Quietly k a s t) (r : Result) : Quietly k a s (Machine.answer r t) :=
  ⟨h.trace, (shared_answer r t).trans h.shared, h.devs⟩

theorem callDevice (call : DevCall) (h : quietReplies 1 s = true) :
    Quietly 1 [.device call] s (Machine.callDevice call s).2 := by
  rw [(callDevice_of_quietReplies call h).1]
  exact ⟨rfl, rfl, rfl⟩

end Quietly

/-! ## The loop -/

section
variable {s : State}

theorem quietly_takenBody (d : Nat) (h : quietReplies 2 s = true) :
    Quietly 2 [.cpuExecute, .device (.run .cia d), .device (.run .timer d)] s (loopBody [] d (takeExec s)) := by
  have execute : Quietly 0 [.cpuExecute] s
      (withClock ((takeExec s).env.clock + d) (cpuExecute [] (takeExec s))) := by
    unfold takeExec
    split <;> exact ⟨rfl, rfl, rfl⟩
  have cia := execute.trans (.callDevice (.run .cia d) (execute.quiet (quietReplies_mono h (by decide))))
  exact cia.trans (.callDevice (.run .timer d) (cia.quiet h))

theorem quietly_scriptState (l : List ScriptedInstr) (ho : ∀ i ∈ l, i.ops = [])
    (h : quietReplies (2 * l.length) s = true) : Quietly (2 * l.length) (scriptCalls l) s (scriptState l s) := by
  induction l generalizing s with
  | nil => exact .idle rfl rfl rfl
  | cons i rest ih =>
    obtain ⟨hi, hrest⟩ := List.forall_mem_cons.mp ho
    have hlen : 2 * (i :: rest).length = 2 + 2 * rest.length := by rw [List.length_cons]; omega
    rw [hlen] at h ⊢
    have body := quietly_takenBody i.delta.toNat (quietReplies_mono h (by omega))
    rw [← hi] at body
    exact body.trans (ih hrest (body.quiet h))

/-! ## The audio step -/

/-- The calls of the sound device and the record sink in an audio step whose first occupancy sample is `occ`, where the
divider gives `out` cycles and the drain gives `samples` (R142). -/
def soundCalls (recording : Bool) (target occ out : Nat) (samples : List Nat) : List Event :=
  if recording then [.device (.run .sound out), .device .drainRecordBuffer, .recordWrite samples]
  else if 200 * target < 100 * occ then [] else [.device (.run .sound out)]

/-- The calls of a frame step: at a boundary the notification and a drain of `queued` operations (R143). -/
def frameCalls (budget : Nat) (balance : Int) (queued : Nat) : List Event :=
  if budget < balance
    then .device .notifyScreenRefresh :: List.replicate (queued + 1) (.device .runNextOperation) else []

theorem quietly_soundRun (c pct : Nat) (h : quietReplies 1 s = true) :
    ∃ out, Quietly 1 [.device (.run .sound out)] s (soundRun c pct s) :=
  have divided : Quietly 0 [] s (clock c pct s).2 := .idle rfl rfl rfl
  ⟨_, divided.trans (.callDevice (.run .sound (clock c pct s).1.toNat) h)⟩

theorem quietly_drainRecord (h : quietReplies 1 s = true) :
    Quietly 1 [.device .drainRecordBuffer, .recordWrite (s.env.devs.getD 0 default).samples] s (drainRecord s) := by
  have hvalue : (callDevice .drainRecordBuffer s).1 = s.env.devs.getD 0 default := by
    cases hd : s.env.devs with
    | nil => simp [quietReplies, hd] at h
    | cons r rest => exact callDevice_listed_value hd
  rw [← hvalue]
  exact (Quietly.callDevice .drainRecordBuffer h).trans (.record _ _)

/-- Outside a recording the sound device is not run just above 200% of the target (R141, R142). -/
theorem soundPercent_classify (target occ : Nat) :
    soundPercent false (classify target occ) = none ↔ 200 * target < 100 * occ := by
  unfold classify
  split
  · exact ⟨nofun, fun h => by omega⟩
  · split
    · exact ⟨nofun, fun h => by omega⟩
    · split
      · exact ⟨nofun, fun h => by omega⟩
      · exact ⟨fun _ => by omega, fun _ => rfl⟩

theorem quietly_driveSound (c occ : Nat) (h : quietReplies 2 s = true) : ∃ k out, k ≤ 2 ∧
    Quietly k
      (soundCalls s.recording s.cfg.audioTarget occ out (s.env.devs.getD 1 default).samples) s
      (driveSound c (classify s.cfg.audioTarget occ) s) := by
  have hskip := soundPercent_classify s.cfg.audioTarget occ
  unfold driveSound soundCalls
  cases hr : s.recording with
  | true =>
    obtain ⟨out, run⟩ := quietly_soundRun c 100 (quietReplies_mono h (by decide))
    have drain := quietly_drainRecord (run.quiet h)
    rw [run.devs, List.getD_eq_getElem?_getD, List.getElem?_drop] at drain
    exact ⟨2, out, Nat.le_refl 2, by rw [List.getD_eq_getElem?_getD]; exact run.trans drain⟩
  | false =>
    cases hp : soundPercent false (classify s.cfg.audioTarget occ) with
    | none =>
      refine ⟨0, 0, by decide, ?_⟩
      rw [if_neg Bool.false_ne_true, if_pos (hskip.mp hp)]
      exact .idle rfl rfl rfl
    | some pct =>
      obtain ⟨out, run⟩ := quietly_soundRun c pct (quietReplies_mono h (by decide))
      refine ⟨1, out, by decide, ?_⟩
      rw [if_neg Bool.false_ne_true, if_neg fun hgt => by rw [hskip.mpr hgt] at hp; cases hp]
      exact run

theorem occupancies_driveSound (c : Nat) (band : Band) (s : State) :
    (driveSound c band s).env.occupancies = s.env.occupancies := by
  have hcall : ∀ call (u : State), (callDevice call u).2.env.occupancies = u.env.occupancies :=
    fun call u => (congrArg Env.occupancies (rest_callDevice call u) :)
  have hrun : ∀ pct, (soundRun c pct s).env.occupancies = s.env.occupancies := fun pct => hcall _ _
  unfold driveSound
  cases soundPercent s.recording band with
  | none => rfl
  | some pct =>
    dsimp only
    split
    · exact (hcall _ _).trans (hrun pct)
    · exact hrun pct

theorem quietly_startTest {occ : Nat} {occs : List Nat} (ho : s.env.occupancies = occ :: occs) :
    Quietly 0 (.audioQueueBytes :: startCalls s.cfg occ) s (startTest s) := by
  refine ⟨by rw [trace_startTest, takeOccupancy_listed ho], shared_startTest s, ?_⟩
  have hsample : (sampleOccupancy s).2.env.devs = s.env.devs :=
    (congrArg Env.devs (rest_takeOccupancy (record .audioQueueBytes s)) :)
  unfold startTest
  dsimp only
  split <;> exact hsample

/-- The audio step of a RUN with both samples listed: sample, drive the sound device, sample, start the audio. -/
theorem quietly_audioStep (c : Nat) {occ1 occ2 : Nat} {occs : List Nat}
    (ho : s.env.occupancies = occ1 :: occ2 :: occs) (h : quietReplies 2 s = true) : ∃ k out, k ≤ 2 ∧
    Quietly k ([.audioQueueBytes] ++
        soundCalls s.recording s.cfg.audioTarget occ1 out (s.env.devs.getD 1 default).samples ++
        .audioQueueBytes :: startCalls s.cfg occ2) s
      (audioStep c true s) := by
  have hband : nextBand s = classify s.cfg.audioTarget occ1 := bandOf_nextBand s occ1 _ ho
  have hsample : sampleOccupancy s = (occ1, { s with
      trace := s.trace ++ [.audioQueueBytes], env := { s.env with occupancies := occ2 :: occs } }) :=
    takeOccupancy_listed (s := record .audioQueueBytes s) ho
  rw [audioStep_eq, if_pos rfl, hband, hsample]
  have count : ∀ band, ∃ u, countBand band { s with
      trace := s.trace ++ [.audioQueueBytes], env := { s.env with occupancies := occ2 :: occs } } = u ∧
      Quietly 0 [.audioQueueBytes] s u ∧ u.cfg = s.cfg ∧ u.recording = s.recording ∧
      u.env.occupancies = occ2 :: occs := fun band => by
    cases band <;> exact ⟨_, rfl, ⟨rfl, rfl, rfl⟩, rfl, rfl, rfl⟩
  obtain ⟨u, hu, counted, hcfg, hrec, hocc⟩ := count (classify s.cfg.audioTarget occ1)
  rw [hu]
  obtain ⟨k, out, hk, driven⟩ := quietly_driveSound c occ1 (counted.quiet (m := 2) (by simpa using h))
  have hdevs : u.env.devs = s.env.devs := counted.devs
  have hdcfg : (driveSound c (classify s.cfg.audioTarget occ1) u).cfg = s.cfg :=
    (congrArg State.cfg (own_driveSound c (classify s.cfg.audioTarget occ1) u)).trans hcfg
  have started := quietly_startTest ((occupancies_driveSound c (classify s.cfg.audioTarget occ1) u).trans hocc)
  rw [hrec, hcfg, hdevs] at driven
  rw [hdcfg] at started
  exact ⟨_, out, by omega, (counted.trans driven).trans started⟩

/-! ## The frame step -/

/-- A drain of `queued` operations and the call that finds none left. -/
theorem quietly_drainBlitter (queued : Nat) (replies : List BlitReply) (s : State) :
    Quietly 0 (List.replicate (queued + 1) (.device .runNextOperation)) s
      (drainBlitter (List.replicate queued (.ran [] true) ++ .ran [] false :: replies) s) := by
  have call : ∀ u : State, Quietly 0 [.device .runNextOperation] u
      (takeBlit (record (.device .runNextOperation) u)) := fun u => by
    unfold takeBlit
    split <;> exact ⟨rfl, rfl, rfl⟩
  induction queued generalizing s with
  | zero => exact call s
  | succ queued ih => exact (call s).trans (ih _)

section
variable {queued : Nat} {replies : List BlitReply} (h : quietReplies 1 s = true)
  (hb : s.env.blits = List.replicate queued (.ran [] true) ++ .ran [] false :: replies)
include h hb

/-- A frame boundary notifies the blitter and drains its queue. -/
theorem quietly_frameBoundary : ∃ k, Quietly k
    (.device .notifyScreenRefresh :: List.replicate (queued + 1) (.device .runNextOperation)) s
    (frameBoundary true s) := by
  have marked : Quietly 0 [] s { s with frameDone := true } := .idle rfl rfl rfl
  have notified := marked.trans (.callDevice .notifyScreenRefresh (marked.quiet (m := 1) (by simpa using h)))
  have carried : ∀ (u : State) (x : Int), Quietly 0 [] u { u with frameBalance := x } :=
    fun u x => .idle rfl rfl rfl
  unfold frameBoundary
  rw [blitAnswers, hb, List.append_assoc, List.cons_append]
  exact ⟨_, (notified.trans (carried _ _)).trans (quietly_drainBlitter queued _ _)⟩

theorem quietly_frameStep (c : Nat) :
    ∃ k, Quietly k (frameCalls s.cfg.frameBudget (s.frameBalance + c) queued) s (frameStep c true s) := by
  have accrued : Quietly 0 [] s { s with frameBalance := s.frameBalance + c } := .idle rfl rfl rfl
  unfold frameStep frameCalls
  by_cases hx : (s.cfg.frameBudget : Int) < s.frameBalance + c
  · obtain ⟨k, boundary⟩ := quietly_frameBoundary (s := { s with frameBalance := s.frameBalance + c }) h hb
    rw [if_pos hx]
    exact ⟨_, (if_pos (decide_eq_true hx) : _ = frameBoundary true _) ▸ accrued.trans boundary⟩
  · rw [if_neg hx]
    exact ⟨_, (if_neg fun hd => hx (of_decide_eq_true hd) : _ = { s with frameBalance := _ }) ▸ accrued⟩

end

end

/-! ## The RUN -/

theorem quietly_settleRun (bal : Int) (e : LoopEnd) :
    Quietly 0 (if e.breakpoint then [.clearBreakpoint] else []) e.state (settleRun bal e) := by
  unfold settleRun
  split
  · exact ⟨rfl, rfl, rfl⟩
  · exact .idle rfl rfl rfl

/-- The calls of the loop of a RUN that goes through a script with nothing nested. -/
theorem quietly_scriptEnd {n : Nat} {s : State} {before : List ScriptedInstr} {last : ScriptedInstr}
    (hb : ∀ i ∈ before, i.ops = []) (hl : last.ops = []) (h : quietReplies (2 * before.length + 2) s = true) :
    Quietly (2 * before.length + 2) (scriptCalls (before ++ [last])) s (scriptEnd n before last s).state := by
  have raised : Quietly (2 * before.length) (scriptCalls before) s
      (scriptState before { s with cpuBalance := s.cpuBalance + n }) := by
    have hs := quietly_scriptState (s := { s with cpuBalance := s.cpuBalance + n }) before hb
      (quietReplies_mono h (by omega))
    exact ⟨hs.trace, hs.shared, hs.devs⟩
  have body := quietly_takenBody last.delta.toNat (raised.quiet h)
  have hcalls : scriptCalls (before ++ [last]) = scriptCalls before ++
      [.cpuExecute, .device (.run .cia last.delta.toNat), .device (.run .timer last.delta.toNat)] := by
    simp [scriptCalls]
  rw [hcalls, scriptEnd, hl]
  exact raised.trans body

/-- Steps 3 to 7 of a RUN with both samples listed, where the blitter's queue empties. -/
theorem quietly_finishRun {n occ1 occ2 queued : Nat} {occs : List Nat} {replies : List BlitReply} {s : State}
    {e : LoopEnd} (he : LoopOf n s e) (ho : s.env.occupancies = occ1 :: occ2 :: occs)
    (hb : s.env.blits = List.replicate queued (.ran [] true) ++ .ran [] false :: replies)
    (h : quietReplies 3 e.state = true) : ∃ k out, Quietly k
      ((if e.breakpoint then [.clearBreakpoint] else []) ++
        ([.audioQueueBytes] ++
          soundCalls s.recording s.cfg.audioTarget occ1 out (e.state.env.devs.getD 1 default).samples ++
          .audioQueueBytes :: startCalls s.cfg occ2) ++
        frameCalls s.cfg.frameBudget (s.frameBalance + e.consumed) queued)
      e.state (finishRun (s.cpuBalance + n) e) := by
  have settled := quietly_settleRun (s.cpuBalance + n) e
  obtain ⟨hcfg, hrec, -, hocc⟩ := settleRun_keeps he
  obtain ⟨k, out, hk, audio⟩ := quietly_audioStep e.consumed (hocc.trans ho)
    (settled.quiet (m := 2) (quietReplies_mono h (by decide)))
  have hdevs : (settleRun (s.cpuBalance + n) e).env.devs = e.state.env.devs := settled.devs
  rw [hrec, hcfg, hdevs] at audio
  have retimed := settled.trans audio
  obtain ⟨hrcfg, hrframe, hrblits⟩ := retimeRun_keeps he
  obtain ⟨k', frame⟩ := quietly_frameStep (s := retimeRun (s.cpuBalance + n) e)
    (retimed.quiet (m := 1) (quietReplies_mono h (by omega))) (hrblits.trans hb) e.consumed
  rw [hrcfg, hrframe] at frame
  rw [finishRun]
  exact ⟨_, out, (retimed.trans frame).answer _⟩

/-- Settles O44: the calls of the loop, then those of steps 3 to 7. -/
theorem runCallsItsAgentsInOrder : Obligations.RunCallsItsAgentsInOrder := by
  intro s n before last rest occ1 occ2 occs queued replies bal total ha hb hl hk hend hbal hf hc hm ho hblits hq hroom
  have he := loopOf_script ha (fun i hi => (hb i hi).1) hk hend hf hc hm
  have hdrain : drainHangs s.env.blits = false := by
    rw [hblits]
    clear hblits
    induction queued with
    | zero => rfl
    | succ queued ih => exact ih
  have hrun := exec_run_completes hbal he (.inr hdrain) hroom
  have loop := quietly_scriptEnd (n := n) (fun i hi => (hb i hi).2) hl (quietReplies_mono hq (by omega))
  obtain ⟨k, out, finish⟩ := quietly_finishRun he ho hblits
    (loop.quiet (m := 3) (quietReplies_mono hq (by omega)))
  have hdevs : (scriptEnd n before last s).state.env.devs.getD 1 default =
      s.env.devs.getD (2 * before.length + 3) default := by
    rw [loop.devs, List.getD_eq_getElem?_getD, List.getElem?_drop, List.getD_eq_getElem?_getD]
  rw [hdevs] at finish
  have whole := loop.trans finish
  generalize finishRun bal _ = t at hrun whole
  refine ⟨t, out, hrun, whole.trace.trans ?_, shared_eq_iff.mp whole.shared⟩
  simp only [List.append_assoc]
  rfl

end Sys2Proof.Machine
end

section
/-! Frame boundaries over rows of RUNs and PRUNs (43_scheduler.md R149, R152). -/

namespace Sys2Proof.Machine

/-! ## The frame law on numbers -/

/-- The boundaries taken and the frame balance left where steps of these cycles are taken from balance `x`. -/
def frameLaw (budget : Nat) : List Nat → Int → Nat × Int
  | [], x => (0, x)
  | c :: rest, x =>
    let (b, y) := frameLaw budget rest (carried budget (x + c))
    (if frameExceeded budget (x + c) then b + 1 else b, y)

section
variable {budget : Nat} {cs : List Nat} {x : Int}

theorem frameLaw_cons (c : Nat) (rest : List Nat) :
    frameLaw budget (c :: rest) x =
      (if frameExceeded budget (x + c) then (frameLaw budget rest (carried budget (x + c))).1 + 1
        else (frameLaw budget rest (carried budget (x + c))).1,
        (frameLaw budget rest (carried budget (x + c))).2) := rfl

/-- A step takes a boundary above the budget, which it then subtracts, and none otherwise. -/
theorem carried_cases (budget : Nat) (x : Int) :
    ((budget : Int) < x ∧ frameExceeded budget x = true ∧ carried budget x = x - budget) ∨
    (x ≤ budget ∧ frameExceeded budget x = false ∧ carried budget x = x) := by
  unfold carried
  by_cases h : (budget : Int) < x
  · have hx : frameExceeded budget x = true := decide_eq_true h
    exact .inl ⟨h, hx, if_pos hx⟩
  · have hx : frameExceeded budget x = false := decide_eq_false h
    exact .inr ⟨by omega, hx, if_neg (by simp [hx])⟩

theorem frameLaw_count_le (cs : List Nat) (x : Int) : (frameLaw budget cs x).1 ≤ cs.length := by
  induction cs generalizing x with
  | nil => exact Nat.le_refl 0
  | cons c rest ih =>
    have := ih (carried budget (x + c))
    rw [frameLaw_cons, List.length_cons]
    dsimp only
    split <;> omega

/-- The balance grows by the cycles, less the budget for each boundary. -/
theorem frameLaw_balance (cs : List Nat) (x : Int) :
    (frameLaw budget cs x).2 = x + cs.sum - (frameLaw budget cs x).1 * budget := by
  induction cs generalizing x with
  | nil => simp [frameLaw]
  | cons c rest ih =>
    rw [frameLaw_cons, List.sum_cons]
    dsimp only
    rw [ih, Nat.cast_add]
    obtain ⟨-, hx, hc⟩ | ⟨-, hx, hc⟩ := carried_cases budget (x + c)
    · rw [hx, hc, if_pos rfl, Nat.cast_succ, Int.add_mul]
      omega
    · rw [hx, hc, if_neg Bool.false_ne_true]
      omega

theorem frameLaw_nonneg (hx : 0 ≤ x) : 0 ≤ (frameLaw budget cs x).2 := by
  induction cs generalizing x with
  | nil => exact hx
  | cons c rest ih => exact ih (carried_bounds hx).1

/-- Steps above the budget take a boundary each. -/
theorem frameLaw_count_of_lt (hx : 0 ≤ x) (h : ∀ c ∈ cs, budget < c) : (frameLaw budget cs x).1 = cs.length := by
  induction cs generalizing x with
  | nil => rfl
  | cons c rest ih =>
    obtain ⟨hc, hrest⟩ := List.forall_mem_cons.mp h
    have hexceeded : frameExceeded budget (x + c) = true := decide_eq_true (by omega)
    rw [frameLaw_cons, hexceeded, if_pos rfl, ih (carried_bounds hx).1 hrest, List.length_cons]

theorem frameLaw_balance_le (hx : 0 ≤ x) (h : ∀ c ∈ cs, c ≤ budget) (hb : x ≤ budget) :
    (frameLaw budget cs x).2 ≤ budget := by
  induction cs generalizing x with
  | nil => exact hb
  | cons c rest ih =>
    obtain ⟨hc, hrest⟩ := List.forall_mem_cons.mp h
    obtain ⟨hnn, hle⟩ := carried_bounds (budget := budget) (c := c) hx
    exact ih hnn hrest (hle hc hb)

/-- As the test is strict, a boundary leaves a positive balance, so once there are cycles the row does too. -/
theorem frameLaw_balance_pos (h : 1 ≤ x + cs.sum) : 1 ≤ (frameLaw budget cs x).2 := by
  induction cs generalizing x with
  | nil => simpa [frameLaw] using h
  | cons c rest ih =>
    rw [List.sum_cons, Nat.cast_add] at h
    refine ih (x := carried budget (x + c)) ?_
    obtain ⟨hlt, -, hc⟩ | ⟨-, -, hc⟩ := carried_cases budget (x + c)
    · omega
    · omega

/-- From balance 0, steps of at most the budget take `floor((C - 1) / budget)` boundaries. -/
theorem frameLaw_count_from_zero (h : ∀ c ∈ cs, c ≤ budget) (hpos : 0 < cs.sum) :
    (frameLaw budget cs 0).1 = (cs.sum - 1) / budget := by
  have hbal := frameLaw_balance (budget := budget) cs 0
  have hle := frameLaw_balance_le (x := 0) (Int.le_refl 0) h (Int.natCast_nonneg budget)
  have hge := frameLaw_balance_pos (budget := budget) (cs := cs) (x := 0) (by omega)
  refine (Nat.div_eq_of_lt_le ?_ ?_).symm
  · zify
    omega
  · zify
    rw [Int.add_mul]
    omega

end

/-! ## Rows of RUNs and PRUNs with a TAKEFRAME after each -/

/-- The state after a TAKEFRAME (R149). -/
def afterTakeframe (s : State) : State := answer (.bool s.frameDone) { s with frameDone := false }

/-- A row that completes: the first step, its TAKEFRAME, then the others. -/
theorem framesAll_cons {i : Instr} {rest : List Instr} {s t : State} {cs : List Nat} {b : Nat} :
    framesAll (i :: rest) s = some (cs, b, t) ↔ ∃ s' cs' b', exec i s = .next s' ∧
      framesAll rest (afterTakeframe s') = some (cs', b', t) ∧ cs = (ciaCycles s' - ciaCycles s) :: cs' ∧
      b = if s'.frameDone then b' + 1 else b' := by
  have htake : ∀ u, exec .takeframe u = .next (afterTakeframe u) := fun _ => rfl
  have hmark : ∀ u, (afterTakeframe u).result = .bool true ↔ u.frameDone = true := fun u => by
    simp [afterTakeframe]
  rw [framesAll]
  cases hexec : exec i s with
  | next s' =>
    simp only [htake, hmark]
    cases hrest : framesAll rest (afterTakeframe s') with
    | none =>
      refine ⟨nofun, ?_⟩
      rintro ⟨_, _, _, ⟨⟩, hsome, -⟩
      rw [hrest] at hsome
      cases hsome
    | some p =>
      obtain ⟨cs', b', u⟩ := p
      constructor
      · rintro ⟨⟩
        exact ⟨s', cs', b', rfl, hrest, rfl, rfl⟩
      · rintro ⟨_, _, _, ⟨⟩, hsome, rfl, rfl⟩
        rw [hrest] at hsome
        cases hsome
        rfl
  | fault _ => exact ⟨nofun, by rintro ⟨_, _, _, ⟨⟩, -⟩⟩
  | refused _ => exact ⟨nofun, by rintro ⟨_, _, _, ⟨⟩, -⟩⟩

/-- From a clear mark, the boundaries a row counts and the balance it leaves are those of the frame law. -/
theorem framesAll_law {steps : List Instr} {s t : State} {cs : List Nat} {b : Nat}
    (hsteps : ∀ i ∈ steps, ∃ n, i = .run n ∨ i = .prun n) (hmark : s.frameDone = false)
    (h : framesAll steps s = some (cs, b, t)) :
    cs.length = steps.length ∧ frameLaw s.cfg.frameBudget cs s.frameBalance = (b, t.frameBalance) := by
  induction steps generalizing s cs b with
  | nil =>
    cases h
    exact ⟨rfl, rfl⟩
  | cons i rest ih =>
    obtain ⟨s', cs', b', hexec, hrest, rfl, rfl⟩ := framesAll_cons.mp h
    obtain ⟨⟨n, hi⟩, hsteps⟩ := List.forall_mem_cons.mp hsteps
    obtain ⟨c, hs⟩ := scheduled_exec hi hexec
    obtain ⟨hlen, hlaw⟩ := ih hsteps rfl hrest
    have hcfg : (afterTakeframe s').cfg = s.cfg := hs.cfg
    have hframe : (afterTakeframe s').frameBalance = carried s.cfg.frameBudget (s.frameBalance + c) :=
      hs.frameBalance
    rw [hcfg, hframe] at hlaw
    rw [hs.cia, Nat.add_sub_cancel_left, frameLaw_cons, hlaw, hs.frameDone, hmark, Bool.false_or]
    exact ⟨congrArg Nat.succ hlen, rfl⟩

/-! ## Rows of PRUNs -/

/-- A row of PRUNs whose cycles and tallies fit: each of at most the budget, from a balance not above it. -/
structure PrunsFit (ns : List Nat) (s : State) : Prop where
  balance_nonneg : 0 ≤ s.frameBalance
  balance_le : s.frameBalance ≤ s.cfg.frameBudget
  cycles_le : ∀ n ∈ ns, n ≤ s.cfg.frameBudget
  budget_le : 2 * (s.cfg.frameBudget : Int) ≤ balanceMax
  underrun_lt : s.underrun.toNat + ns.length < 2 ^ 64
  equalrun_lt : s.equalrun.toNat + ns.length < 2 ^ 64
  overrun_lt : s.overrun.toNat + ns.length < 2 ^ 64

theorem PrunsFit.hasRoom {n : Nat} {rest : List Nat} {s : State} (h : PrunsFit (n :: rest) s) :
    s.tallyHasRoom = true := by
  have hne : ∀ x : Quad, x.toNat + (n :: rest).length < 2 ^ 64 → x ≠ tallyMax := by
    rintro x hx rfl
    have hmax : tallyMax.toNat = 2 ^ 64 - 1 := rfl
    rw [hmax, List.length_cons] at hx
    omega
  have hu := hne _ h.underrun_lt
  have he := hne _ h.equalrun_lt
  have ho := hne _ h.overrun_lt
  unfold State.tallyHasRoom State.tallyFor
  split
  · split
    · simpa using hu
    · split
      · simpa using he
      · simpa using ho
  · simp [hu, he, ho]

theorem Band.increments_le_one (band : Band) : band.increments.1.toNat ≤ 1 ∧
    band.increments.2.1.toNat ≤ 1 ∧ band.increments.2.2.toNat ≤ 1 := by
  cases band <;> decide

/-- The first PRUN of such a row completes, and the others fit after it. -/
theorem PrunsFit.step {n : Nat} {rest : List Nat} {s : State} (h : PrunsFit (n :: rest) s) :
    ∃ s', exec (.prun n) s = .next s' ∧ Scheduled s s' n ∧ PrunsFit rest s' := by
  obtain ⟨hn, hrest⟩ := List.forall_mem_cons.mp h.cycles_le
  have hle := h.balance_le
  have hbudget := h.budget_le
  have hexec := exec_prun_completes (n := n) (by omega) h.hasRoom
  have hs := scheduled_execPrun hexec
  generalize answer _ _ = s' at hexec hs
  obtain ⟨hnn, hb⟩ := carried_bounds (budget := s.cfg.frameBudget) (c := n) h.balance_nonneg
  rw [← hs.frameBalance] at hnn hb
  obtain ⟨band, -, hroom, hu, he, ho⟩ := hs.tallies
  obtain ⟨nu, ne, nv⟩ := toNat_counted hroom
  obtain ⟨h1, h2, h3⟩ := band.increments_le_one
  have hunder := h.underrun_lt
  have hequal := h.equalrun_lt
  have hover := h.overrun_lt
  rw [List.length_cons] at hunder hequal hover
  exact ⟨s', hexec, hs, {
    balance_nonneg := hnn
    balance_le := by rw [hs.cfg]; exact hb hn hle
    cycles_le := by rw [hs.cfg]; exact hrest
    budget_le := by rw [hs.cfg]; exact hbudget
    underrun_lt := by rw [hu, nu]; omega
    equalrun_lt := by rw [he, ne]; omega
    overrun_lt := by rw [ho, nv]; omega }⟩

theorem PrunsFit.afterTakeframe {ns : List Nat} {s : State} (h : PrunsFit ns s) :
    PrunsFit ns (Machine.afterTakeframe s) :=
  ⟨h.balance_nonneg, h.balance_le, h.cycles_le, h.budget_le, h.underrun_lt, h.equalrun_lt, h.overrun_lt⟩

/-- Such a row completes with its TAKEFRAMEs, which count the boundaries of the frame law. -/
theorem framesAll_pruns {ns : List Nat} {s : State} (h : PrunsFit ns s) (hmark : s.frameDone = false) :
    ∃ t, framesAll (ns.map .prun) s = some (ns, (frameLaw s.cfg.frameBudget ns s.frameBalance).1, t) := by
  have completes : ∃ b t, framesAll (ns.map .prun) s = some (ns, b, t) := by
    clear hmark
    induction ns generalizing s with
    | nil => exact ⟨0, s, rfl⟩
    | cons n rest ih =>
      obtain ⟨s', hexec, hs, hfit⟩ := h.step
      obtain ⟨b, t, hrest⟩ := ih hfit.afterTakeframe
      refine ⟨_, t, framesAll_cons.mpr ⟨s', rest, b, hexec, hrest, ?_, rfl⟩⟩
      rw [hs.cia, Nat.add_sub_cancel_left]
  obtain ⟨b, t, hrow⟩ := completes
  have hsteps : ∀ i ∈ ns.map Instr.prun, ∃ n, i = .run n ∨ i = .prun n := fun i hi => by
    obtain ⟨n, -, rfl⟩ := List.mem_map.mp hi
    exact ⟨n, .inr rfl⟩
  obtain ⟨-, hlaw⟩ := framesAll_law hsteps hmark hrow
  exact ⟨t, by rw [hlaw]; exact hrow⟩

/-- Such a row completes without them as well, and leaves the mark set where it took a boundary. -/
theorem execAll_pruns {ns : List Nat} {s : State} (h : PrunsFit ns s) :
    ∃ t, execAll (ns.map .prun) s = some t ∧
      t.frameBalance = (frameLaw s.cfg.frameBudget ns s.frameBalance).2 ∧
      t.frameDone = (s.frameDone || decide (0 < (frameLaw s.cfg.frameBudget ns s.frameBalance).1)) := by
  induction ns generalizing s with
  | nil => exact ⟨s, rfl, rfl, (Bool.or_false _).symm⟩
  | cons n rest ih =>
    obtain ⟨s', hexec, hs, hfit⟩ := h.step
    obtain ⟨t, hrest, hbal, hmark⟩ := ih hfit
    rw [hs.cfg, hs.frameBalance] at hbal hmark
    refine ⟨t, (execAll_cons hexec _).trans hrest, hbal, ?_⟩
    rw [hmark, hs.frameDone, frameLaw_cons, Bool.or_assoc]
    cases frameExceeded s.cfg.frameBudget (s.frameBalance + n) <;> simp

/-- Settles O47: rows with TAKEFRAMEs follow the frame law, and PRUNs that fit complete. -/
theorem frameBoundariesOverASequence : Obligations.FrameBoundariesOverASequence := by
  constructor
  · intro steps s t cs b hsteps hnn hmark h
    obtain ⟨hlen, hlaw⟩ := framesAll_law hsteps hmark h
    obtain ⟨rfl, hbal⟩ := Prod.mk.inj hlaw
    rw [← hlen, ← hbal]
    refine ⟨rfl, frameLaw_count_le cs _, frameLaw_nonneg hnn, frameLaw_balance cs _,
      frameLaw_count_of_lt hnn, fun hle hb => ⟨frameLaw_balance_le hnn hle hb, fun hzero hpos => ?_⟩⟩
    rw [hzero]
    exact ⟨frameLaw_count_from_zero hle hpos, frameLaw_balance_pos (by omega)⟩
  · intro ns s hzero hle hpos hbudget hu he ho
    have hfit : PrunsFit ns s := ⟨hzero.ge, by omega, hle, hbudget, hu, he, ho⟩
    have hcount := frameLaw_count_from_zero hle hpos
    refine ⟨fun hmark => ?_, ?_⟩
    · obtain ⟨t, ht⟩ := framesAll_pruns hfit hmark
      rw [hzero, hcount] at ht
      exact ⟨t, ht⟩
    · obtain ⟨t, ht, hbal, hmark⟩ := execAll_pruns hfit
      rw [hzero] at hbal hmark
      rw [hcount] at hmark
      refine ⟨t, ht, ?_, ?_, ?_, ?_⟩
      · rw [hbal, frameLaw_balance, hcount, Int.zero_add, Int.mul_comm]
      · rw [hbal]
        exact frameLaw_balance_pos (by omega)
      · rw [hbal]
        exact frameLaw_balance_le (Int.le_refl 0) hle (Int.natCast_nonneg _)
      · have hiff : 0 < (ns.sum - 1) / s.cfg.frameBudget ↔ s.cfg.frameBudget < ns.sum := by
          rw [Nat.div_pos_iff]
          obtain ⟨n, hn⟩ : ∃ n ∈ ns, 0 < n := by
            by_contra! hall
            exact absurd (List.sum_eq_zero fun n hn => Nat.le_zero.mp (hall n hn)) (by omega)
          have := hle n hn.1
          omega
        rw [hmark, decide_eq_decide.mpr hiff]

end Sys2Proof.Machine
end

section
/-! How a command ends (60_exceptions.md R180, 70_reset_and_hazards.md R210): with a next state, or, if it is RUN or
PRUN, with a fault. -/

namespace Sys2Proof.Machine

/-- Every command but RUN and PRUN answers a next state. -/
theorem exec_completes {i : Instr} (hi : ¬ ∃ n, i = .run n ∨ i = .prun n) (s : State) :
    ∃ t, exec i s = .next t := by
  cases i
  case run n => exact absurd ⟨n, .inl rfl⟩ hi
  case prun n => exact absurd ⟨n, .inr rfl⟩ hi
  all_goals exact ⟨_, rfl⟩

theorem execRun_ne_refused (n : Nat) (s : State) (r : Refusal) : execRun n s ≠ .refused r := by
  unfold execRun
  dsimp only
  split
  · nofun
  · split
    · nofun
    · split
      · nofun
      · split <;> nofun

theorem execPrun_ne_refused (n : Nat) (s : State) (r : Refusal) : execPrun n s ≠ .refused r := by
  unfold execPrun
  dsimp only
  split
  · nofun
  · split <;> nofun

/-- A reserved command is answered with E_ENC (30_encoding.md R74). -/
theorem step_of_reserved {s : State} {c : Command} {rest : List Command} {e : Reject}
    (hc : s.commands = c :: rest) (hd : decode c = .error e) : step s = .next (raise (.eEnc c.cw c.d)
      { s with commands := rest, status := .ok, result := .none, trace := [] }) := by
  simp only [step, takeCommand, hc, hd]

/-- Where a step answers no next state, it performed a RUN or a PRUN. -/
theorem step_completes_or_runs (s : State) : (∃ t, step s = .next t) ∨
    ∃ c rest n s', s.commands = c :: rest ∧ ((decode c = .ok (.run n) ∧ step s = execRun n s') ∨
      (decode c = .ok (.prun n) ∧ step s = execPrun n s')) := by
  cases hc : s.commands with
  | nil => exact .inl ⟨s, step_of_none hc⟩
  | cons c rest =>
    cases hd : decode c with
    | error e => exact .inl ⟨_, step_of_reserved hc hd⟩
    | ok i =>
      have hstep := step_of_decode hc hd
      by_cases hi : ∃ n, i = .run n ∨ i = .prun n
      · obtain ⟨n, rfl | rfl⟩ := hi
        · exact .inr ⟨c, rest, n, _, rfl, .inl ⟨hd, hstep⟩⟩
        · exact .inr ⟨c, rest, n, _, rfl, .inr ⟨hd, hstep⟩⟩
      · obtain ⟨t, ht⟩ := exec_completes hi _
        exact .inl ⟨t, hstep.trans ht⟩

/-- Settles O7: a step that answers no next state is a RUN or a PRUN, and neither is refused. -/
theorem onlyRunAndPrunCanStop : Obligations.OnlyRunAndPrunCanStop := by
  intro s
  obtain ⟨t, ht⟩ | ⟨c, rest, n, s', hc, ⟨hd, hstep⟩ | ⟨hd, hstep⟩⟩ := step_completes_or_runs s
  · rw [ht]
    exact ⟨nofun, nofun⟩
  · exact ⟨hstep ▸ execRun_ne_refused n s', fun _ _ => ⟨c, rest, n, hc, .inl hd⟩⟩
  · exact ⟨hstep ▸ execPrun_ne_refused n s', fun _ _ => ⟨c, rest, n, hc, .inr hd⟩⟩

end Sys2Proof.Machine
end

section
/-! What a command that ends with an error status leaves (60_exceptions.md R180, R181). -/

namespace Sys2Proof.Machine

/-- The one call a command can have made that then ended with an error status. -/
def Event.Opens (e : Event) : Prop := ∃ fileref, e = .openBinary fileref

/-- `t` is `s` after a command that was not performed (R180). -/
structure Unperformed (s t : State) : Prop where
  block : t.block = s.block
  result : t.result = .none
  devs : t.env.devs = s.env.devs
  calls : Extends Event.Opens s t

theorem unperformed_raise (st : Status) (s : State) : Unperformed s (raise st s) := ⟨rfl, rfl, rfl, .of_eq rfl⟩

@[simp] theorem devs_takeBinFile (s : State) : (takeBinFile s).2.env.devs = s.env.devs := by
  unfold takeBinFile
  split <;> rfl

/-- R97: a file that fails INSBIN's check has been opened, and nothing else done. -/
theorem unperformed_insbin (fileref : Word) (st : Status) (s : State) :
    Unperformed s (raise st (takeBinFile (record (.openBinary fileref) s)).2) where
  block := by simp
  result := rfl
  devs := by simp
  calls := .one (by simp) ⟨fileref, rfl⟩

theorem execInsbin_performed {fileref : Word} {s t : State} (h : execInsbin fileref s = .next t) :
    t.status.performed = true ∨ Unperformed s t := by
  obtain rfl := Host.Outcome.next.inj h
  split
  · exact .inr (unperformed_insbin fileref _ s)
  · exact .inl rfl
  · exact .inr (unperformed_insbin fileref _ s)

/-- IRQASR and IRQDEA fail on a handle that is not registered. -/
theorem exec_driveCommand_performed {d : Nat × Bool} {s t : State} (h : exec (driveCommand d) s = .next t) :
    t.status.performed = true ∨ Unperformed s t := by
  by_cases hd : d.1 < s.irqLines.length
  · rw [exec_driveCommand_of_lt hd] at h
    obtain rfl := Host.Outcome.next.inj h
    exact .inl rfl
  · rw [exec_driveCommand_of_ge (Nat.not_lt.mp hd)] at h
    obtain rfl := Host.Outcome.next.inj h
    exact .inr (unperformed_raise _ s)

theorem loadRom_performed (s : State) : (loadRom s).1.performed = true := by
  obtain ⟨-, -, -, -, -, hok | hfallback, -⟩ := loadRom_eq s
  · rw [hok]; rfl
  · rw [hfallback]; rfl

/-- A command is performed, or it leaves everything but the record of the file it opened. The commands after the
named cases always end with OK. -/
theorem exec_performed {i : Instr} {s t : State} (h : exec i s = .next t) :
    t.status.performed = true ∨ Unperformed s t := by
  cases i
  case insbin fileref => exact execInsbin_performed h
  case irqreg level =>
    obtain ⟨-, rfl⟩ | ⟨-, rfl⟩ := execIrqreg_cases h
    · exact .inr (unperformed_raise _ s)
    · exact .inl rfl
  case irqasr handle => exact exec_driveCommand_performed (d := (handle, true)) h
  case irqdea handle => exact exec_driveCommand_performed (d := (handle, false)) h
  case ldrom =>
    obtain rfl := Host.Outcome.next.inj ((execLdrom_eq s).symm.trans h)
    exact .inl (loadRom_performed s)
  case reset =>
    obtain rfl := Host.Outcome.next.inj ((execReset_eq s).symm.trans h)
    exact .inl (loadRom_performed _)
  case run n =>
    obtain ⟨-, e, -, -, rfl⟩ := execRun_eq h
    exact .inl rfl
  case prun n =>
    obtain ⟨-, -, rfl⟩ := execPrun_eq h
    exact .inl rfl
  all_goals
    obtain rfl := Host.Outcome.next.inj h
    exact .inl rfl

/-- A step that ends with an error status left all but the record of a file opened and the command's place in the
queue. -/
theorem step_unperformed {s t : State} (hne : s.commands ≠ []) (h : step s = .next t)
    (hst : t.status.performed = false) : ∃ rest, Unperformed
      { s with commands := rest, status := .ok, result := .none, trace := [] } t := by
  obtain ⟨hnone, -⟩ | ⟨c, rest, s', -, rfl, ⟨i, -, hexec⟩ | ⟨-, rfl⟩⟩ := step_cases h
  · exact absurd hnone hne
  · exact ⟨rest, (exec_performed hexec).resolve_left (by simp [hst])⟩
  · exact ⟨rest, unperformed_raise _ _⟩

/-- Settles O8: the record of calls starts afresh, and a file opened is all that a command not performed adds. -/
theorem failedCommandsChangeNothing : Obligations.FailedCommandsChangeNothing := by
  intro s t hne h hst
  obtain ⟨rest, hblock, hresult, hdevs, calls, htrace, hcalls⟩ := step_unperformed hne h hst
  have htrace : t.trace = calls := htrace
  exact ⟨hblock, hresult, hdevs, htrace ▸ hcalls⟩

end Sys2Proof.Machine
end

section
/-! The operations a device nests in a call (00_scope.md R8, 60_exceptions.md R185): which call allows which, and that
they follow the call in order. -/

namespace Sys2Proof.Machine

/-! ## What a call allows (log 14) -/

theorem allows_irqAssert_iff (call : DevCall) (h : Nat) : call.allows (.irqAssert h) = true ↔
    (∀ d, call ≠ .reset d) ∧ call ≠ .clearRecordBuffer ∧ call ≠ .drainRecordBuffer := by
  cases call <;> simp [DevCall.allows, DevCall.allowsIrq]

theorem allows_irqDeassert_iff (call : DevCall) (h : Nat) : call.allows (.irqDeassert h) = true ↔
    call ≠ .clearRecordBuffer ∧ call ≠ .drainRecordBuffer := by
  cases call <;> simp [DevCall.allows, DevCall.allowsIrq]

/-- The calls of the blitter. -/
theorem device_eq_blitter_iff (call : DevCall) : call.device = .blitter ↔
    call = .reset .blitter ∨ (∃ n, call = .run .blitter n) ∨ (∃ o, call = .ioRead .blitter o) ∨
      (∃ o v, call = .ioWrite .blitter o v) ∨ (∃ o, call = .ctxRead o) ∨ (∃ o v, call = .ctxWrite o v) ∨
      call = .notifyScreenRefresh ∨ call = .runNextOperation := by
  cases call <;> simp [DevCall.device]

/-- Video memory is reached in the blitter's calls. -/
theorem allows_vram_iff {op : DevOp} (hop : (∃ a, op = .vramRead a) ∨ ∃ a v, op = .vramWrite a v)
    (call : DevCall) : call.allows op = true ↔ call.device = .blitter := by
  obtain ⟨a, rfl⟩ | ⟨a, v, rfl⟩ := hop
  · exact beq_iff_eq
  · exact beq_iff_eq

/-! ## The operations of a call -/

/-- A call and the operations it allows, in order. -/
theorem opsDone_callDevice {s : State} (call : DevCall) {r : DevReply} {rest : List DevReply}
    (h : s.env.devs = r :: rest) : opsDone (r.ops.filter call.allows)
      { s with trace := s.trace ++ [.device call], env := { s.env with devs := rest } }
      (callDevice call s).2 := by
  rw [callDevice_listed h]
  exact opsDone_foldl _ _

/-- A registered line that is driven gives the level of the new table and its push. -/
theorem lineDriven_attached {h : Nat} {pulled : Bool} {s t : State} (hd : lineDriven h pulled s t)
    (hh : h < s.irqLines.length) (hcpu : s.cfg.cpuAttached = true) : t = { s with
      irqLines := setLine s.irqLines h pulled
      ipl := aggregateLevel (setLine s.irqLines h pulled)
      trace := s.trace ++ [.setIpl (aggregateLevel (setLine s.irqLines h pulled)), .reply .ok .none] } := by
  rw [lineDriven, if_pos hh] at hd
  simpa [hcpu, setLine] using hd

/-- A call in which a device pulls one registered line. -/
theorem callDevice_irqAssert {s : State} {call : DevCall} {h : Nat} {r : DevReply} {rest : List DevReply}
    (hh : h < s.irqLines.length) (hcpu : s.cfg.cpuAttached = true) (hallows : call.allows (.irqAssert h) = true)
    (hd : s.env.devs = r :: rest) (hops : r.ops = [.irqAssert h]) : callDevice call s = (r, { s with
      irqLines := setLine s.irqLines h true
      ipl := aggregateLevel (setLine s.irqLines h true)
      trace := s.trace ++ [.device call, .setIpl (aggregateLevel (setLine s.irqLines h true)), .reply .ok .none]
      env := { s.env with devs := rest } }) := by
  have hdone := opsDone_callDevice call hd
  rw [hops, List.filter_singleton, hallows] at hdone
  obtain ⟨u, hu, hlast⟩ := hdone
  refine Prod.ext (callDevice_listed_value hd) (hlast.trans ?_)
  rw [lineDriven_attached hu hh hcpu]
  simp

/-! ## The drain -/

/-- A step of the blitter's drain allows every operation. -/
theorem opsDone_runNextOperation (ops : List DevOp) (s : State) :
    opsDone ops s (devOps .runNextOperation ops s) := by
  have hops : ops.filter DevCall.runNextOperation.allows = ops :=
    List.filter_eq_self.mpr fun op _ => by cases op <;> rfl
  rw [devOps, hops]
  exact opsDone_foldl ops s

/-- One step of a drain whose next answer is listed: the call, the operations it nests, and the drain from there
where there is more. -/
theorem drainBlitter_listed {s : State} {ops : List DevOp} {more : Bool} {replies : List BlitReply}
    (h : s.env.blits = .ran ops more :: replies) : ∃ t, opsDone ops
      { s with trace := s.trace ++ [.device .runNextOperation], env := { s.env with blits := replies } } t ∧
      drainBlitter (blitAnswers s) s = if more then drainBlitter (blitAnswers t) t else t := by
  have htake : takeBlit (record (.device .runNextOperation) s) =
      { s with trace := s.trace ++ [.device .runNextOperation], env := { s.env with blits := replies } } := by
    simp [takeBlit, record, withBlits, h]
  have hanswers : blitAnswers s = .ran ops more :: (replies ++ Config.freeBlits s.env.drawn) := by
    rw [blitAnswers, h, List.cons_append]
  refine ⟨_, opsDone_runNextOperation ops _, ?_⟩
  rw [hanswers, drainBlitter, htake, blitAnswers, env_devOps]

/-- Settles O31: what a call is by its listed answer, the drain one answer at a time, and the two bus accesses
that are such a call. -/
theorem aDeviceAssertIsPushedAtOnce : Obligations.ADeviceAssertIsPushedAtOnce := by
  refine ⟨fun s call h r rest => callDevice_irqAssert,
    fun s call r rest hd => ⟨callDevice_listed_value hd, opsDone_callDevice call hd⟩,
    fun s ops more replies => drainBlitter_listed, fun s a call hcall => ?_,
    fun s a v call => exec_wr8_of_writeCall,
    fun call h => ⟨allows_irqAssert_iff call h, allows_irqDeassert_iff call h⟩,
    fun call op hop => (allows_vram_iff hop call).trans (device_eq_blitter_iff call)⟩
  rw [exec_rd8, read8_of_readCall hcall]
  rfl

end Sys2Proof.Machine
end

section
/-! Where a RUN does not end (70_reset_and_hazards.md R210): in its loop, and in the drain of its frame step. -/

namespace Sys2Proof.Machine

/-- Below the balance the loop of RUN does not end where the CPU's clock stands still or its answers are over. -/
theorem runLoop_stuck {bal frame : Int} {tail : List ExecReply} {consumed : Nat} {s : State}
    (ht : tail = [] ∨ ∃ rest, tail = .stalled :: rest) (hlt : (consumed : Int) < bal) :
    runLoop bal frame tail consumed s = .error .runStuck := by
  have hstuck : stalledLoop bal consumed s = .error .runStuck := if_neg (Int.not_le.mpr hlt)
  obtain rfl | ⟨rest, rfl⟩ := ht
  · exact hstuck
  · exact hstuck

/-- A drain whose listed answers name it endless hangs, whatever follows them. -/
theorem drainHangs_of_namesEndless {l : List BlitReply} (h : namesEndless l = true) (l' : List BlitReply) :
    drainHangs (l ++ l') = true := by
  induction l with
  | nil => cases h
  | cons r rest ih =>
    cases r with
    | endless => rfl
    | ran ops more =>
      obtain ⟨hmore, hrest⟩ := (Bool.and_eq_true_iff ..).mp h
      exact (Bool.and_eq_true_iff ..).mpr ⟨hmore, ih hrest⟩

section
variable {n : Nat} {s : State} {e : LoopEnd}

/-- The frame step of a RUN does not end where it takes a boundary and the blitter's listed answers name its drain
endless. -/
theorem frameHangs_retimeRun_of_namesEndless (he : LoopOf n s e)
    (hx : s.cfg.frameBudget < s.frameBalance + e.consumed) (h : namesEndless s.env.blits = true) :
    frameHangs e.consumed (retimeRun (s.cpuBalance + n) e) = true := by
  obtain ⟨hcfg, hframe, hblits⟩ := retimeRun_keeps he
  rw [← hblits] at h
  rw [frameHangs, hcfg, hframe, Bool.and_eq_true_iff]
  exact ⟨decide_eq_true hx, drainHangs_of_namesEndless h _⟩

theorem exec_run_drainStuck (hbal : s.cpuBalance + n ≤ balanceMax) (he : LoopOf n s e)
    (hx : s.cfg.frameBudget < s.frameBalance + e.consumed) (h : namesEndless s.env.blits = true)
    (hroom : s.tallyHasRoom = true) : exec (.run n) s = .fault .drainStuck := by
  rw [exec_run_of_loop hbal he, (bandOf_run he).hasRoom hroom, frameHangs_retimeRun_of_namesEndless he hx h]
  rfl

end

/-- Settles O38: past the script the loop is stuck, or its last instruction ends it and the drain hangs. -/
theorem runHangsAreNamed : Obligations.RunHangsAreNamed := by
  intro s n before tail bal ha hb hbal hf hc hk
  refine ⟨fun hlt ht => ?_, fun last rest ht hend hframe hclock hmin hx hblits hroom => ?_⟩
  · exact execRun_of_loop_error hbal ((runLoop_execAnswers ha hb hk hf hc).trans (runLoop_stuck ht hlt))
  · subst ht
    rw [Int.add_assoc, ← Nat.cast_add] at hframe hx
    rw [Int.sub_sub, ← Nat.cast_add] at hmin
    rw [Nat.add_assoc] at hclock
    have he := loopOf_script ha hb hk hend hframe hclock hmin
    exact exec_run_drainStuck hbal he hx hblits hroom

end Sys2Proof.Machine
end

section
/-! RESET (70_reset_and_hazards.md R200, R201): the image its load leaves, the lines its resets can release, and its
calls in order. -/

namespace Sys2Proof.Machine

/-! ## The image -/

/-- The load writes the image alone, calls the host once and takes no input but its answer (R96). -/
theorem loadRom_leaves (s : State) : ∃ rom files drawn, (loadRom s).2 = { s with
    rom := rom, trace := s.trace ++ [.romFile], env := { s.env with romFiles := files, drawn := drawn } } := by
  have take : ∃ files drawn, (takeRomFile (record .romFile s)).2 = { s with
      trace := s.trace ++ [.romFile], env := { s.env with romFiles := files, drawn := drawn } } := by
    unfold takeRomFile
    split
    · exact ⟨_, _, rfl⟩
    · exact ⟨_, _, rfl⟩
  obtain ⟨files, drawn, hu⟩ := take
  unfold loadRom
  generalize takeRomFile (record .romFile s) = p at hu
  obtain ⟨f, u⟩ := p
  subst hu
  cases f with
  | notConfigured => exact ⟨_, _, _, rfl⟩
  | missing => exact ⟨_, _, _, rfl⟩
  | file b =>
    dsimp only
    split
    · exact ⟨_, _, _, rfl⟩
    · exact ⟨_, _, _, rfl⟩

theorem romSize_le_loadedImage {c : Config} (hc : c.wf) (f : RomFile) : romSize ≤ (loadedImage c f).length := by
  have hdefault : romSize ≤ c.defaultRom.length := (defaultRom_length hc).ge
  cases f with
  | notConfigured => exact hdefault
  | missing => exact hdefault
  | file b =>
    by_cases hb : romSize ≤ b.length
    · exact hb.trans_eq (congrArg List.length (if_pos hb).symm)
    · exact hdefault.trans_eq (congrArg List.length (if_neg hb).symm)

theorem romByte_loadRom {s : State} {f : RomFile} {rest : List RomFile} (hc : s.cfg.wf)
    (hf : s.env.romFiles = f :: rest) {i : Nat} (hi : i < romSize) :
    romByte (loadRom s).2 i = (loadedImage s.cfg f).getD i 0 := by
  rw [loadRom_listed hc hf]
  exact romByte_ofBytes_take (romSize_le_loadedImage hc f) hi s

/-- What RESET leaves: the fields are cleared, the image loaded and the agents reset, in that order (R200). -/
theorem eq_of_exec_reset {s t : State} (h : exec .reset s = .next t) :
    raise (loadRom (clearScheduler s)).1 (resetAgents (loadRom (clearScheduler s)).2) = t :=
  Host.Outcome.next.inj ((execReset_eq s).symm.trans h)

/-- RESET leaves the image its load gives: no agent it resets writes the ROM. -/
theorem rom_exec_reset {s t : State} (h : exec .reset s = .next t) : t.rom = (loadRom (clearScheduler s)).2.rom := by
  rw [← eq_of_exec_reset h, raise_rom, rom_of_own (own_resetAgents _)]

/-- The status and the image of a RESET whose answer for the ROM is listed. -/
theorem exec_reset_listed {s t : State} {f : RomFile} {rest : List RomFile} (hc : s.cfg.wf)
    (hf : s.env.romFiles = f :: rest) (h : exec .reset s = .next t) :
    t.status = loadStatus f ∧ ∀ i < romSize, romByte t i = (loadedImage s.cfg f).getD i 0 := by
  refine ⟨?_, fun i hi => ?_⟩
  · rw [← eq_of_exec_reset h, raise_status, loadRom_listed (s := clearScheduler s) hc hf]
  · rw [romByte_of_rom (rom_exec_reset h)]
    exact romByte_loadRom (s := clearScheduler s) hc hf hi

/-! ## The lines -/

/-- From `s` to `t` lines were released at most, and the level stayed that of the table. -/
structure Releases (s t : State) : Prop where
  pulled : ∀ h, t.pulled h = true → s.pulled h = true
  level : s.ipl = aggregateLevel s.irqLines → t.ipl = aggregateLevel t.irqLines

namespace Releases

variable {s t u : State}

theorem trans (h1 : Releases s t) (h2 : Releases t u) : Releases s u where
  pulled h hp := h1.pulled h (h2.pulled h hp)
  level hl := h2.level (h1.level hl)

theorem of_lines (hlines : t.irqLines = s.irqLines) (hipl : t.ipl = s.ipl) : Releases s t where
  pulled h hp := by rwa [State.pulled, hlines] at hp
  level hl := by rwa [hlines, hipl]

theorem of_block (hb : t.block = s.block) : Releases s t := of_lines (irqLines_of_block hb) (ipl_of_block hb)

theorem deassert (i : Nat) (s : State) : Releases s (driveLine i false s).2 where
  pulled h hp := by
    unfold driveLine at hp
    split at hp
    · rw [pulled_of_setLine (d := (i, false)) ‹_› (recompute_irqLines _)] at hp
      split at hp
      · cases hp
      · exact hp
    · exact hp
  level := ipl_driveLine i false s

/-- What a device may do in its reset (log 14). -/
theorem devOp {d : Dev} {op : DevOp} (ha : (DevCall.reset d).allows op = true) (s : State) :
    Releases s (devOp s op) := by
  cases op with
  | irqAssert i => cases ha
  | irqDeassert i => exact (deassert i s).trans (of_lines rfl rfl)
  | vramRead a => exact of_lines rfl rfl
  | vramWrite a v => exact of_lines rfl rfl

theorem foldl_devOp {d : Dev} {ops : List DevOp} (ha : ∀ op ∈ ops, (DevCall.reset d).allows op = true) (s : State) :
    Releases s (ops.foldl Machine.devOp s) := by
  induction ops generalizing s with
  | nil => exact of_lines rfl rfl
  | cons op rest ih =>
    obtain ⟨hop, hrest⟩ := List.forall_mem_cons.mp ha
    exact (devOp hop s).trans (ih hrest _)

theorem resetDevice (d : Dev) (s : State) : Releases s (resetDevice d s) :=
  have called : Releases s (takeDevReply (record (.device (.reset d)) s)).2 :=
    of_block (block_takeDevReply _)
  called.trans (foldl_devOp (fun _ hop => (List.mem_filter.mp hop).2) _)

end Releases

/-! ## The CPU's reset -/

/-- The answers to the reads of the vectors depend on the image alone. -/
theorem vectorAnswer_of_rom {s t : State} (h : t.rom = s.rom) : vectorAnswer t = vectorAnswer s := by
  funext op
  cases op <;> simp only [vectorAnswer, romByte_of_rom h]

/-- `CPU.reset()` sets the counter to 0 and takes its operations; of these it performs the reads of the vectors. -/
theorem cpuReset_eq (s : State) : cpuReset s =
    let taken := takeResetOps (record .cpuReset (withClock 0 s))
    { taken.2 with trace := taken.2.trace ++ taken.1.filterMap (vectorAnswer taken.2) } :=
  foldl_vectorReads _ _

theorem Releases.cpuReset (s : State) : Releases s (cpuReset s) := by
  have taken : Releases s (takeResetOps (record .cpuReset (withClock 0 s))).2 := of_block (block_takeResetOps _)
  rw [cpuReset_eq]
  exact taken.trans (of_lines rfl rfl)

theorem Releases.resetAgents (s : State) : Releases s (resetAgents s) :=
  ((((resetDevice _ _).trans (resetDevice _ _)).trans (resetDevice _ _)).trans (resetDevice _ _)).trans (cpuReset _)

/-- RESET can only release lines (R37). -/
theorem Releases.exec_reset {s t : State} (h : exec .reset s = .next t) : Releases s t := by
  obtain rfl := eq_of_exec_reset h
  obtain ⟨rom, files, drawn, hload⟩ := loadRom_leaves (clearScheduler s)
  have loaded : Releases s (loadRom (clearScheduler s)).2 := by
    rw [hload]
    exact of_lines rfl rfl
  exact (loaded.trans (resetAgents _)).trans (of_lines (raise_irqLines _ _) (raise_ipl _ _))

/-- Settles O56: the fields RESET writes itself, the lines its agents can release, and the image of its load. -/
theorem resetZeroesAndReloads : Obligations.ResetZeroesAndReloads := by
  intro s hc
  have hexec := execReset_eq s
  generalize raise _ (resetAgents _) = t at hexec
  obtain ⟨rom, hown⟩ := own_execReset hexec
  have hlines := Releases.exec_reset hexec
  refine ⟨t, hexec, (congrArg State.result hown :), (congrArg State.cpuBalance hown :),
    (congrArg State.frameBalance hown :), (congrArg State.frameDone hown :), (congrArg State.underrun hown :),
    (congrArg State.equalrun hown :), (congrArg State.overrun hown :), (congrArg State.lapUnder hown :),
    (congrArg State.lapEqual hown :), (congrArg State.lapOver hown :), (congrArg State.mode hown :),
    (congrArg State.recording hown :), (congrArg State.divRem hown :),
    levels_of_own_lines (congrArg State.irqLines hown :), (congrArg State.cfg hown :),
    (congrArg State.commands hown :), clock_execReset hexec, hlines.pulled, hlines.level, fun f rest hf => ?_⟩
  obtain ⟨hstatus, himage⟩ := exec_reset_listed hc hf hexec
  cases f with
  | notConfigured => exact ⟨hstatus, himage⟩
  | missing => exact ⟨hstatus, himage⟩
  | file b =>
    refine ⟨fun hb => ⟨hstatus.trans (if_pos hb), fun i hi => ?_⟩,
      fun hb => ⟨hstatus.trans (if_neg (not_le_of_gt hb)), fun i hi => ?_⟩⟩
    · rw [himage i hi, loadedImage, if_pos hb]
    · rw [himage i hi, loadedImage, if_neg (not_le_of_gt hb)]

/-! ## The order of the calls -/

theorem Quietly.raise {k : Nat} {a : List Event} {s t : State} (h : Quietly k a s t) (st : Status) :
    Quietly k a s (Machine.raise st t) := ⟨h.trace, h.shared, h.devs⟩

theorem quietly_loadRom (s : State) : Quietly 0 [.romFile] s (loadRom s).2 := by
  obtain ⟨rom, files, drawn, hload⟩ := loadRom_leaves s
  rw [hload]
  exact ⟨rfl, rfl, rfl⟩

/-- The CPU's reset with its operations listed: the reads of the vectors are answered in order (R201). -/
theorem quietly_cpuReset {s : State} {ops : List CpuOp} {rest : List (List CpuOp)}
    (ho : s.env.cpuResets = ops :: rest) :
    Quietly 0 ([.cpuReset] ++ ops.filterMap (vectorAnswer s)) s (cpuReset s) := by
  have htake : takeResetOps (record .cpuReset (withClock 0 s)) = (ops, { s with
      trace := s.trace ++ [.cpuReset], env := { s.env with cpuResets := rest, clock := 0 } }) := by
    rw [takeResetOps, record_env, withClock_env, ho]
    rfl
  rw [cpuReset_eq, htake]
  exact ⟨List.append_assoc .., rfl, rfl⟩

theorem cpuResets_callDevice (call : DevCall) (s : State) :
    (callDevice call s).2.env.cpuResets = s.env.cpuResets := (congrArg Env.cpuResets (rest_callDevice call s) :)

section
variable {s : State} {ops : List CpuOp} {rest : List (List CpuOp)} (h : quietReplies 4 s = true)
  (ho : s.env.cpuResets = ops :: rest)
include h ho

/-- The resets of R200 where no device nests an operation. -/
theorem quietly_resetAgents : Quietly 4 ([.device (.reset .sound), .device (.reset .blitter),
    .device (.reset .timer), .device (.reset .cia), .cpuReset] ++ ops.filterMap (vectorAnswer s)) s
    (resetAgents s) := by
  have sound := Quietly.callDevice (.reset .sound) (quietReplies_mono h (by decide))
  have blitter := sound.trans (.callDevice (.reset .blitter) (sound.quiet (quietReplies_mono h (by decide))))
  have timer := blitter.trans (.callDevice (.reset .timer) (blitter.quiet (quietReplies_mono h (by decide))))
  have cia := timer.trans (.callDevice (.reset .cia) (timer.quiet h))
  have hresets : (resetDevice .cia (resetDevice .timer (resetDevice .blitter (resetDevice .sound s)))).env.cpuResets =
      ops :: rest := by
    rw [← ho]
    simp only [resetDevice, cpuResets_callDevice]
  have hrom : (resetDevice .cia (resetDevice .timer (resetDevice .blitter (resetDevice .sound s)))).rom = s.rom :=
    rom_of_own (by simp only [resetDevice, own_callDevice])
  have cpu := quietly_cpuReset hresets
  rw [vectorAnswer_of_rom hrom] at cpu
  exact cia.trans cpu

/-- The calls of a RESET where no device nests an operation. -/
theorem quietly_exec_reset {t : State} (ht : exec .reset s = .next t) : Quietly 4 ([.romFile,
    .device (.reset .sound), .device (.reset .blitter), .device (.reset .timer), .device (.reset .cia), .cpuReset] ++
    ops.filterMap (vectorAnswer t)) s t := by
  have cleared : Quietly 0 [] s (clearScheduler s) := .idle rfl rfl rfl
  have loaded := cleared.trans (quietly_loadRom (clearScheduler s))
  obtain ⟨rom, files, drawn, hload⟩ := loadRom_leaves (clearScheduler s)
  have hresets : (loadRom (clearScheduler s)).2.env.cpuResets = ops :: rest := by rw [hload]; exact ho
  have calls := (loaded.trans (quietly_resetAgents (loaded.quiet h) hresets)).raise (loadRom (clearScheduler s)).1
  rw [← vectorAnswer_of_rom (rom_exec_reset ht), eq_of_exec_reset ht] at calls
  exact calls

end

/-- Settles O57: the load of the image, then the resets, then the answers the new image gives. -/
theorem resetCallsItsAgentsInOrder : Obligations.ResetCallsItsAgentsInOrder := by
  intro s ops rest hq ho
  have hexec := execReset_eq s
  generalize raise _ (resetAgents _) = t at hexec
  have calls := quietly_exec_reset hq ho hexec
  refine ⟨t, hexec, by rw [calls.trace, List.append_assoc], fun hc f files hf i hi => ?_,
    shared_eq_iff.mp calls.shared⟩
  obtain ⟨-, himage⟩ := exec_reset_listed hc hf hexec
  exact himage i (Nat.lt_trans hi (by decide))

end Sys2Proof.Machine
end
